-- ==== Sys2Proof/Word.lean ====
section
/-! DEFINITION. The words of the block: command words, responses, bytes (20_memory.md R83, 30_encoding.md R110). -/

namespace Sys2Proof

/-- One command: a 64-bit word, transferred whole (R83, R110). -/
abbrev CmdWord := BitVec 64

/-- A response, a group register or a handle: 32 bits (R83, R118, R124). -/
abbrev Word := BitVec 32

/-- One queue element (R12). -/
abbrev Byte := BitVec 8

end Sys2Proof
end

