-- ==== Sys2Proof/Syntax.lean ====
section
/-! DEFINITION. The commands of the block, one constructor per row of the opcode map (30_encoding.md R114).
UNIT and IDX operands are unsigned integers (R115, R116), hence `Nat`; `WellFormed.lean` bounds them to their fields. -/

namespace Sys2Proof

/-- A command with its operands in the order UNIT, IDX, VAL (R130). -/
inductive Instr where
  /-- QPUT q, byte (R141). -/
  | qput (q : Nat) (b : Byte)
  /-- QGET q (R145). -/
  | qget (q : Nat)
  /-- QLEN q (R150). -/
  | qlen (q : Nat)
  /-- QCAP q (R152). -/
  | qcap (q : Nat)
  /-- SETTASK T, i, handle (R172). -/
  | settask (t i : Nat) (val : Word)
  /-- RUNTASK T, i (R174). -/
  | runtask (t i : Nat)
  /-- GETMASK T, w (R180). -/
  | getmask (t w : Nat)
  /-- TSIZE T (R182). -/
  | tsize (t : Nat)
  /-- TRET (R184). -/
  | tret
  /-- SETLVLV v, p (R200). -/
  | setlvlv (v p : Nat)
  /-- SETLVLP pid, p (R205). -/
  | setlvlp (pid p : Nat)
  /-- RDLVL v (R210). -/
  | rdlvl (v : Nat)
  /-- SETDMAC ch, v (R214). -/
  | setdmac (ch v : Nat)
  /-- INSTGT g, i, handle (R230). -/
  | instgt (g i : Nat) (val : Word)
  /-- GDEMUX g (R240). -/
  | gdemux (g : Nat)
  /-- RDGRP g (R250). -/
  | rdgrp (g : Nat)
  /-- CLRGRP g, i (R252). -/
  | clrgrp (g i : Nat)
  /-- RDGEN g (R254). -/
  | rdgen (g : Nat)
  deriving DecidableEq, Repr

end Sys2Proof
end

