-- ==== Sys2Proof/WellFormed.lean ====
section
/-! DEFINITION. When a command term fits its word: UNIT is 10 bits and IDX is 8 bits (30_encoding.md R111). -/

namespace Sys2Proof

/-- The operand fits the 10-bit UNIT field (R111). -/
def unitFits (u : Nat) : Bool := u < 1024

/-- The operand fits the 8-bit IDX field (R111). -/
def idxFits (i : Nat) : Bool := i < 256

/-- The operands of a command fit the fields of its word (R111, R115, R116). -/
def Instr.wf : Instr → Bool
  | .qput q _ => unitFits q
  | .qget q => unitFits q
  | .qlen q => unitFits q
  | .qcap q => unitFits q
  | .settask t i _ => unitFits t && idxFits i
  | .runtask t i => unitFits t && idxFits i
  | .getmask t w => unitFits t && idxFits w
  | .tsize t => unitFits t
  | .tret => true
  | .setlvlv v p => unitFits v && idxFits p
  | .setlvlp pid p => unitFits pid && idxFits p
  | .rdlvl v => unitFits v
  | .setdmac ch v => unitFits ch && idxFits v
  | .instgt g i _ => unitFits g && idxFits i
  | .gdemux g => unitFits g
  | .rdgrp g => unitFits g
  | .clrgrp g i => unitFits g && idxFits i
  | .rdgen g => unitFits g

end Sys2Proof
end

