-- ==== Sys2Proof/Decode.lean ====
section
/-! DEFINITION. The decoder, total on all 2^64 words and rejecting by name (30_encoding.md R110 to R114, R121), and after
it the encoder, written from the same tables. -/

namespace Sys2Proof

/-- The five command formats (R112). -/
inductive Format where
  | N | U | UI | UIV | QB
  deriving DecidableEq, Repr

/-- The mask of fixed bits of each format (R112, last column). -/
def Format.mask : Format → CmdWord
  | .N => 0xFFFFFFFFFFFFFFFF#64
  | .U => 0xFC00FFFFFFFFFFFF#64
  | .UI => 0xFC0000FFFFFFFFFF#64
  | .UIV => 0xFC0000FF00000000#64
  | .QB => 0xFC00FFFFFFFFFF00#64

/-- OP = w[63:58] (R111). -/
def opOf (w : CmdWord) : BitVec 6 := w.extractLsb' 58 6
/-- UNIT = w[57:48] (R111). -/
def unitOf (w : CmdWord) : BitVec 10 := w.extractLsb' 48 10
/-- IDX = w[47:40] (R111). -/
def idxOf (w : CmdWord) : BitVec 8 := w.extractLsb' 40 8
/-- RSV = w[39:32] (R111). -/
def rsvOf (w : CmdWord) : BitVec 8 := w.extractLsb' 32 8
/-- VAL = w[31:0] (R111). -/
def valOf (w : CmdWord) : Word := w.extractLsb' 0 32

/-- `word = {OP, UNIT, IDX, RSV, VAL}` (R111). -/
def packWord (op : BitVec 6) (unit : BitVec 10) (idx rsv : BitVec 8) (val : Word) : CmdWord :=
  op ++ unit ++ idx ++ rsv ++ val

/-- One row of the opcode map (R114): opcode, format, match word, and the command its fields build (R115 to R118). -/
structure OpRow where
  op : BitVec 6
  fmt : Format
  pat : CmdWord
  build : Nat → Nat → Word → Instr

/-- The opcode map, queue and table families (R114). -/
def opcodeTableLow : List OpRow :=
  [ ⟨0x01#6, .QB, 0x0400000000000000#64, fun u _ v => .qput u (v.extractLsb' 0 8)⟩,
    ⟨0x02#6, .U, 0x0800000000000000#64, fun u _ _ => .qget u⟩,
    ⟨0x03#6, .U, 0x0C00000000000000#64, fun u _ _ => .qlen u⟩,
    ⟨0x04#6, .U, 0x1000000000000000#64, fun u _ _ => .qcap u⟩,
    ⟨0x08#6, .UIV, 0x2000000000000000#64, fun u i v => .settask u i v⟩,
    ⟨0x09#6, .UI, 0x2400000000000000#64, fun u i _ => .runtask u i⟩,
    ⟨0x0A#6, .UI, 0x2800000000000000#64, fun u i _ => .getmask u i⟩,
    ⟨0x0B#6, .U, 0x2C00000000000000#64, fun u _ _ => .tsize u⟩,
    ⟨0x0C#6, .N, 0x3000000000000000#64, fun _ _ _ => .tret⟩ ]

/-- The opcode map, ICU manager families (R114). -/
def opcodeTableHigh : List OpRow :=
  [ ⟨0x10#6, .UI, 0x4000000000000000#64, fun u i _ => .setlvlv u i⟩,
    ⟨0x11#6, .UI, 0x4400000000000000#64, fun u i _ => .setlvlp u i⟩,
    ⟨0x12#6, .U, 0x4800000000000000#64, fun u _ _ => .rdlvl u⟩,
    ⟨0x13#6, .UI, 0x4C00000000000000#64, fun u i _ => .setdmac u i⟩,
    ⟨0x18#6, .UIV, 0x6000000000000000#64, fun u i v => .instgt u i v⟩,
    ⟨0x19#6, .U, 0x6400000000000000#64, fun u _ _ => .gdemux u⟩,
    ⟨0x1A#6, .U, 0x6800000000000000#64, fun u _ _ => .rdgrp u⟩,
    ⟨0x1B#6, .UI, 0x6C00000000000000#64, fun u i _ => .clrgrp u i⟩,
    ⟨0x1C#6, .U, 0x7000000000000000#64, fun u _ _ => .rdgen u⟩ ]

/-- The opcode map (R114). -/
def opcodeTable : List OpRow := opcodeTableLow ++ opcodeTableHigh

/-- The row of an opcode, if the map lists it (R113). -/
def rowOf (op : BitVec 6) : Option OpRow := opcodeTable.find? (fun r => r.op = op)

/-- Why a word is illegal (R121). -/
inductive Reject where
  /-- OP is not in the opcode map. -/
  | unknownOpcode
  /-- RSV is not zero. -/
  | reservedNonzero
  /-- A must-be-zero field of the format is not zero. -/
  | unusedFieldNonzero
  deriving DecidableEq, Repr

/-- Decoding of a word (R113), total, with the reason where it is illegal (R121). -/
def decode (w : CmdWord) : Except Reject Instr :=
  match rowOf (opOf w) with
  | none => .error .unknownOpcode
  | some r =>
    if w &&& r.fmt.mask ≠ r.pat then
      .error (if rsvOf w ≠ 0#8 then .reservedNonzero else .unusedFieldNonzero)
    else .ok (r.build (unitOf w).toNat (idxOf w).toNat (valOf w))

/-- The command word of a command (R111, R112, R114): every field its format does not use is zero. -/
def encode : Instr → CmdWord
  | .qput q b => packWord 0x01#6 (.ofNat 10 q) 0#8 0#8 (b.zeroExtend 32)
  | .qget q => packWord 0x02#6 (.ofNat 10 q) 0#8 0#8 0#32
  | .qlen q => packWord 0x03#6 (.ofNat 10 q) 0#8 0#8 0#32
  | .qcap q => packWord 0x04#6 (.ofNat 10 q) 0#8 0#8 0#32
  | .settask t i val => packWord 0x08#6 (.ofNat 10 t) (.ofNat 8 i) 0#8 val
  | .runtask t i => packWord 0x09#6 (.ofNat 10 t) (.ofNat 8 i) 0#8 0#32
  | .getmask t w => packWord 0x0A#6 (.ofNat 10 t) (.ofNat 8 w) 0#8 0#32
  | .tsize t => packWord 0x0B#6 (.ofNat 10 t) 0#8 0#8 0#32
  | .tret => packWord 0x0C#6 0#10 0#8 0#8 0#32
  | .setlvlv v p => packWord 0x10#6 (.ofNat 10 v) (.ofNat 8 p) 0#8 0#32
  | .setlvlp pid p => packWord 0x11#6 (.ofNat 10 pid) (.ofNat 8 p) 0#8 0#32
  | .rdlvl v => packWord 0x12#6 (.ofNat 10 v) 0#8 0#8 0#32
  | .setdmac ch v => packWord 0x13#6 (.ofNat 10 ch) (.ofNat 8 v) 0#8 0#32
  | .instgt g i val => packWord 0x18#6 (.ofNat 10 g) (.ofNat 8 i) 0#8 val
  | .gdemux g => packWord 0x19#6 (.ofNat 10 g) 0#8 0#8 0#32
  | .rdgrp g => packWord 0x1A#6 (.ofNat 10 g) 0#8 0#8 0#32
  | .clrgrp g i => packWord 0x1B#6 (.ofNat 10 g) (.ofNat 8 i) 0#8 0#32
  | .rdgen g => packWord 0x1C#6 (.ofNat 10 g) 0#8 0#8 0#32

/-- The command the decoder reads from the opcode table's numbering of bits: `nbits` bits of one 64-bit word, every bit
above them zero. A command is one word, so its bit 0 is the table's bit 0 (R110). -/
def decodeTableWord (nbits w : Nat) : Option Instr :=
  match decode (BitVec.ofNat 64 (w % 2 ^ nbits)) with
  | .ok i => some i
  | .error _ => none

end Sys2Proof
end

