-- ==== Sys2Proof/Config.lean ====
section
/-! DEFINITION. The configuration `Cfg` of a part (00_scope.md R8), as plain data, and the one free value of the model.
What the lists mean, and when a configuration is well formed, is in `Machine/Operands.lean`. -/

namespace Sys2Proof

/-- An execution context: the mainline `M` or the interrupt context `Irq(v)` (R7, R293). -/
inductive Ctx where
  | main
  | irq (v : Nat)
  deriving DecidableEq, Repr

/-- `TRIG(g)` (R8, R40). -/
inductive Trig where
  | edge
  | level
  deriving DecidableEq, Repr

/-- A vector with a priority field: `FIELD(vec) = field`, and whether `vec` is in `LVEC`.
`LVEC` holds only vectors whose field is defined (R8), so it is a mark on these rows. -/
structure VectorRow where
  vec : Nat
  field : Nat
  inLvec : Bool
  deriving DecidableEq, Repr

/-- A peripheral identity: `ENV(pid) = env` (a set: vectors in rising order) and `PF(pid) = field` (R8). -/
structure PeriphRow where
  pid : Nat
  env : List Nat
  field : Nat
  deriving DecidableEq, Repr

/-- A group vector with `N(vec) = n` and `TRIG(vec) = trig` (R8, R10). -/
structure GroupRow where
  vec : Nat
  n : Nat
  trig : Trig
  deriving DecidableEq, Repr

/-- A queue with its capacity, producer and consumer (R8, R11, R142). -/
structure QueueRow where
  id : Nat
  cap : Nat
  prod : Ctx
  cons : Ctx
  deriving DecidableEq, Repr

/-- `HBODY(h)` as the command words that body issues, in order (R8, R186; DESIGN CHOICE, log 3). -/
structure BodyRow where
  h : Nat
  cmds : List CmdWord
  deriving DecidableEq, Repr

/-- `CMD_PORT_BYTE_ORDER` (R83). -/
inductive ByteOrder where
  | little
  | big
  deriving DecidableEq, Repr

/-- The configuration of a part (R8). Each list stands for a finite map and rises strictly in its key. -/
structure Cfg where
  nv : Nat
  prioMax : Nat
  nf : Nat
  vectors : List VectorRow
  periphs : List PeriphRow
  groups : List GroupRow
  queues : List QueueRow
  bodies : List BodyRow
  /-- `CMD_PORT_ADDR`: no rule reads it (R81). -/
  cmdPortAddr : Nat
  /-- `CMD_PORT_BYTE_ORDER`: no rule reads it (R83). -/
  cmdPortByteOrder : ByteOrder
  deriving DecidableEq, Repr

/-- FREE VALUE (log 5): what index `i` of queue `q`'s storage holds before any QPUT wrote it. The spec leaves it
unspecified (10_state.md R42, 93_implementation_defined.md row 5), so nothing may rest on it. -/
opaque Config.unwrittenByte : Nat → Nat → Byte

/-- The vector rows of the test configuration: `FIELD(59) = FIELD(60) = 58`, `FIELD(v) = v` for every other `v` in
`0..199`, `LVEC = 0..199` (95_test_vectors.md section 2). -/
def Config.testVectors : List VectorRow :=
  (List.range 200).map fun v => ⟨v, if v = 59 ∨ v = 60 then 58 else v, true⟩

/-- `HBODY` of the test configuration, as command words (95_test_vectors.md section 2). -/
def Config.testBodies : List BodyRow :=
  [ ⟨0x10, [0x0401000000000052#64, 0x3000000000000000#64]⟩,
    ⟨0x11, [0x0802000000000000#64, 0x3000000000000000#64]⟩,
    ⟨0x12, [0x3000000000000000#64]⟩,
    ⟨0x20, [0x3000000000000000#64]⟩,
    ⟨0x21, [0x3000000000000000#64]⟩,
    ⟨0x30, [0x3000000000000000#64]⟩ ]

/-- `Cfg_T`, the spec's example configuration (95_test_vectors.md section 2). DESIGN CHOICE (log 1): the configuration
that `State.reset` carries; the spec gives no part's values. -/
def Config.cfgT : Cfg where
  nv := 256
  prioMax := 15
  nf := 256
  vectors := Config.testVectors
  periphs := [⟨7, [58, 59, 60], 58⟩]
  groups := [⟨110, 32, .edge⟩, ⟨112, 22, .level⟩]
  queues := [⟨0, 4, .main, .main⟩, ⟨1, 8, .irq 64, .main⟩, ⟨2, 1024, .main, .irq 65⟩, ⟨3, 16, .main, .main⟩]
  bodies := Config.testBodies
  cmdPortAddr := 0
  cmdPortByteOrder := .big

end Sys2Proof
end

