-- ==== Sys2Proof/Machine/State.lean ====
section
/-! DEFINITION. The state of the block as plain data (10_state.md R30 to R49), its faults and refusals, and reset
(70_reset_and_hazards.md R320). A per-vector, per-field, per-group or per-queue element is a list of (key, value) pairs
with rising keys that lists no value equal to the element's reset value (`Machine/Sparse.lean`). -/

namespace Sys2Proof.Machine

/-- A dispatch slot's value (R35). -/
inductive Slot where
  | null
  | handler (h : Nat)
  | demux (g : Nat)
  deriving DecidableEq, Repr

/-- The phase of a demux activation (R243). -/
inductive Phase where
  | scan
  | called (i : Nat)
  deriving DecidableEq, Repr

/-- What a body waits on: nothing, its RUNTASK, or its GDEMUX (R184). The operands are the pending command's. -/
inductive Wait where
  | nothing
  | runtask (t i : Nat)
  | gdemux (g : Nat)
  deriving DecidableEq, Repr

/-- An activation (R44): `Body(h)`, with the command words its host program has still to issue (log 3) and what it waits
on, or `DemuxAct(g, snap, pos, phase)` (R243). -/
inductive Act where
  | body (h : Nat) (rest : List CmdWord) (wait : Wait)
  | demux (g : Nat) (snap : Word) (pos : Nat) (phase : Phase)
  deriving DecidableEq, Repr

/-- An interrupt frame `Frame(v, lvl, acts)` (R44); `acts` has the newest activation at its head. -/
structure Frame where
  vec : Nat
  lvl : BitVec 8
  acts : List Act
  deriving DecidableEq, Repr

/-- `DACT[g]` (R46). -/
inductive DemuxStatus where
  | idle
  | active
  deriving DecidableEq, Repr

/-- A source event (60_exceptions.md R280). -/
inductive SrcEvent where
  | edge (g i : Nat)
  | level (g i : Nat) (b : Bool)
  | vreq (v : Nat)
  deriving DecidableEq, Repr

/-- A fault record `(F, info)` of the block (60_exceptions.md R270). Raising one is a step of the block: the record enters
`FAULTS` and the block stops (R271). -/
inductive FaultRec where
  | illegalCommand (w : CmdWord)
  | badQueue (q : Nat)
  | ownershipViolation (q : Nat) (ctx : Ctx)
  | queueOverflow (q : Nat)
  | blockInInterrupt (q : Nat) (ctx : Ctx)
  | dispatchInMainline (w : CmdWord)
  | runTaskBadIndex (t i : Nat)
  | tableWriteDuringDispatch (t i : Nat)
  | demuxReentered (g : Nat)
  | strayReturn (ctx : Ctx)
  deriving DecidableEq, Repr

/-- Why the block refuses a command (60_exceptions.md R272): `Unmodelled(SETDMAC)` is the only reason. -/
inductive RefuseReason where
  | unmodelledSetdmac
  deriving DecidableEq, Repr

/-- An event of the history (00_scope.md R19). -/
inductive Event where
  | cmd (ctx : Ctx) (word : CmdWord) (resp : Word)
  | invoke (ctx : Ctx) (h : Nat)
  | ret (ctx : Ctx) (h : Nat)
  | deliver (v : Nat) (lvl : BitVec 8)
  | intReturn (v : Nat)
  | src (e : SrcEvent)
  | fault (f : FaultRec)
  | refuse (r : RefuseReason)
  deriving DecidableEq, Repr

/-- One entry of the schedule: which agent takes the next step (20_memory.md R89; DESIGN CHOICE, log 2). -/
inductive Input where
  /-- The running activation takes its next step. -/
  | run
  /-- The running host program issues this word. -/
  | issue (w : CmdWord)
  /-- A delivery step (R287). -/
  | deliver
  /-- A source event (R280). -/
  | source (e : SrcEvent)
  deriving DecidableEq, Repr

/-- Who goes first where the schedule is empty and both a delivery and the running activation have a step: delivery, but for
the step after a spurious delivery (60_exceptions.md R292, 70_reset_and_hazards.md R335, R336; DESIGN CHOICE, log 2). -/
inductive Turn where
  | delivery
  | activation
  deriving DecidableEq, Repr

/-- The state of the block (R30) and, last, the model's own fields: the configuration, the mainline's words, the schedule
and the turn (log 1, 2, 3). -/
structure State where
  /-- `IEN[v]` (R32). -/
  ien : List (Nat × Bool)
  /-- `IPR[f]` (R33). -/
  ipr : List (Nat × BitVec 8)
  /-- `IR[v]` (R34). -/
  ir : List (Nat × Bool)
  /-- `RAW[v]` (R36). -/
  raw : List (Nat × Slot)
  /-- `GT[g][i]` (R37). -/
  gt : List (Nat × List (Nat × Slot))
  /-- `GEN[g]` (R39). -/
  gen : List (Nat × Word)
  /-- The latches of `GRP[g]`, edge groups (R40). -/
  grp : List (Nat × Word)
  /-- `SRC[g]`, level groups: bit `i` is source `i`'s input (R41). -/
  src : List (Nat × Word)
  /-- `BUF[q]`: the bytes that have been written (R42, log 5). -/
  buf : List (Nat × List Host.Cell)
  /-- `RD[q]` (R42). -/
  rd : List (Nat × Nat)
  /-- `WR[q]` (R42). -/
  wr : List (Nat × Nat)
  /-- `DACT[g]` (R46). -/
  dact : List (Nat × DemuxStatus)
  /-- `CS`, the newest frame at the head (R44). -/
  cs : List Frame
  /-- `MACT`, the newest activation at the head (R44). -/
  mact : List Act
  /-- The queue whose QGET the mainline holds on, if it holds (R146, R293). -/
  hold : Option Nat
  /-- `FAULTS` (R47). -/
  faults : List FaultRec
  /-- `REFUSED` (R47). -/
  refused : Bool
  /-- `HIST`, oldest event first (R48). -/
  hist : List Event
  /-- The configuration, which no step writes (R31, log 1). -/
  cfg : Cfg
  /-- The command words the mainline program has still to issue (R31, log 3). -/
  main : List CmdWord
  /-- The schedule, next entry first (R89, log 2). -/
  inputs : List Input
  /-- Whose turn it is where the schedule is empty (R292, log 2). -/
  turn : Turn
  deriving DecidableEq, Repr

/-- Why a step of the machine has no next state. Every one is raised by `Machine.advance` alone, never by a command's
meaning, and every one is safe: the rules give no further step there, or none without an agent outside the model. -/
inductive Fault where
  /-- `FAULTS` is not empty: the block has stopped for good (R271). Raised by `advance`. Safe: the rule's own stop. -/
  | stopped (f : FaultRec)
  /-- The run has ended (R20): the mainline has no further command, no frame stands, nothing is eligible and no input is
  left. Raised by `advance`. Safe: no agent has a step. -/
  | runEnded
  /-- The mainline holds on this queue, nothing is eligible and no input is left: stuck (R20, R146). Raised by `advance`.
  Safe: no agent has a step. -/
  | heldForEver (q : Nat)
  /-- A body has issued its last word without TRET and no input is left: its context hangs (R186). Raised by `advance`.
  Safe: no agent has a step. -/
  | bodyNeverReturns (h : Nat)
  /-- A frame stands that has no activation, which no run reaches (R289). Raised by `advance`. Safe: no agent has a
  step. -/
  | frameWithoutWork (v : Nat)
  deriving DecidableEq, Repr

/-- Why the machine refuses a step. -/
inductive Refusal where
  /-- An instruction whose arm of `exec` has no meaning yet. Raised by `exec` alone. Safe. -/
  | notModelled (mnemonic : String)
  /-- The configuration is ill formed, and "a model refuses an ill-formed configuration" (R9). Raised by `advance`. Safe. -/
  | illFormedConfig
  /-- `REFUSED` is set: the block has stopped for good (R272). Raised by `advance`. Safe: the rule's own stop. -/
  | stoppedByRefusal
  deriving DecidableEq, Repr

/-- The block right after reset (R320), for the configuration `c`: level inputs 0 (DESIGN CHOICE, log 4), no program
loaded, an empty schedule and the turn with delivery (log 2, 3). -/
def State.resetOf (c : Cfg) : State where
  ien := []
  ipr := []
  ir := []
  raw := []
  gt := []
  gen := []
  grp := []
  src := []
  buf := []
  rd := []
  wr := []
  dact := []
  cs := []
  mact := []
  hold := none
  faults := []
  refused := false
  hist := []
  cfg := c
  main := []
  inputs := []
  turn := .delivery

/-- The block right after reset (R320), with the spec's example configuration (DESIGN CHOICE, log 1). -/
def State.reset : State := State.resetOf Config.cfgT

end Sys2Proof.Machine
end

