-- ==== Sys2Proof/Machine/Sparse.lean ====
section
/-! DEFINITION. Finite and default-valued maps as lists of (key, value) pairs with strictly rising keys: the one form in
which the state holds its indexed elements, and its canonical form. -/

namespace Sys2Proof.Machine

/-- The value listed at key `k`, if any. -/
def Sparse.lookup {α : Type} : List (Nat × α) → Nat → Option α
  | [], _ => none
  | (k', v) :: m, k => if k' = k then some v else Sparse.lookup m k

/-- `m` with `v` listed at `k`. -/
def Sparse.insert {α : Type} : List (Nat × α) → Nat → α → List (Nat × α)
  | [], k, v => [(k, v)]
  | (k', v') :: m, k, v =>
    if k < k' then (k, v) :: (k', v') :: m
    else if k = k' then (k, v) :: m
    else (k', v') :: Sparse.insert m k v

/-- `m` with nothing listed at `k`. -/
def Sparse.erase {α : Type} : List (Nat × α) → Nat → List (Nat × α)
  | [], _ => []
  | (k', v') :: m, k => if k' = k then Sparse.erase m k else (k', v') :: Sparse.erase m k

/-- The value at `k` of the map that reads `d` wherever nothing is listed. -/
def Sparse.get {α : Type} (d : α) (m : List (Nat × α)) (k : Nat) : α := (Sparse.lookup m k).getD d

/-- The map with `v` at `k`; the value that an unlisted key reads as is not listed. -/
def Sparse.set {α : Type} [DecidableEq α] (d : α) (m : List (Nat × α)) (k : Nat) (v : α) : List (Nat × α) :=
  if v = d then Sparse.erase m k else Sparse.insert m k v

/-- The keys rise strictly, the first being at least `lo`. -/
def risesFrom {α : Type} (key : α → Nat) (lo : Nat) : List α → Bool
  | [] => true
  | a :: l => decide (lo ≤ key a) && risesFrom key (key a + 1) l

/-- The keys of the list rise strictly. -/
def Sparse.rising {α : Type} (m : List (Nat × α)) : Bool := risesFrom Prod.fst 0 m

/-- Canonical form of a map that reads `d` where nothing is listed: rising keys, and `d` never listed. -/
def Sparse.canonical {α : Type} [DecidableEq α] (d : α) (m : List (Nat × α)) : Bool :=
  Sparse.rising m && m.all fun p => decide (p.2 ≠ d)

/-- Canonical form of a map of maps. -/
def Sparse.canonical2 {α : Type} (inner : List (Nat × α) → Bool) (m : List (Nat × List (Nat × α))) : Bool :=
  Sparse.rising m && m.all fun p => !p.2.isEmpty && inner p.2

/-- Canonical form of queue storage `BUF` (10_state.md R42): queues and indices rise strictly. An unwritten index has no
value of its own (log 5), so every listed byte is one that was written. -/
def Memory.wf (m : List (Nat × List Host.Cell)) : Bool := Sparse.canonical2 Sparse.rising m

end Sys2Proof.Machine
end

