-- ==== Sys2Proof/Machine/Operands.lean ====
section
/-! DEFINITION. What operands name: the configuration's maps and its well-formedness (00_scope.md R8, R9), the table
selector, handles, priorities and slots (30_encoding.md R115 to R120; 41_dispatch_table.md R170, R171). -/

namespace Sys2Proof.Machine

/-- The priority field row of vector `v`, if `FIELD(v)` is defined (R8). -/
def vectorRow (c : Cfg) (v : Nat) : Option VectorRow := c.vectors.find? fun r => r.vec = v

/-- `FIELD(v)` (R8). -/
def fieldOf (c : Cfg) (v : Nat) : Option Nat := (vectorRow c v).map (·.field)

/-- `v ∈ LVEC`, and then its field (R8). -/
def lvecField (c : Cfg) (v : Nat) : Option Nat :=
  match vectorRow c v with
  | some r => if r.inLvec then some r.field else none
  | none => none

/-- `PERIPH` at `pid` (R8). -/
def periphOf (c : Cfg) (pid : Nat) : Option PeriphRow := c.periphs.find? fun r => r.pid = pid

/-- `GROUPS` at `g` (R8). -/
def groupOf (c : Cfg) (g : Nat) : Option GroupRow := c.groups.find? fun r => r.vec = g

/-- `g ∈ GROUPS` (R8). -/
def isGroup (c : Cfg) (g : Nat) : Bool := (groupOf c g).isSome

/-- `N(g)`, 0 where `g` is no group (R8, R10). -/
def groupSize (c : Cfg) (g : Nat) : Nat := ((groupOf c g).map (·.n)).getD 0

/-- `QUEUES` at `q` (R8). -/
def queueOf (c : Cfg) (q : Nat) : Option QueueRow := c.queues.find? fun r => r.id = q

/-- The words that `HBODY(h)` issues (R8, R186). A body not listed issues only what the schedule gives it (log 3). -/
def bodyOf (c : Cfg) (h : Nat) : List CmdWord := ((c.bodies.find? fun r => r.h = h).map (·.cmds)).getD []

/-- A context of the configuration: `M`, or `Irq(v)` with `v < NV` (R9 item 3). -/
def ctxOk (c : Cfg) : Ctx → Bool
  | .main => true
  | .irq v => v < c.nv

/-- The ranges of the vector rows (R8; R9 item 1). -/
def vectorsOk (c : Cfg) : Bool :=
  risesFrom VectorRow.vec 0 c.vectors && c.vectors.all fun r => r.vec < c.nv && r.field < c.nf

/-- The ranges of the group rows (R8, R10; R9 item 1). -/
def groupsOk (c : Cfg) : Bool :=
  risesFrom GroupRow.vec 0 c.groups && c.groups.all fun r => r.vec < c.nv && (1 ≤ r.n && r.n ≤ 32)

/-- The peripherals: a nonempty set of vectors, each with the peripheral's own field and none of them a group vector
(R8; R9 items 1, 2 and 4). -/
def periphsOk (c : Cfg) : Bool :=
  risesFrom PeriphRow.pid 0 c.periphs && c.periphs.all fun r =>
    r.pid < 1024 && !r.env.isEmpty && risesFrom (fun v => v) 0 r.env &&
      r.env.all fun v => v < c.nv && (fieldOf c v == some r.field && !isGroup c v)

/-- The ranges of the queue rows (R8, R11; R9 item 3). -/
def queuesOk (c : Cfg) : Bool :=
  risesFrom QueueRow.id 0 c.queues && c.queues.all fun r =>
    r.id < 1024 && ((1 ≤ r.cap && r.cap ≤ 2 ^ 30) && (ctxOk c r.prod && ctxOk c r.cons))

/-- The ranges of the handler ids (R8). -/
def bodiesOk (c : Cfg) : Bool :=
  risesFrom BodyRow.h 0 c.bodies && c.bodies.all fun r => 1 ≤ r.h && r.h < 2 ^ 31

/-- The configuration is well formed (R8's ranges and R9). -/
def cfgOk (c : Cfg) : Bool :=
  (1 ≤ c.nv && c.nv ≤ 256) && (1 ≤ c.prioMax && c.prioMax ≤ 255) && (1 ≤ c.nf && c.nf ≤ 1024) &&
    vectorsOk c && groupsOk c && periphsOk c && queuesOk c && bodiesOk c

/-- The selector of the raw table (R119). -/
def rawSel : Nat := 0x100

/-- The table a selector names (R119, R170). -/
inductive Table where
  | raw
  | group (g : Nat)
  deriving DecidableEq, Repr

/-- Table lookup (R119, R170). -/
def tableOf (c : Cfg) (t : Nat) : Option Table :=
  if t = rawSel then some .raw
  else if t < rawSel ∧ isGroup c t then some (.group t)
  else none

/-- `size(T)` (R38, R170). -/
def tableSize (c : Cfg) : Table → Nat
  | .raw => c.nv
  | .group g => groupSize c g

/-- The slot value a handle encodes; `none` where it is malformed (R118). -/
def decodeHandle (c : Cfg) (val : Word) : Option Slot :=
  if val = 0#32 then some .null
  else if val.getLsbD 31 = false then some (.handler (val.extractLsb' 0 31).toNat)
  else if val.extractLsb' 8 23 = 0#23 ∧ isGroup c (val.extractLsb' 0 8).toNat then
    some (.demux (val.extractLsb' 0 8).toNat)
  else none

/-- The handle of a slot value (R118, R131). -/
def encodeHandle : Slot → Word
  | .null => 0#32
  | .handler h => BitVec.ofNat 32 h
  | .demux g => 0x80000000#32 ||| BitVec.ofNat 32 g

/-- The slot value may be stored in the table (R171). -/
def slotLegal : Table → Slot → Bool
  | .group _, .demux _ => false
  | _, _ => true

/-- `RAW[v]` (R36). -/
def State.rawSlot (s : State) (v : Nat) : Slot := Sparse.get .null s.raw v

/-- `GT[g][i]` (R37). -/
def State.gtSlot (s : State) (g i : Nat) : Slot := Sparse.get .null (Sparse.get [] s.gt g) i

/-- `T[i]`. -/
def State.slot (s : State) (T : Table) (i : Nat) : Slot :=
  match T with
  | .raw => s.rawSlot i
  | .group g => s.gtSlot g i

/-- `RAW[v] <- x`. -/
def State.setRaw (s : State) (v : Nat) (x : Slot) : State := { s with raw := Sparse.set .null s.raw v x }

/-- `GT[g][i] <- x`. -/
def State.setGt (s : State) (g i : Nat) (x : Slot) : State :=
  { s with gt := Sparse.set [] s.gt g (Sparse.set .null (Sparse.get [] s.gt g) i x) }

/-- `T[i] <- x`. -/
def State.setSlot (s : State) (T : Table) (i : Nat) (x : Slot) : State :=
  match T with
  | .raw => s.setRaw i x
  | .group g => s.setGt g i x

end Sys2Proof.Machine
end

