-- ==== Sys2Proof/Machine/Flags.lean ====
section
/-! DEFINITION. The registers and what is computed from them: group flags, enables and requests, occupied-slot masks,
vector requests and levels, eligibility and selection (10_state.md R32 to R45; 60_exceptions.md R283 to R286). -/

namespace Sys2Proof.Machine

/-- The bits below `n`. -/
def lowMask (n : Nat) : Word := BitVec.ofNat 32 (2 ^ n - 1)

/-- `x` with bit `i` set to `b`. -/
def setBit (x : Word) (i : Nat) (b : Bool) : Word := if b then x ||| 1#32 <<< i else x &&& ~~~(1#32 <<< i)

/-- The word whose bit `j < n` is `f j` and whose other bits are 0. -/
def packBits (f : Nat → Bool) : Nat → Word
  | 0 => 0#32
  | n + 1 => setBit (packBits f n) n (f n)

/-- `IEN[v]` (R32). -/
def State.ienBit (s : State) (v : Nat) : Bool := Sparse.get false s.ien v

/-- `IPR[f]` (R33). -/
def State.iprField (s : State) (f : Nat) : BitVec 8 := Sparse.get 0#8 s.ipr f

/-- `IR[v]` (R34). -/
def State.irBit (s : State) (v : Nat) : Bool := Sparse.get false s.ir v

/-- `IEN[v] <- b`. -/
def State.setIen (s : State) (v : Nat) (b : Bool) : State := { s with ien := Sparse.set false s.ien v b }

/-- `IEN[v] <- b` for every `v` of the list (R205). -/
def State.setIens (s : State) (vs : List Nat) (b : Bool) : State :=
  { s with ien := vs.foldl (fun m v => Sparse.set false m v b) s.ien }

/-- `IPR[f] <- p`. -/
def State.setIpr (s : State) (f : Nat) (p : BitVec 8) : State := { s with ipr := Sparse.set 0#8 s.ipr f p }

/-- `IR[v] <- b`. -/
def State.setIr (s : State) (v : Nat) (b : Bool) : State := { s with ir := Sparse.set false s.ir v b }

/-- `GEN[g]`: bits `N(g)..31` read 0 (R39), and no register exists where `g` is no group. -/
def State.genValue (s : State) (g : Nat) : Word := Sparse.get 0#32 s.gen g &&& lowMask (groupSize s.cfg g)

/-- `GRP[g]`: the latches of an edge group, the inputs of a level group; bits `N(g)..31` read 0 (R40). -/
def State.grpValue (s : State) (g : Nat) : Word :=
  match groupOf s.cfg g with
  | none => 0#32
  | some r =>
    match r.trig with
    | .edge => Sparse.get 0#32 s.grp g &&& lowMask r.n
    | .level => Sparse.get 0#32 s.src g &&& lowMask r.n

/-- `GEN[g]{i} <- b`. -/
def State.setGenBit (s : State) (g i : Nat) (b : Bool) : State :=
  { s with gen := Sparse.set 0#32 s.gen g (setBit (Sparse.get 0#32 s.gen g) i b) }

/-- `GRP[g]{i} <- b`, a latch of an edge group. -/
def State.setGrpBit (s : State) (g i : Nat) (b : Bool) : State :=
  { s with grp := Sparse.set 0#32 s.grp g (setBit (Sparse.get 0#32 s.grp g) i b) }

/-- `SRC[g][i] <- b`, by a source event only (R41). -/
def State.setSrcBit (s : State) (g i : Nat) (b : Bool) : State :=
  { s with src := Sparse.set 0#32 s.src g (setBit (Sparse.get 0#32 s.src g) i b) }

/-- `DACT[g]` (R46). -/
def State.dactOf (s : State) (g : Nat) : DemuxStatus := Sparse.get .idle s.dact g

/-- `DACT[g] <- d`. -/
def State.setDact (s : State) (g : Nat) (d : DemuxStatus) : State := { s with dact := Sparse.set .idle s.dact g d }

/-- `MASK(T){i}` (R38). -/
def State.maskBit (s : State) (T : Table) (i : Nat) : Bool :=
  decide (i < tableSize s.cfg T) && decide (s.slot T i ≠ .null)

/-- `MASK(T)[32w+31 : 32w]` (R38, R180). -/
def State.maskWord (s : State) (T : Table) (w : Nat) : Word := packBits (fun j => s.maskBit T (32 * w + j)) 32

/-- `GREQ(g) = ((GRP[g] & GEN[g]) != 0)` (R40, R283). -/
def State.greq (s : State) (g : Nat) : Bool := decide (s.grpValue g &&& s.genValue g ≠ 0#32)

/-- The request of vector `v`: `GREQ(v)` of a group vector, else the latch `IR[v]` (R283, R284). -/
def State.req (s : State) (v : Nat) : Bool := if isGroup s.cfg v then s.greq v else s.irBit v

/-- The priority of vector `v`: `IPR[FIELD(v)]`, or 0 where it has no field (R210, R285). -/
def State.prioOf (s : State) (v : Nat) : BitVec 8 :=
  match fieldOf s.cfg v with
  | some f => s.iprField f
  | none => 0#8

/-- The running context: that of the newest frame, or `M` (R44, R123). -/
def State.ctx (s : State) : Ctx :=
  match s.cs with
  | [] => .main
  | f :: _ => .irq f.vec

/-- `CURLVL`: the level of the newest frame, or 0 (R45). -/
def State.curLvl (s : State) : Nat :=
  match s.cs with
  | [] => 0
  | f :: _ => f.lvl.toNat

/-- `FAULTS` is empty and `REFUSED` is false (R285, R20). -/
def State.clean (s : State) : Bool := s.faults.isEmpty && !s.refused

/-- `eligible(v)` (R285). -/
def State.eligible (s : State) (v : Nat) : Bool :=
  decide (v < s.cfg.nv) && (s.ienBit v && ((fieldOf s.cfg v).isSome && (s.req v &&
    (decide (s.curLvl < (s.prioOf v).toNat) && s.clean))))

/-- The vector a delivery step takes among those below `n`: the highest priority, and the lowest number among equals
(R286). -/
def State.selectBelow (s : State) : Nat → Option Nat
  | 0 => none
  | n + 1 =>
    match s.selectBelow n with
    | none => if s.eligible n then some n else none
    | some b => if s.eligible n && decide (s.prioOf b < s.prioOf n) then some n else some b

/-- The vector a delivery step takes, if any is eligible (R286). -/
def State.selected (s : State) : Option Nat := s.selectBelow s.cfg.nv

/-- Some frame of `CS` has vector `v` (R173). -/
def State.frameOn (s : State) (v : Nat) : Bool := s.cs.any fun f => f.vec = v

/-- `write-during-dispatch(T, i)` (R173). -/
def State.writeBlocked (s : State) (T : Table) (i : Nat) : Bool :=
  match T with
  | .raw => s.frameOn i
  | .group g => decide (s.dactOf g = .active)

end Sys2Proof.Machine
end

