-- ==== Sys2Proof/Machine/Ops.lean ====
section
/-! DEFINITION. The primitives of the pseudocode (00_scope.md R14), queue storage and cursors (10_state.md R42, R43),
activations and the demux start (43_group_demux.md R242), interrupt entry and return (60_exceptions.md R287 to R289) and
source events (R280). -/

namespace Sys2Proof.Machine

/-- A step's outcome. -/
abbrev Result := Host.Outcome State Fault Refusal

/-- Append an event to the history (R48). -/
def State.record (s : State) (e : Event) : State := { s with hist := s.hist ++ [e] }

/-- `respond(v)`: the pending command of the running context completes with `v` (R14). -/
def State.respond (s : State) (i : Instr) (v : Word) : State := s.record (.cmd s.ctx (encode i) v)

/-- `raise F(info)`: the record enters the set `FAULTS` and the history; nothing else is written (R271). -/
def State.raise (s : State) (f : FaultRec) : State :=
  { s with faults := s.faults.insert f, hist := s.hist ++ [.fault f] }

/-- `refuse(reason)`: the mark and the history; nothing else is written (R272). -/
def State.refuse (s : State) (r : RefuseReason) : State :=
  { s with refused := true, hist := s.hist ++ [.refuse r] }

/-- The code of a fault (R270). -/
def faultCode : FaultRec → BitVec 8
  | .illegalCommand _ => 0x01#8
  | .badQueue _ => 0x02#8
  | .ownershipViolation _ _ => 0x03#8
  | .queueOverflow _ => 0x04#8
  | .blockInInterrupt _ _ => 0x05#8
  | .dispatchInMainline _ => 0x06#8
  | .runTaskBadIndex _ _ => 0x07#8
  | .tableWriteDuringDispatch _ _ => 0x08#8
  | .demuxReentered _ => 0x09#8
  | .strayReturn _ => 0x0A#8

/-! Queues (R42, R43, R84). -/

/-- `RD[q]`. -/
def State.rdOf (s : State) (q : Nat) : Nat := Sparse.get 0 s.rd q

/-- `WR[q]`. -/
def State.wrOf (s : State) (q : Nat) : Nat := Sparse.get 0 s.wr q

/-- `LEN(q) = (WR[q] - RD[q]) mod (2*C(q))` (R43). -/
def State.len (s : State) (q : QueueRow) : Nat :=
  (((s.wrOf q.id : Int) - (s.rdOf q.id : Int)) % (2 * (q.cap : Int))).toNat

/-- The byte written at index `i` of queue `q`'s storage, if one was. -/
def State.bufByte? (s : State) (q i : Nat) : Option Byte := Sparse.lookup (Sparse.get [] s.buf q) i

/-- `BufRead(q, i)`: a byte never written is a free value (log 5). -/
def State.bufRead (s : State) (q i : Nat) : Byte := (s.bufByte? q i).getD (Config.unwrittenByte q i)

/-- `BufWrite(q, i, b)`. -/
def State.bufWrite (s : State) (q i : Nat) (b : Byte) : State :=
  { s with buf := Sparse.insert s.buf q (Sparse.insert (Sparse.get [] s.buf q) i b) }

/-- The writes of a QPUT (R141). -/
def State.queuePut (s : State) (q : QueueRow) (b : Byte) : State :=
  let s := s.bufWrite q.id (s.wrOf q.id % q.cap) b
  { s with wr := Sparse.set 0 s.wr q.id ((s.wrOf q.id + 1) % (2 * q.cap)) }

/-- The byte a QGET reads (R145). -/
def State.queueFront (s : State) (q : QueueRow) : Byte := s.bufRead q.id (s.rdOf q.id % q.cap)

/-- The write of a QGET (R145). -/
def State.queueAdvance (s : State) (q : QueueRow) : State :=
  { s with rd := Sparse.set 0 s.rd q.id ((s.rdOf q.id + 1) % (2 * q.cap)) }

/-- `hold`: the mainline's QGET on `q` is pending and nothing else is written (R14, R146). -/
def State.holdOn (s : State) (q : Nat) : State := { s with hold := some q }

/-- A QGET of the mainline that completes is no longer pending (R146). -/
def State.release (s : State) : State :=
  { s with hold := if s.ctx = .main then none else s.hold }

/-! Activations (R44). -/

/-- The running context's activations, newest first. -/
def State.acts (s : State) : List Act :=
  match s.cs with
  | [] => s.mact
  | f :: _ => f.acts

/-- Frames with the newest one's activations replaced. -/
def withTopActs (as : List Act) : List Frame → List Frame
  | [] => []
  | f :: fs => { f with acts := as } :: fs

/-- The running context's activations become `as`. -/
def State.setActs (s : State) (as : List Act) : State :=
  { s with cs := withTopActs as s.cs, mact := if s.cs = [] then as else s.mact }

/-- The running body now waits on its command, if a body is what runs (R174, R240). -/
def withTopWait (w : Wait) : List Act → List Act
  | .body h rest _ :: as => .body h rest w :: as
  | as => as

/-- The running body now waits on its command. -/
def State.setWait (s : State) (w : Wait) : State := s.setActs (withTopWait w s.acts)

/-- `invoke(h)`: push `Body(h)` on the running context and record it (R14). -/
def State.invoke (s : State) (h : Nat) : State :=
  (s.setActs (.body h (bodyOf s.cfg h) .nothing :: s.acts)).record (.invoke s.ctx h)

/-- The snapshot of a demux start: `GRP[g] & MASK(GT[g])` (R242). -/
def State.snapshot (s : State) (g : Nat) : Word := s.grpValue g &&& s.maskWord (.group g) 0

/-- The writes of a demux start in the running context, whose running body, if any, waits as `w` says (R242). -/
def State.demuxPush (s : State) (w : Wait) (g : Nat) : State :=
  ((s.setWait w).setActs (.demux g (s.snapshot g) 0 .scan :: (s.setWait w).acts)).setDact g .active

/-- `DemuxStart(g, ctx)` (R242). -/
def State.demuxStart (s : State) (w : Wait) (g : Nat) : State :=
  if s.dactOf g = .active then s.raise (.demuxReentered g) else s.demuxPush w g

/-! Interrupt entry and return. -/

/-- Interrupt return: the newest frame is popped and the return recorded (R289). -/
def State.interruptReturn (s : State) : State :=
  match s.cs with
  | [] => s
  | f :: fs => { s with cs := fs, hist := s.hist ++ [.intReturn f.vec] }

/-- After an activation has ended: a body that waited on it gets its response (RUNTASK 0, GDEMUX 1), a demux goes on by
itself, and a frame with no activation left returns (R174, R184, R240, R248, R289). -/
def State.resume (s : State) : State :=
  match s.acts with
  | [] => s.interruptReturn
  | .body h rest (.runtask t i) :: as => (s.setActs (.body h rest .nothing :: as)).respond (.runtask t i) 0#32
  | .body h rest (.gdemux g) :: as => (s.setActs (.body h rest .nothing :: as)).respond (.gdemux g) 1#32
  | .body _ _ .nothing :: _ => s
  | .demux _ _ _ _ :: _ => s

/-- A frame's work, chosen by the slot at acceptance (R288). -/
def State.startWork (s : State) : Slot → State
  | .null => s.interruptReturn
  | .handler h => s.invoke h
  | .demux g => s.demuxStart .nothing g

/-- The consumption of `v`'s request at acceptance: a latch is cleared, a group's level request is not (R287). -/
def State.consumeRequest (s : State) (v : Nat) : State := if isGroup s.cfg v then s else s.setIr v false

/-- The new frame of `v`, at the level captured now, and its event (R287). -/
def State.pushFrame (s : State) (v : Nat) : State :=
  { s with cs := ⟨v, s.prioOf v, []⟩ :: s.cs, hist := s.hist ++ [.deliver v (s.prioOf v)] }

/-- Acceptance of `v`, the interrupt entry, one atomic step (R287, R288; log 6). -/
def State.deliver (s : State) (v : Nat) : State :=
  ((s.consumeRequest v).pushFrame v).startWork (s.rawSlot v)

/-! Source events (R280). -/

/-- The effect of a source event: on a group of its own trigger kind and a source below `N(g)`, or on a non-group vector;
anything else has no effect (R280). -/
def State.srcEffect (s : State) : SrcEvent → State
  | .edge g i =>
    match groupOf s.cfg g with
    | some r => if r.trig = .edge ∧ i < r.n then s.setGrpBit g i true else s
    | none => s
  | .level g i b =>
    match groupOf s.cfg g with
    | some r => if r.trig = .level ∧ i < r.n then s.setSrcBit g i b else s
    | none => s
  | .vreq v => if v < s.cfg.nv ∧ isGroup s.cfg v = false then s.setIr v true else s

/-- A source event: its effect, and its record (R280; log 7). -/
def State.sourceStep (s : State) (e : SrcEvent) : State := (s.srcEffect e).record (.src e)

end Sys2Proof.Machine
end

