-- ==== Sys2Proof/Machine/Groups.lean ====
section
/-! DEFINITION. The group commands INSTGT, GDEMUX, RDGRP, CLRGRP and RDGEN, and the demux engine's micro-steps
(43_group_demux.md). -/

namespace Sys2Proof.Machine

/-- The writes of an INSTGT (R230). -/
def State.installTask (s : State) (g i : Nat) (x : Slot) : State :=
  ((s.setGt g i x).setRaw g (.demux g)).setGenBit g i (decide (x ≠ .null))

/-- INSTGT (R230, R232). -/
def execInstgt (g i : Nat) (val : Word) (s : State) : Result :=
  if isGroup s.cfg g = false then .next (s.respond (.instgt g i val) 0#32)
  else if groupSize s.cfg g ≤ i then .next (s.respond (.instgt g i val) 0#32)
  else
    match decodeHandle s.cfg val with
    | none => .next (s.respond (.instgt g i val) 0#32)
    | some x =>
      if slotLegal (.group g) x = false then .next (s.respond (.instgt g i val) 0#32)
      else if s.dactOf g = .active then .next (s.raise (.tableWriteDuringDispatch g i))
      else if s.frameOn g then .next (s.raise (.tableWriteDuringDispatch rawSel g))
      else .next ((s.installTask g i x).respond (.instgt g i val) 1#32)

/-- GDEMUX (R240). Its response follows when the engine has finished (`State.resume`). -/
def execGdemux (g : Nat) (s : State) : Result :=
  if s.ctx = .main then .next (s.raise (.dispatchInMainline (encode (.gdemux g))))
  else if isGroup s.cfg g = false then .next (s.respond (.gdemux g) 0#32)
  else .next (s.demuxStart (.gdemux g) g)

/-- RDGRP (R250). -/
def execRdgrp (g : Nat) (s : State) : Result :=
  if isGroup s.cfg g = false then .next (s.respond (.rdgrp g) 0#32)
  else .next (s.respond (.rdgrp g) (s.grpValue g))

/-- CLRGRP (R252). -/
def execClrgrp (g i : Nat) (s : State) : Result :=
  match groupOf s.cfg g with
  | none => .next (s.respond (.clrgrp g i) 0#32)
  | some r =>
    if r.n ≤ i then .next (s.respond (.clrgrp g i) 0#32)
    else if r.trig = .level then .next (s.respond (.clrgrp g i) 0#32)
    else .next ((s.setGrpBit g i false).respond (.clrgrp g i) 1#32)

/-- RDGEN (R254). -/
def execRdgen (g : Nat) (s : State) : Result :=
  if isGroup s.cfg g = false then .next (s.respond (.rdgen g) 0#32)
  else .next (s.respond (.rdgen g) (s.genValue g))

/-! The engine (R241 to R248), acting for the running `DemuxAct(g, snap, pos, phase)` above the activations `as`. -/

/-- The least `j` with `pos <= j < n` and `snap{j} = 1` (R244, R245). -/
def nextSource (snap : Word) (pos n : Nat) : Option Nat :=
  (List.range n).find? fun j => decide (pos ≤ j) && snap.getLsbD j

/-- Finish step (R248). -/
def State.demuxFinish (s : State) (g : Nat) (as : List Act) : State :=
  ((s.setActs as).setDact g .idle).resume

/-- Scan step (R244). -/
def State.demuxScan (s : State) (g : Nat) (snap : Word) (pos : Nat) (as : List Act) : State :=
  match nextSource snap pos (groupSize s.cfg g) with
  | none => s.demuxFinish g as
  | some i =>
    match s.gtSlot g i with
    | .handler h => (s.setActs (.demux g snap pos (.called i) :: as)).invoke h
    | .null => s.setActs (.demux g snap pos (.called i) :: as)
    | .demux _ => s.setActs (.demux g snap pos (.called i) :: as)

/-- The clear of an edge flag after its call; a level flag follows its source (R247). -/
def State.clearServiced (s : State) (g i : Nat) : State :=
  match groupOf s.cfg g with
  | some r => if r.trig = .edge then s.setGrpBit g i false else s
  | none => s

/-- After-call step (R247). -/
def State.demuxAfter (s : State) (g : Nat) (snap : Word) (i : Nat) (as : List Act) : State :=
  (s.clearServiced g i).setActs (.demux g snap (i + 1) .scan :: as)

/-- The engine's next micro-step (R241). -/
def State.demuxStep (s : State) (g : Nat) (snap : Word) (pos : Nat) (phase : Phase) (as : List Act) : State :=
  match phase with
  | .scan => s.demuxScan g snap pos as
  | .called i => s.demuxAfter g snap i as

end Sys2Proof.Machine
end

