-- ==== Sys2Proof/Machine/Levels.lean ====
section
/-! DEFINITION. The vector level commands SETLVLV, SETLVLP, RDLVL and SETDMAC (42_icu_level.md). -/

namespace Sys2Proof.Machine

/-- SETLVLV (R200, R201, R203). -/
def execSetlvlv (v p : Nat) (s : State) : Result :=
  match lvecField s.cfg v with
  | none => .next (s.respond (.setlvlv v p) 0#32)
  | some f =>
    if s.cfg.prioMax < p then .next (s.respond (.setlvlv v p) 0#32)
    else
      let s₂ := (s.setIen v false).setIpr f (BitVec.ofNat 8 p)
      .next ((if 0 < p then s₂.setIen v true else s₂).respond (.setlvlv v p) 1#32)

/-- SETLVLP (R205, R201, R203). -/
def execSetlvlp (pid p : Nat) (s : State) : Result :=
  match periphOf s.cfg pid with
  | none => .next (s.respond (.setlvlp pid p) 0#32)
  | some r =>
    if s.cfg.prioMax < p then .next (s.respond (.setlvlp pid p) 0#32)
    else
      let s₂ := (s.setIens r.env false).setIpr r.field (BitVec.ofNat 8 p)
      .next ((if 0 < p then s₂.setIens r.env true else s₂).respond (.setlvlp pid p) 1#32)

/-- The word RDLVL responds for a valid vector: `{1:1, 0:15, pr:8, 0:6, req:1, IEN[v]:1}` (R210). -/
def State.levelWord (s : State) (v : Nat) : Word :=
  1#1 ++ 0#15 ++ s.prioOf v ++ 0#6 ++ BitVec.ofBool (s.req v) ++ BitVec.ofBool (s.ienBit v)

/-- RDLVL (R210). -/
def execRdlvl (v : Nat) (s : State) : Result :=
  if s.cfg.nv ≤ v then .next (s.respond (.rdlvl v) 0#32)
  else .next (s.respond (.rdlvl v) (s.levelWord v))

/-- SETDMAC (R214): the block refuses it, whatever its operands, by the refusal R272 describes. -/
def execSetdmac (_ch _v : Nat) (s : State) : Result := .next (s.refuse .unmodelledSetdmac)

end Sys2Proof.Machine
end

