-- ==== Sys2Proof/Machine/Queue.lean ====
section
/-! DEFINITION. The ring queue commands QPUT, QGET, QLEN and QCAP (40_ring_queue.md R140 to R152). -/

namespace Sys2Proof.Machine

/-- QPUT (R141; precedence R274). -/
def execQput (q : Nat) (b : Byte) (s : State) : Result :=
  match queueOf s.cfg q with
  | none => .next (s.raise (.badQueue q))
  | some c =>
    if s.ctx ≠ c.prod then .next (s.raise (.ownershipViolation q s.ctx))
    else if s.len c = c.cap then .next (s.raise (.queueOverflow q))
    else .next ((s.queuePut c b).respond (.qput q b) 0#32)

/-- QGET (R145 to R147). -/
def execQget (q : Nat) (s : State) : Result :=
  match queueOf s.cfg q with
  | none => .next (s.raise (.badQueue q))
  | some c =>
    if s.ctx ≠ c.cons then .next (s.raise (.ownershipViolation q s.ctx))
    else if s.len c = 0 then
      if s.ctx = .main then .next (s.holdOn q)
      else .next (s.raise (.blockInInterrupt q s.ctx))
    else .next ((s.queueAdvance c).release.respond (.qget q) ((s.queueFront c).zeroExtend 32))

/-- QLEN (R150). -/
def execQlen (q : Nat) (s : State) : Result :=
  match queueOf s.cfg q with
  | none => .next (s.raise (.badQueue q))
  | some c => .next (s.respond (.qlen q) (BitVec.ofNat 32 (s.len c)))

/-- QCAP (R152). -/
def execQcap (q : Nat) (s : State) : Result :=
  match queueOf s.cfg q with
  | none => .next (s.raise (.badQueue q))
  | some c => .next (s.respond (.qcap q) (BitVec.ofNat 32 c.cap))

end Sys2Proof.Machine
end

