-- ==== Sys2Proof/Machine/Tables.lean ====
section
/-! DEFINITION. The dispatch table commands SETTASK, RUNTASK, GETMASK, TSIZE and TRET (41_dispatch_table.md). -/

namespace Sys2Proof.Machine

/-- SETTASK (R172, R173). -/
def execSettask (t i : Nat) (val : Word) (s : State) : Result :=
  match tableOf s.cfg t with
  | none => .next (s.respond (.settask t i val) 0#32)
  | some T =>
    if tableSize s.cfg T ≤ i then .next (s.respond (.settask t i val) 0#32)
    else
      match decodeHandle s.cfg val with
      | none => .next (s.respond (.settask t i val) 0#32)
      | some x =>
        if slotLegal T x = false then .next (s.respond (.settask t i val) 0#32)
        else if s.writeBlocked T i then .next (s.raise (.tableWriteDuringDispatch t i))
        else .next ((s.setSlot T i x).respond (.settask t i val) 1#32)

/-- RUNTASK (R174 to R176). Its response follows when the slot has finished (`State.resume`). -/
def execRuntask (t i : Nat) (s : State) : Result :=
  if s.ctx = .main then .next (s.raise (.dispatchInMainline (encode (.runtask t i))))
  else
    match tableOf s.cfg t with
    | none => .next (s.raise (.runTaskBadIndex t i))
    | some T =>
      if tableSize s.cfg T ≤ i then .next (s.raise (.runTaskBadIndex t i))
      else
        match s.slot T i with
        | .null => .next (s.respond (.runtask t i) 0#32)
        | .handler h => .next ((s.setWait (.runtask t i)).invoke h)
        | .demux g => .next (s.demuxStart (.runtask t i) g)

/-- GETMASK (R180). -/
def execGetmask (t w : Nat) (s : State) : Result :=
  match tableOf s.cfg t with
  | none => .next (s.respond (.getmask t w) 0#32)
  | some T => .next (s.respond (.getmask t w) (s.maskWord T w))

/-- TSIZE (R182). -/
def execTsize (t : Nat) (s : State) : Result :=
  match tableOf s.cfg t with
  | none => .next (s.respond (.tsize t) 0#32)
  | some T => .next (s.respond (.tsize t) (BitVec.ofNat 32 (tableSize s.cfg T)))

/-- TRET (R184, R185). It has no response. -/
def execTret (s : State) : Result :=
  match s.acts with
  | .body h _ _ :: as => .next ((s.setActs as).record (.ret s.ctx h)).resume
  | _ => .next (s.raise (.strayReturn s.ctx))

end Sys2Proof.Machine
end

