-- ==== Sys2Proof/Machine/Dispatch.lean ====
section
/-! DEFINITION. One arm per command (30_encoding.md R113, R114). -/

namespace Sys2Proof.Machine

/-- The command `i`, issued by the running context of `s`. -/
def exec (i : Instr) (s : State) : Host.Outcome State Fault Refusal :=
  match i with
  | .qput q b => Sys2Proof.Machine.execQput q b s
  | .qget q => Sys2Proof.Machine.execQget q s
  | .qlen q => Sys2Proof.Machine.execQlen q s
  | .qcap q => Sys2Proof.Machine.execQcap q s
  | .settask t i' val => Sys2Proof.Machine.execSettask t i' val s
  | .runtask t i' => Sys2Proof.Machine.execRuntask t i' s
  | .getmask t w => Sys2Proof.Machine.execGetmask t w s
  | .tsize t => Sys2Proof.Machine.execTsize t s
  | .tret => Sys2Proof.Machine.execTret s
  | .setlvlv v p => Sys2Proof.Machine.execSetlvlv v p s
  | .setlvlp pid p => Sys2Proof.Machine.execSetlvlp pid p s
  | .rdlvl v => Sys2Proof.Machine.execRdlvl v s
  | .setdmac ch v => Sys2Proof.Machine.execSetdmac ch v s
  | .instgt g i' val => Sys2Proof.Machine.execInstgt g i' val s
  | .gdemux g => Sys2Proof.Machine.execGdemux g s
  | .rdgrp g => Sys2Proof.Machine.execRdgrp g s
  | .clrgrp g i' => Sys2Proof.Machine.execClrgrp g i' s
  | .rdgen g => Sys2Proof.Machine.execRdgen g s

end Sys2Proof.Machine
end

