-- ==== Sys2Proof/Machine/Agents.lean ====
section
/-! DEFINITION. Who steps: the running activation, a delivery, a source (20_memory.md R89; 60_exceptions.md R280, R291,
R292; 41_dispatch_table.md R186), and when the block has stopped (R271, R272). -/

namespace Sys2Proof.Machine

/-- The running context issues the word `w`: it decodes to one command or raises `IllegalCommand(w)` (R113). -/
def issueWord (w : CmdWord) (s : State) : Result :=
  match decode w with
  | .ok i => exec i s
  | .error _ => .next (s.raise (.illegalCommand w))

/-- The queue whose QGET the running context holds on: only the mainline holds, and it runs when no frame stands
(R146, R273). -/
def State.heldOn (s : State) : Option Nat :=
  match s.cs with
  | [] => s.hold
  | _ :: _ => none

/-- The running activation is a host program that may issue a command: the mainline, not holding, or a body that does not
wait on a command of its own (R89, R146, R186). -/
def State.hostReady (s : State) : Bool :=
  match s.heldOn with
  | some _ => false
  | none =>
    match s.acts with
    | [] => s.cs.isEmpty
    | .body _ _ w :: _ => decide (w = .nothing)
    | .demux _ _ _ _ :: _ => false

/-- The held QGET's queue is not empty any more (R146). -/
def State.holdLifted (s : State) (q : Nat) : Bool :=
  match queueOf s.cfg q with
  | some c => decide (0 < s.len c)
  | none => true

/-- The next word of the running host program, and the state once it is taken from it (R31, R186). -/
def State.nextWord (s : State) : Option (CmdWord × State) :=
  match s.acts with
  | .body h (w :: rest) wait :: as => some (w, s.setActs (.body h rest wait :: as))
  | .body _ [] _ :: _ => none
  | .demux _ _ _ _ :: _ => none
  | [] =>
    match s.main with
    | w :: ws => some (w, { s with main := ws })
    | [] => none

/-- The next step of the running activation, if it has one: a held QGET proceeds once its queue is not empty, the engine
takes a micro-step, a host program issues its next word (R89, R146, R241). -/
def State.runningStep (s : State) : Option Result :=
  match s.heldOn with
  | some q => if s.holdLifted q then some (exec (.qget q) s) else none
  | none =>
    match s.acts with
    | .demux g snap pos phase :: as => some (.next (s.demuxStep g snap pos phase as))
    | _ =>
      if s.hostReady then
        match s.nextWord with
        | some (w, s') => some (issueWord w s')
        | none => none
      else none

/-- Why no agent has a step (R20, R146, R186). -/
def State.idleReason (s : State) : Fault :=
  match s.heldOn with
  | some q => .heldForEver q
  | none =>
    match s.acts with
    | .body h _ _ :: _ => .bodyNeverReturns h
    | _ =>
      match s.cs with
      | [] => .runEnded
      | f :: _ => .frameWithoutWork f.vec

/-- The step that one schedule entry names, if the rules admit it in this state (R89). -/
def State.entryStep (s : State) : Input → Option Result
  | .run => s.runningStep
  | .issue w => if s.hostReady then some (issueWord w s) else none
  | .deliver =>
    match s.selected with
    | some v => some (.next (s.deliver v))
    | none => none
  | .source e => some (.next (s.sourceStep e))

/-- Whose turn it is after a delivery of `v`: the interrupted activation's if the delivery is spurious, since it then stands
where it stood (R288, 70_reset_and_hazards.md R336), else delivery's. -/
def State.turnAfter (s : State) (v : Nat) : Turn := if s.rawSlot v = .null then .activation else .delivery

/-- Who takes the next step where the schedule is empty, if anyone has one, and whose turn it is then. A delivery goes first,
so a group that is requested again when it returns is delivered again before any lower program runs
(70_reset_and_hazards.md R335, R342); only after a spurious delivery does the running activation go first (R292, log 2). -/
def State.ownMove (s : State) : Option (Input × Turn) :=
  match s.selected, s.runningStep with
  | none, none => none
  | none, some _ => some (.run, .delivery)
  | some v, none => some (.deliver, s.turnAfter v)
  | some v, some _ =>
    match s.turn with
    | .delivery => some (.deliver, s.turnAfter v)
    | .activation => some (.run, .delivery)

/-- The step where the schedule is empty. -/
def State.autonomousStep (s : State) : Result :=
  match s.ownMove with
  | some (e, d) => ({ s with turn := d }.entryStep e).getD (.fault s.idleReason)
  | none => .fault s.idleReason

/-- The step that the schedule names. An entry that names a step the rules do not admit in this state is passed over
(log 2). -/
def scheduledStep : List Input → State → Result
  | [], s => { s with inputs := [] }.autonomousStep
  | e :: rest, s =>
    match { s with inputs := rest }.entryStep e with
    | some r => r
    | none => scheduledStep rest s

/-- One step of the machine: refused for an ill-formed configuration (R9), none once the block has stopped (R271, R272),
else the step the schedule names. -/
def advance (s : State) : Result :=
  if cfgOk s.cfg = false then .refused .illFormedConfig
  else
    match s.faults with
    | f :: _ => .fault (.stopped f)
    | [] => if s.refused then .refused .stoppedByRefusal else scheduledStep s.inputs s

/-- `s` with the word `w` as what its running host program issues next (log 8). -/
def State.placeWord (s : State) (w : CmdWord) : State := { s with inputs := .issue w :: s.inputs }

end Sys2Proof.Machine
end

