-- ==== Sys2Proof/Machine/Step.lean ====
section
/-! DEFINITION. The step of the machine, and how a word is placed for the next step to issue. -/

namespace Sys2Proof.Machine

/-- One step (20_memory.md R89). -/
def step : State → Host.Outcome State Fault Refusal := Sys2Proof.Machine.advance

/-- `s` with the instruction whose bits the opcode table numbers as `w` (its low `nbits` bits) placed where the next step
issues it: at the head of the schedule, as the running host program's next word (log 8). -/
def State.withFetchWord (s : State) (nbits w : Nat) : State := s.placeWord (BitVec.ofNat 64 (w % 2 ^ nbits))

end Sys2Proof.Machine
end

