-- ==== Sys2Proof/Safety.lean ====
section
/-! DEFINITION. The terms in which claims speak: what a step that raises, responds or holds leaves, an ended run, illegal
words by fields, and the invariants of the block. -/

namespace Sys2Proof.Machine

/-- `t` is `s` after `raise f` (R271): the record is in `FAULTS` and in the history, and nothing else is written. -/
def State.Raised (s t : State) (f : FaultRec) : Prop :=
  (∀ f', f' ∈ t.faults ↔ f' = f ∨ f' ∈ s.faults) ∧
    t = { s with faults := t.faults, hist := s.hist ++ [.fault f] }

/-- `t` is `s` after a command that only responds `v` (R14): no state is written but the history. -/
def State.Responded (s t : State) (i : Instr) (v : Word) : Prop :=
  t = { s with hist := s.hist ++ [.cmd s.ctx (encode i) v] }

/-- A write of `T[i]` falls into a dispatch in progress (R173). -/
def State.DispatchInProgress (s : State) : Table → Nat → Prop
  | .raw, i => ∃ f ∈ s.cs, f.vec = i
  | .group g, _ => s.dactOf g = .active

/-- SETTASK's operands name no table, no slot of it, or no slot value that may stand in it (R171, R172). -/
def settaskFails (c : Cfg) (t i : Nat) (val : Word) : Prop :=
  ∀ T x, tableOf c t = some T → decodeHandle c val = some x → slotLegal T x = true → tableSize c T ≤ i

/-- INSTGT's operands name no group, no source of it, or no slot value for a group table (R230, R232). -/
def instgtFails (c : Cfg) (g i : Nat) (val : Word) : Prop :=
  isGroup c g = false ∨ groupSize c g ≤ i ∨ decodeHandle c val = none ∨ ∃ x, decodeHandle c val = some (.demux x)

/-- The schedule entry is a host program's command. -/
def Input.isIssue : Input → Bool
  | .issue _ => true
  | .run => false
  | .deliver => false
  | .source _ => false

/-- The mainline's own program is what runs, and none of its commands waits for its response: no frame stands, `MACT` is
empty and the mainline does not hold (R44, R146). -/
def State.mainlineFree (s : State) : Bool := s.cs.isEmpty && s.mact.isEmpty && s.hold.isNone

/-- Along the schedule, from this state, some entry is a command of the mainline: one that comes when the mainline's program
is what runs. An entry that comes while a frame stands is a body's command or is passed over. -/
def mainlineIssues : List Input → State → Bool
  | [], _ => false
  | e :: rest, s =>
    (e.isIssue && s.mainlineFree) ||
      match s.entryStep e with
      | some (.next t) => t.clean && mainlineIssues rest t
      | some (.fault _) => false
      | some (.refused _) => false
      | none => mainlineIssues rest s

/-- The run has ended (00_scope.md R20): the mainline has issued its last command, neither its program nor the schedule
holding another, and that command has responded, `CS` is empty, nothing is eligible, and no fault or refusal is
recorded. -/
def State.ended (s : State) : Bool :=
  s.main.isEmpty && !mainlineIssues s.inputs s && s.mainlineFree && s.selected.isNone && s.clean

/-! Infinite runs and their fairness (R292). -/

/-- The step that the entry names is one of the running activation, not of delivery or a source. -/
def Input.byActivation : Input → Bool
  | .run => true
  | .issue _ => true
  | .deliver => false
  | .source _ => false

/-- A run without end (R89, R291): `c n` is who takes step `n`, from state `r n` to `r (n + 1)`. What the model's own schedule
and turn hold is free, so every interleaving that the rules admit is a run. -/
def IsRun (c : Nat → Input) (r : Nat → State) : Prop :=
  ∀ n, cfgOk (r n).cfg = true ∧ (r n).clean = true ∧
    ∃ is d, { r n with inputs := is, turn := d }.entryStep (c n) = some (.next (r (n + 1)))

/-- Weak fairness of delivery (R292): a vector that stays eligible is eventually delivered. -/
def FairDelivery (c : Nat → Input) (r : Nat → State) : Prop :=
  ∀ v n, (∀ m, n ≤ m → (r m).eligible v = true) → ∃ m, n ≤ m ∧ c m = .deliver ∧ (r m).selected = some v

/-- Where the running activation stands: how many frames, and how many activations in the running context. While it takes no
step, it stays the running activation exactly as long as this stays as it is. -/
def State.place (s : State) : Nat × Nat := (s.cs.length, s.acts.length)

/-- Weak fairness of the running activation (R292): an activation that keeps running and has an enabled step eventually
takes one. -/
def FairActivation (c : Nat → Input) (r : Nat → State) : Prop :=
  ∀ n, (∀ m, n ≤ m → (r m).runningStep.isSome = true ∧ (r m).place = (r n).place) →
    ∃ m, n ≤ m ∧ (c m).byActivation = true

/-- A fair run: a run that meets both assumptions of R292, on which claims of termination rest. -/
def FairRun (c : Nat → Input) (r : Nat → State) : Prop := IsRun c r ∧ FairDelivery c r ∧ FairActivation c r

/-- The opcodes that are illegal, as R121 lists them. -/
def unlistedOp (op : BitVec 6) : Bool :=
  op.toNat = 0x00 || (0x05 ≤ op.toNat && op.toNat ≤ 0x07) || (0x0D ≤ op.toNat && op.toNat ≤ 0x0F) ||
    (0x14 ≤ op.toNat && op.toNat ≤ 0x17) || (0x1D ≤ op.toNat && op.toNat ≤ 0x3F)

/-- A must-be-zero field of the format, `RSV` apart, is not zero in `w` (R112, third column). -/
def unusedNonzero (f : Format) (w : CmdWord) : Bool :=
  match f with
  | .N => unitOf w ≠ 0#10 || idxOf w ≠ 0#8 || valOf w ≠ 0#32
  | .U => idxOf w ≠ 0#8 || valOf w ≠ 0#32
  | .UI => valOf w ≠ 0#32
  | .UIV => false
  | .QB => idxOf w ≠ 0#8 || (valOf w).extractLsb' 8 24 ≠ 0#24

/-- The format of each opcode (R114, third column), `N` where it is not listed. -/
def formatOf (op : BitVec 6) : Format :=
  if op.toNat = 0x01 then .QB
  else if op.toNat = 0x0C then .N
  else if op.toNat = 0x08 ∨ op.toNat = 0x18 then .UIV
  else if op.toNat = 0x09 ∨ op.toNat = 0x0A ∨ op.toNat = 0x10 ∨ op.toNat = 0x11 ∨ op.toNat = 0x13 ∨ op.toNat = 0x1B then
    .UI
  else if op.toNat = 0x02 ∨ op.toNat = 0x03 ∨ op.toNat = 0x04 ∨ op.toNat = 0x0B ∨ op.toNat = 0x12 ∨ op.toNat = 0x19 ∨
      op.toNat = 0x1A ∨ op.toNat = 0x1C then .U
  else .N

/-- The word is illegal (R121). -/
def illegalWord (w : CmdWord) : Bool :=
  unlistedOp (opOf w) || decide (rsvOf w ≠ 0#8) || (!unlistedOp (opOf w) && unusedNonzero (formatOf (opOf w)) w)

/-! Invariants. -/

/-- Every indexed element of the state is in canonical form, queue storage included. -/
def CanonicalInv (s : State) : Prop :=
  Sparse.canonical false s.ien = true ∧ Sparse.canonical 0#8 s.ipr = true ∧ Sparse.canonical false s.ir = true ∧
    Sparse.canonical Slot.null s.raw = true ∧ Sparse.canonical2 (Sparse.canonical Slot.null) s.gt = true ∧
    Sparse.canonical 0#32 s.gen = true ∧ Sparse.canonical 0#32 s.grp = true ∧ Sparse.canonical 0#32 s.src = true ∧
    Memory.wf s.buf = true ∧ Sparse.canonical 0 s.rd = true ∧ Sparse.canonical 0 s.wr = true ∧
    Sparse.canonical DemuxStatus.idle s.dact = true

/-- Cursors lie in `[0, 2C)` and `0 <= LEN(q) <= C(q)` (R42, R43). -/
def QueueInv (s : State) : Prop :=
  ∀ q c, queueOf s.cfg q = some c → s.rdOf q < 2 * c.cap ∧ s.wrOf q < 2 * c.cap ∧ s.len c ≤ c.cap

/-- Every byte between the cursors was written (R84). -/
def WrittenInv (s : State) : Prop :=
  QueueInv s ∧ ∀ q c, queueOf s.cfg q = some c → ∀ k, k < s.len c → (s.bufByte? q ((s.rdOf q + k) % c.cap)).isSome = true

/-- The bytes of a queue, oldest first. -/
def State.contents (s : State) (c : QueueRow) : List Byte :=
  (List.range (s.len c)).map fun k => s.bufRead c.id ((s.rdOf c.id + k) % c.cap)

/-- The byte a completed QPUT on `q` put, if the event is one. -/
def putOf (q : Nat) : Event → Option Byte
  | .cmd _ w _ =>
    match decode w with
    | .ok (.qput q' b) => if q' = q then some b else none
    | _ => none
  | _ => none

/-- The byte a completed QGET on `q` responded, if the event is one. -/
def gotOf (q : Nat) : Event → Option Byte
  | .cmd _ w v =>
    match decode w with
    | .ok (.qget q') => if q' = q then some (v.extractLsb' 0 8) else none
    | _ => none
  | _ => none

/-- The bytes put on `q` since reset are, in order, the bytes got from it and then the bytes still in it (R90, R155). -/
def FifoInv (s : State) : Prop :=
  QueueInv s ∧ ∀ q c, queueOf s.cfg q = some c →
    s.hist.filterMap (putOf q) = s.hist.filterMap (gotOf q) ++ s.contents c

/-- `IPR[f] <= PRIO_MAX` (R33), and frames nest with strictly increasing levels in `1..PRIO_MAX` (R290). -/
def NestingInv (s : State) : Prop :=
  (∀ f, (s.iprField f).toNat ≤ s.cfg.prioMax) ∧
    (s.cs.map fun f => f.lvl.toNat).Pairwise (· > ·) ∧
    ∀ f ∈ s.cs, 1 ≤ f.lvl.toNat ∧ f.lvl.toNat ≤ s.cfg.prioMax

/-- `MACT` is empty (R44). -/
def MainlineInv (s : State) : Prop := s.mact = []

/-- Every activation, of any context. -/
def State.allActs (s : State) : List Act := s.mact ++ s.cs.flatMap Frame.acts

/-- The group of a demux activation. -/
def demuxGroup : Act → Option Nat
  | .demux g _ _ _ => some g
  | .body _ _ _ => none

/-- The groups with a demux activation, one entry for each activation. -/
def State.demuxGroups (s : State) : List Nat := s.allActs.filterMap demuxGroup

/-- `DACT[g]` is `Active` exactly while a demux activation of `g` exists, and then one exists (R46); no group table holds a
`Demux` (R37); every source a snapshot names has a handler installed (R244). -/
def DemuxInv (s : State) : Prop :=
  s.demuxGroups.Nodup ∧ (∀ g, s.dactOf g = .active ↔ g ∈ s.demuxGroups) ∧ (∀ g i x, s.gtSlot g i ≠ .demux x) ∧
    ∀ g snap pos phase, Act.demux g snap pos phase ∈ s.allActs →
      ∀ j, snap.getLsbD j = true → j < groupSize s.cfg g ∧ ∃ h, s.gtSlot g j = .handler h

/-- What stands below an activation is what called it: a body waiting on its RUNTASK, or a demux in phase `Called` below a
body, a body waiting on its RUNTASK or GDEMUX below a demux (R184, R248). -/
def calledFrom : Act → List Act → Prop
  | _, [] => True
  | .body _ _ _, .body h rest w :: as => (∃ t i, w = .runtask t i) ∧ calledFrom (.body h rest w) as
  | .body _ _ _, .demux g snap pos phase :: as => (∃ i, phase = .called i) ∧ calledFrom (.demux g snap pos phase) as
  | .demux _ _ _ _, .body h rest w :: as => w ≠ .nothing ∧ calledFrom (.body h rest w) as
  | .demux _ _ _ _, .demux _ _ _ _ :: _ => False

/-- A frame's activations are a chain of calls whose newest does not wait. -/
def stackShape : List Act → Prop
  | [] => False
  | .body h rest w :: as => w = .nothing ∧ calledFrom (.body h rest w) as
  | .demux g snap pos phase :: as => calledFrom (.demux g snap pos phase) as

/-- While the block runs, every frame has work and its activations are a chain of calls (R44, R184, R289). -/
def StackInv (s : State) : Prop := s.clean = true → MainlineInv s ∧ ∀ f ∈ s.cs, stackShape f.acts

/-- Bits `N(g)..31` of `GEN[g]` and `GRP[g]` are never written (R39, R40). -/
def GroupBitsInv (s : State) : Prop :=
  ∀ g j, (Sparse.get 0#32 s.gen g).getLsbD j = true ∨ (Sparse.get 0#32 s.grp g).getLsbD j = true ∨
    (Sparse.get 0#32 s.src g).getLsbD j = true → j < groupSize s.cfg g

/-- `CS` holds at most `PRIO_MAX` frames (R290). -/
def DepthBound (s : State) : Prop := s.cs.length ≤ s.cfg.prioMax

end Sys2Proof.Machine
end

