-- ==== Sys2Proof/Certificates/Slice0/Obligations.lean ====
section
/-! DEFINITION. The statements for the provers, from the spec's numbered rules. A frame is an equation
`t = { s with ... }`: every field it does not name is unchanged. -/

open Sys2Proof Sys2Proof.Machine

/-! Encoding. -/

/-- R111, R112, R114, R115 to R118: decoding an encoded well-formed command gives it back, every operand included. -/
def Obligations.DecodeOfEncode : Prop :=
  ∀ i : Instr, i.wf = true → decode (encode i) = .ok i

/-- R112, R113: every legal word is the encoding of the one command it decodes to, and that command is well formed. -/
def Obligations.EncodeOfDecode : Prop :=
  ∀ (w : CmdWord) (i : Instr), decode w = .ok i → encode i = w ∧ i.wf = true

/-- R121: a word is rejected exactly when its OP is unlisted, its RSV is not zero or a must-be-zero field is not zero; then
issuing it raises `IllegalCommand(w)` with no other effect. -/
def Obligations.IllegalWordsRaise : Prop :=
  ∀ (w : CmdWord) (s : State),
    (illegalWord w = true ↔ ∃ e, decode w = .error e) ∧
    (illegalWord w = true → ∃ t, issueWord w s = .next t ∧ s.Raised t (.illegalCommand w))

/-- R132: words written out from the encoding decode to the commands they stand for (sanity). -/
def Obligations.ExampleWordsDecode : Prop :=
  decode 0x0403000000000041#64 = .ok (.qput 3 0x41#8) ∧
  decode 0x0803000000000000#64 = .ok (.qget 3) ∧
  decode 0x21006E008000006E#64 = .ok (.settask 0x100 110 0x8000006E#32) ∧
  decode 0x2900010000000000#64 = .ok (.getmask 0x100 1) ∧
  decode 0x3000000000000000#64 = .ok .tret ∧
  decode 0x4407030000000000#64 = .ok (.setlvlp 7 3) ∧
  decode 0x606E030000000020#64 = .ok (.instgt 110 3 0x20#32) ∧
  decode 0x6C6E070000000000#64 = .ok (.clrgrp 110 7)

/-- R118: the handle encoding, by the value of VAL. -/
def Obligations.HandleDecoding : Prop :=
  ∀ (c : Cfg) (val : Word),
    (val.toNat = 0 → decodeHandle c val = some .null) ∧
    (val.toNat ≠ 0 → val.toNat < 2 ^ 31 → decodeHandle c val = some (.handler val.toNat)) ∧
    (∀ g, g < 256 → val.toNat = 2 ^ 31 + g → decodeHandle c val = if isGroup c g then some (.demux g) else none) ∧
    (2 ^ 31 + 256 ≤ val.toNat → decodeHandle c val = none)

/-! The step. -/

/-- R89, R113: a word that the schedule gives the running host program and that decodes to `i` is run by the next step as
`exec i`, on the state without that schedule entry. -/
def Obligations.StepIssuesScheduledWord : Prop :=
  ∀ (s : State) (w : CmdWord) (rest : List Input) (i : Instr), cfgOk s.cfg = true → s.clean = true →
    s.inputs = .issue w :: rest → s.hostReady = true → decode w = .ok i → step s = exec i { s with inputs := rest }

/-- R89, R31, R186: with nothing eligible and no input left, the step runs the next word of the running program, the
mainline's or the running body's, as `exec i` on the state without that word, the turn with delivery (the model's own field, log 2). -/
def Obligations.StepIssuesProgramWord : Prop :=
  ∀ (s : State) (w : CmdWord) (ws : List CmdWord) (i : Instr), cfgOk s.cfg = true → s.clean = true →
    s.inputs = [] → s.selected = none → decode w = .ok i →
    (s.cs = [] → s.mact = [] → s.hold = none → s.main = w :: ws → step s = exec i { s with main := ws, turn := .delivery }) ∧
    (∀ v l h as fs, s.cs = ⟨v, l, .body h (w :: ws) .nothing :: as⟩ :: fs →
      step s = exec i { s with cs := ⟨v, l, .body h ws .nothing :: as⟩ :: fs, turn := .delivery })

/-- R113, R271: the step on a scheduled word that does not decode raises `IllegalCommand(w)` and writes nothing else. -/
def Obligations.StepRaisesOnIllegalWord : Prop :=
  ∀ (s : State) (w : CmdWord) (rest : List Input) (e : Reject), cfgOk s.cfg = true → s.clean = true →
    s.inputs = .issue w :: rest → s.hostReady = true → decode w = .error e →
    ∃ t, step s = .next t ∧ State.Raised { s with inputs := rest } t (.illegalCommand w)

/-- R47: once `FAULTS` is not empty or `REFUSED` is true, no step answers a next state, and neither is ever cleared. -/
def Obligations.StoppedBlockTakesNoStep : Prop :=
  (∀ s t : State, step s = .next t → s.faults = [] ∧ s.refused = false) ∧
  (∀ (s : State) (f : FaultRec) (fs : List FaultRec), cfgOk s.cfg = true → s.faults = f :: fs →
    step s = .fault (.stopped f)) ∧
  (∀ s : State, cfgOk s.cfg = true → s.faults = [] → s.refused = true → step s = .refused .stoppedByRefusal)

/-- R9: a configuration that breaks one of R9's four conditions is refused, whatever the state. -/
def Obligations.IllFormedConfigRefused : Prop :=
  ∀ s : State,
    ¬ ((∀ r ∈ s.cfg.vectors, r.inLvec = true → r.vec < s.cfg.nv) ∧
       (∀ r ∈ s.cfg.periphs, ∀ v ∈ r.env, v < s.cfg.nv ∧ fieldOf s.cfg v = some r.field ∧ groupOf s.cfg v = none) ∧
       (∀ r ∈ s.cfg.groups, r.vec < s.cfg.nv) ∧
       (∀ r ∈ s.cfg.queues, (∀ v, r.prod = .irq v → v < s.cfg.nv) ∧ (∀ v, r.cons = .irq v → v < s.cfg.nv))) →
    step s = .refused .illFormedConfig

/-- R280 to R282, R284: a source event is one step; EDGE sets the flag of an edge group's source below `N(g)`, LEVEL sets
the input of a level group's, VREQ sets a non-group vector's latch, and anything else has no effect but its record (the
record of an event without effect is the model's reading, log 7). -/
def Obligations.SourceEventEffects : Prop :=
  ∀ (s : State) (e : SrcEvent) (rest : List Input), cfgOk s.cfg = true → s.clean = true → s.inputs = .source e :: rest →
    ∃ t, step s = .next t ∧
      t = { s with inputs := rest, grp := t.grp, src := t.src, ir := t.ir, hist := s.hist ++ [.src e] } ∧
      (∀ g r j, groupOf s.cfg g = some r → ((t.grpValue g).getLsbD j = true ↔
        match e with
        | .edge g' i => (g' = g ∧ i = j ∧ r.trig = .edge ∧ i < r.n ∧ j < 32) ∨ (s.grpValue g).getLsbD j = true
        | .level g' i b =>
          if g' = g ∧ i = j ∧ r.trig = .level ∧ i < r.n ∧ j < 32 then b = true else (s.grpValue g).getLsbD j = true
        | .vreq _ => (s.grpValue g).getLsbD j = true)) ∧
      (∀ v, t.irBit v = true ↔
        s.irBit v = true ∨ (e = .vreq v ∧ v < s.cfg.nv ∧ groupOf s.cfg v = none))

/-- R285: eligibility of a vector, whole. -/
def Obligations.EligibilityRule : Prop :=
  ∀ (s : State) (v : Nat), s.eligible v = true ↔
    v < s.cfg.nv ∧ (∃ f, fieldOf s.cfg v = some f ∧ s.curLvl < (s.iprField f).toNat) ∧ s.ienBit v = true ∧
      ((groupOf s.cfg v ≠ none ∧ s.grpValue v &&& s.genValue v ≠ 0#32) ∨ (groupOf s.cfg v = none ∧ s.irBit v = true)) ∧
      s.faults = [] ∧ s.refused = false

/-- R286: a delivery step takes an eligible vector of the highest priority, and the lowest number among equals; it finds
none only when none is eligible. -/
def Obligations.SelectionRule : Prop :=
  ∀ s : State,
    (s.selected = none ↔ ∀ v, s.eligible v = false) ∧
    (∀ v, s.selected = some v ↔
      s.eligible v = true ∧ ∀ u, s.eligible u = true → u ≠ v →
        (s.prioOf u).toNat < (s.prioOf v).toNat ∨ ((s.prioOf u).toNat = (s.prioOf v).toNat ∧ v < u))

/-- R287, R288: acceptance captures the level, consumes a latch (never a group's level request), records the delivery and
starts the work that `RAW[v]` names, all in one step; a `Null` slot returns at once. -/
def Obligations.AcceptanceEntersFrame : Prop :=
  ∀ (s : State) (v : Nat) (rest : List Input), cfgOk s.cfg = true → s.inputs = .deliver :: rest →
    s.selected = some v → (∀ g, s.rawSlot v = .demux g → s.dactOf g = .idle) →
    ∃ t, step s = .next t ∧
      t = { s with inputs := rest, ir := t.ir, cs := t.cs, dact := t.dact, hist := t.hist } ∧
      (∀ u, t.irBit u = if u = v ∧ groupOf s.cfg v = none then false else s.irBit u) ∧
      (∀ g, t.dactOf g = if s.rawSlot v = .demux g then .active else s.dactOf g) ∧
      (s.rawSlot v = .null → t.cs = s.cs ∧ t.hist = s.hist ++ [.deliver v (s.prioOf v), .intReturn v]) ∧
      (∀ h, s.rawSlot v = .handler h →
        t.cs = ⟨v, s.prioOf v, [.body h (bodyOf s.cfg h) .nothing]⟩ :: s.cs ∧
        t.hist = s.hist ++ [.deliver v (s.prioOf v), .invoke (.irq v) h]) ∧
      (∀ g, s.rawSlot v = .demux g →
        t.cs = ⟨v, s.prioOf v, [.demux g (s.snapshot g) 0 .scan]⟩ :: s.cs ∧
        t.hist = s.hist ++ [.deliver v (s.prioOf v)])

/-- R288: acceptance of a vector whose slot is `Demux(g)` while `g`'s demux is active faults with `DemuxReentered(g)`, and
the block stops there. -/
def Obligations.AcceptanceIntoActiveDemuxFaults : Prop :=
  ∀ (s : State) (v g : Nat) (rest : List Input), cfgOk s.cfg = true → s.inputs = .deliver :: rest →
    s.selected = some v → s.rawSlot v = .demux g → s.dactOf g = .active →
    ∃ t, step s = .next t ∧ t.faults = [.demuxReentered g] ∧ step t = .fault (.stopped (.demuxReentered g))

/-- R146: while the mainline holds on an empty queue its program is not ready and no `run` entry of the schedule steps it;
once the queue is not empty, the running activation's step is that QGET. -/
def Obligations.MainlineHold : Prop :=
  ∀ (s : State) (q : Nat) (c : QueueRow) (rest : List Input), cfgOk s.cfg = true → s.clean = true → s.cs = [] →
    s.hold = some q → queueOf s.cfg q = some c → s.inputs = .run :: rest →
    s.hostReady = false ∧
    (s.len c = 0 → step s = step { s with inputs := rest }) ∧
    (0 < s.len c → step s = exec (.qget q) { s with inputs := rest })

/-! Ring queue. -/

/-- R141: QPUT, every branch, and its frame. -/
def Obligations.QputRule : Prop :=
  ∀ (q : Nat) (b : Byte) (s : State),
    (queueOf s.cfg q = none → ∃ t, exec (.qput q b) s = .next t ∧ s.Raised t (.badQueue q)) ∧
    ∀ c, queueOf s.cfg q = some c →
      (s.ctx ≠ c.prod → ∃ t, exec (.qput q b) s = .next t ∧ s.Raised t (.ownershipViolation q s.ctx)) ∧
      (s.ctx = c.prod → s.len c = c.cap → ∃ t, exec (.qput q b) s = .next t ∧ s.Raised t (.queueOverflow q)) ∧
      (s.ctx = c.prod → s.len c ≠ c.cap →
        ∃ t, exec (.qput q b) s = .next t ∧
          t = { s with buf := t.buf, wr := t.wr, hist := s.hist ++ [.cmd s.ctx (encode (.qput q b)) 0#32] } ∧
          t.bufByte? q (s.wrOf q % c.cap) = some b ∧
          t.wrOf q = (s.wrOf q + 1) % (2 * c.cap) ∧
          (∀ q' i, ¬ (q' = q ∧ i = s.wrOf q % c.cap) → t.bufByte? q' i = s.bufByte? q' i) ∧
          ∀ q', q' ≠ q → t.wrOf q' = s.wrOf q')

/-- R145: QGET, every branch, and its frame. The response is the byte at the read cursor, zero-extended; of a byte that was
never written it states only that it is zero-extended (log 5). -/
def Obligations.QgetRule : Prop :=
  ∀ (q : Nat) (s : State),
    (queueOf s.cfg q = none → ∃ t, exec (.qget q) s = .next t ∧ s.Raised t (.badQueue q)) ∧
    ∀ c, queueOf s.cfg q = some c →
      (s.ctx ≠ c.cons → ∃ t, exec (.qget q) s = .next t ∧ s.Raised t (.ownershipViolation q s.ctx)) ∧
      (s.ctx = c.cons → s.len c = 0 → s.ctx = .main → exec (.qget q) s = .next { s with hold := some q }) ∧
      (s.ctx = c.cons → s.len c = 0 → s.ctx ≠ .main →
        ∃ t, exec (.qget q) s = .next t ∧ s.Raised t (.blockInInterrupt q s.ctx)) ∧
      (s.ctx = c.cons → s.len c ≠ 0 →
        ∃ (t : State) (b : Byte), exec (.qget q) s = .next t ∧
          t = { s with rd := t.rd, hold := if s.ctx = .main then none else s.hold,
                       hist := s.hist ++ [.cmd s.ctx (encode (.qget q)) (b.zeroExtend 32)] } ∧
          (∀ b', s.bufByte? q (s.rdOf q % c.cap) = some b' → b = b') ∧
          t.rdOf q = (s.rdOf q + 1) % (2 * c.cap) ∧
          ∀ q', q' ≠ q → t.rdOf q' = s.rdOf q')

/-- R150: QLEN, every branch; it has no side effect. -/
def Obligations.QlenRule : Prop :=
  ∀ (q : Nat) (s : State),
    (queueOf s.cfg q = none → ∃ t, exec (.qlen q) s = .next t ∧ s.Raised t (.badQueue q)) ∧
    ∀ c, queueOf s.cfg q = some c →
      ∃ t, exec (.qlen q) s = .next t ∧
        s.Responded t (.qlen q)
          (BitVec.ofNat 32 (((s.wrOf q : Int) - (s.rdOf q : Int)) % (2 * (c.cap : Int))).toNat)

/-- R152: QCAP, every branch; it has no side effect. -/
def Obligations.QcapRule : Prop :=
  ∀ (q : Nat) (s : State),
    (queueOf s.cfg q = none → ∃ t, exec (.qcap q) s = .next t ∧ s.Raised t (.badQueue q)) ∧
    ∀ c, queueOf s.cfg q = some c →
      ∃ t, exec (.qcap q) s = .next t ∧ s.Responded t (.qcap q) (BitVec.ofNat 32 c.cap)

/-- R91: a completed put lengthens the queue by one and a completed get shortens it by one, for cursors in range. -/
def Obligations.PutAndGetMoveLength : Prop :=
  ∀ (s : State) (c : QueueRow) (b : Byte), 1 ≤ c.cap → s.rdOf c.id < 2 * c.cap → s.wrOf c.id < 2 * c.cap →
    (s.len c < c.cap → (s.queuePut c b).len c = s.len c + 1) ∧
    (0 < s.len c → (s.queueAdvance c).len c + 1 = s.len c)

/-- R92: a command that does not name queue `q` leaves its cursors and every byte of its storage alone. -/
def Obligations.QueuesAreIndependent : Prop :=
  ∀ (i : Instr) (s t : State) (q : Nat), exec i s = .next t → (∀ b, i ≠ .qput q b) → i ≠ .qget q →
    t.rdOf q = s.rdOf q ∧ t.wrOf q = s.wrOf q ∧ ∀ k, t.bufByte? q k = s.bufByte? q k

/-! Dispatch tables. -/

/-- R172, R173: SETTASK, every branch, and its frame: one slot and nothing else, no enable bit. -/
def Obligations.SettaskRule : Prop :=
  ∀ (t i : Nat) (val : Word) (s : State),
    (settaskFails s.cfg t i val →
      ∃ u, exec (.settask t i val) s = .next u ∧ s.Responded u (.settask t i val) 0#32) ∧
    ∀ T x, tableOf s.cfg t = some T → i < tableSize s.cfg T → decodeHandle s.cfg val = some x → slotLegal T x = true →
      (s.DispatchInProgress T i →
        ∃ u, exec (.settask t i val) s = .next u ∧ s.Raised u (.tableWriteDuringDispatch t i)) ∧
      (¬ s.DispatchInProgress T i →
        ∃ u, exec (.settask t i val) s = .next u ∧
          u = { s with raw := u.raw, gt := u.gt, hist := s.hist ++ [.cmd s.ctx (encode (.settask t i val)) 1#32] } ∧
          ∀ T' j, u.slot T' j = if T' = T ∧ j = i then x else s.slot T' j)

/-- R174 to R176: RUNTASK, every branch. In an interrupt context whose running body issues it, a `Handler` slot's body is
invoked above that body, which waits; a `Demux` slot starts the engine above it; a `Null` slot responds 0 at once. -/
def Obligations.RuntaskRule : Prop :=
  ∀ (t i : Nat) (s : State),
    (s.ctx = .main →
      ∃ u, exec (.runtask t i) s = .next u ∧ s.Raised u (.dispatchInMainline (encode (.runtask t i)))) ∧
    (s.ctx ≠ .main → (∀ T, tableOf s.cfg t = some T → tableSize s.cfg T ≤ i) →
      ∃ u, exec (.runtask t i) s = .next u ∧ s.Raised u (.runTaskBadIndex t i)) ∧
    ∀ T, s.ctx ≠ .main → tableOf s.cfg t = some T → i < tableSize s.cfg T →
      (s.slot T i = .null → ∃ u, exec (.runtask t i) s = .next u ∧ s.Responded u (.runtask t i) 0#32) ∧
      (∀ v l h₀ r₀ w₀ as fs h, s.cs = ⟨v, l, .body h₀ r₀ w₀ :: as⟩ :: fs → s.slot T i = .handler h →
        exec (.runtask t i) s = .next { s with
          cs := ⟨v, l, .body h (bodyOf s.cfg h) .nothing :: .body h₀ r₀ (.runtask t i) :: as⟩ :: fs
          hist := s.hist ++ [.invoke (.irq v) h] }) ∧
      (∀ v l h₀ r₀ w₀ as fs g, s.cs = ⟨v, l, .body h₀ r₀ w₀ :: as⟩ :: fs → s.slot T i = .demux g →
        (s.dactOf g = .active → ∃ u, exec (.runtask t i) s = .next u ∧ s.Raised u (.demuxReentered g)) ∧
        (s.dactOf g = .idle → ∃ u, exec (.runtask t i) s = .next u ∧
          u = { s with
            cs := ⟨v, l, .demux g (s.snapshot g) 0 .scan :: .body h₀ r₀ (.runtask t i) :: as⟩ :: fs
            dact := u.dact } ∧
          ∀ g', u.dactOf g' = if g' = g then .active else s.dactOf g'))

/-- R180, R38: GETMASK responds 32 bits of the occupied-slot mask, 0 for no table, and has no side effect. -/
def Obligations.GetmaskRule : Prop :=
  ∀ (t w : Nat) (s : State),
    (tableOf s.cfg t = none → ∃ u, exec (.getmask t w) s = .next u ∧ s.Responded u (.getmask t w) 0#32) ∧
    ∀ T, tableOf s.cfg t = some T →
      ∃ (u : State) (m : Word), exec (.getmask t w) s = .next u ∧ s.Responded u (.getmask t w) m ∧
        ∀ j, j < 32 → (m.getLsbD j = true ↔ 32 * w + j < tableSize s.cfg T ∧ s.slot T (32 * w + j) ≠ .null)

/-- R182, R170: TSIZE responds `NV` for the raw table, `N(g)` for a group's, 0 for no table, and has no side effect. -/
def Obligations.TsizeRule : Prop :=
  ∀ (t : Nat) (s : State),
    (t = 0x100 → ∃ u, exec (.tsize t) s = .next u ∧ s.Responded u (.tsize t) (BitVec.ofNat 32 s.cfg.nv)) ∧
    (∀ r, t < 0x100 → groupOf s.cfg t = some r →
      ∃ u, exec (.tsize t) s = .next u ∧ s.Responded u (.tsize t) (BitVec.ofNat 32 r.n)) ∧
    (t ≠ 0x100 → (t < 0x100 → groupOf s.cfg t = none) →
      ∃ u, exec (.tsize t) s = .next u ∧ s.Responded u (.tsize t) 0#32)

/-- R184, R185, R289: TRET of a running body. With nothing below, the frame is popped and the interrupt returns; a body
below that waits on its RUNTASK gets 0; a demux below goes on, in phase `Called` by R184 and in phase `Scan`, where the rule
gives nothing, by log 11. Where no body runs, TRET raises `StrayReturn(ctx)`. -/
def Obligations.TretRule : Prop :=
  ∀ s : State,
    (∀ v l h r w fs, s.cs = ⟨v, l, [.body h r w]⟩ :: fs →
      exec .tret s = .next { s with cs := fs, hist := s.hist ++ [.ret (.irq v) h, .intReturn v] }) ∧
    (∀ v l h r w h' r' t i as fs, s.cs = ⟨v, l, .body h r w :: .body h' r' (.runtask t i) :: as⟩ :: fs →
      exec .tret s = .next { s with
        cs := ⟨v, l, .body h' r' .nothing :: as⟩ :: fs
        hist := s.hist ++ [.ret (.irq v) h, .cmd (.irq v) (encode (.runtask t i)) 0#32] }) ∧
    (∀ v l h r w g snap pos phase as fs, s.cs = ⟨v, l, .body h r w :: .demux g snap pos phase :: as⟩ :: fs →
      exec .tret s = .next { s with
        cs := ⟨v, l, .demux g snap pos phase :: as⟩ :: fs, hist := s.hist ++ [.ret (.irq v) h] }) ∧
    ((∀ h r w as, s.acts ≠ .body h r w :: as) → ∃ t, exec .tret s = .next t ∧ s.Raised t (.strayReturn s.ctx))

/-! Vector levels. -/

/-- R200: SETLVLV, every branch, and its frame: the enable bit of `v` and the priority of its field. -/
def Obligations.SetlvlvRule : Prop :=
  ∀ (v p : Nat) (s : State),
    (lvecField s.cfg v = none ∨ s.cfg.prioMax < p →
      ∃ t, exec (.setlvlv v p) s = .next t ∧ s.Responded t (.setlvlv v p) 0#32) ∧
    ∀ f, lvecField s.cfg v = some f → p ≤ s.cfg.prioMax →
      ∃ t, exec (.setlvlv v p) s = .next t ∧
        t = { s with ien := t.ien, ipr := t.ipr, hist := s.hist ++ [.cmd s.ctx (encode (.setlvlv v p)) 1#32] } ∧
        (∀ v', t.ienBit v' = if v' = v then decide (0 < p) else s.ienBit v') ∧
        ∀ f', t.iprField f' = if f' = f then BitVec.ofNat 8 p else s.iprField f'

/-- R205: SETLVLP, every branch, and its frame: every enable bit of the peripheral, to one state, and its field. -/
def Obligations.SetlvlpRule : Prop :=
  ∀ (pid p : Nat) (s : State),
    (periphOf s.cfg pid = none ∨ s.cfg.prioMax < p →
      ∃ t, exec (.setlvlp pid p) s = .next t ∧ s.Responded t (.setlvlp pid p) 0#32) ∧
    ∀ r, periphOf s.cfg pid = some r → p ≤ s.cfg.prioMax →
      ∃ t, exec (.setlvlp pid p) s = .next t ∧
        t = { s with ien := t.ien, ipr := t.ipr, hist := s.hist ++ [.cmd s.ctx (encode (.setlvlp pid p)) 1#32] } ∧
        (∀ v, t.ienBit v = if v ∈ r.env then decide (0 < p) else s.ienBit v) ∧
        ∀ f, t.iprField f = if f = r.field then BitVec.ofNat 8 p else s.iprField f

/-- R210: RDLVL, every branch: the fields of the response; it has no side effect. -/
def Obligations.RdlvlRule : Prop :=
  ∀ (v : Nat) (s : State),
    (s.cfg.nv ≤ v → ∃ t, exec (.rdlvl v) s = .next t ∧ s.Responded t (.rdlvl v) 0#32) ∧
    (v < s.cfg.nv →
      ∃ (t : State) (x : Word), exec (.rdlvl v) s = .next t ∧ s.Responded t (.rdlvl v) x ∧
        x.extractLsb' 31 1 = 1#1 ∧ x.extractLsb' 16 15 = 0#15 ∧ x.extractLsb' 2 6 = 0#6 ∧
        (∀ f, fieldOf s.cfg v = some f → x.extractLsb' 8 8 = s.iprField f) ∧
        (fieldOf s.cfg v = none → x.extractLsb' 8 8 = 0#8) ∧
        (x.getLsbD 1 = true ↔ if isGroup s.cfg v then s.grpValue v &&& s.genValue v ≠ 0#32 else s.irBit v = true) ∧
        x.getLsbD 0 = s.ienBit v)

/-- R214, R272: every SETDMAC sets `REFUSED`, records the refusal and writes nothing else, and the block stops. -/
def Obligations.SetdmacRule : Prop :=
  ∀ (ch v : Nat) (s : State),
    ∃ t, exec (.setdmac ch v) s = .next t ∧
      t = { s with refused := true, hist := s.hist ++ [.refuse .unmodelledSetdmac] } ∧ ∀ u, step t ≠ .next u

/-! Groups and the engine. -/

/-- R230, R232, R173: INSTGT, every branch, and its frame: the group's slot, `RAW[g] = Demux(g)` and the enable bit. -/
def Obligations.InstgtRule : Prop :=
  ∀ (g i : Nat) (val : Word) (s : State),
    (instgtFails s.cfg g i val →
      ∃ t, exec (.instgt g i val) s = .next t ∧ s.Responded t (.instgt g i val) 0#32) ∧
    (¬ instgtFails s.cfg g i val → s.dactOf g = .active →
      ∃ t, exec (.instgt g i val) s = .next t ∧ s.Raised t (.tableWriteDuringDispatch g i)) ∧
    (¬ instgtFails s.cfg g i val → s.dactOf g = .idle → (∃ f ∈ s.cs, f.vec = g) →
      ∃ t, exec (.instgt g i val) s = .next t ∧ s.Raised t (.tableWriteDuringDispatch 0x100 g)) ∧
    (∀ x, ¬ instgtFails s.cfg g i val → decodeHandle s.cfg val = some x → s.dactOf g = .idle →
      (∀ f ∈ s.cs, f.vec ≠ g) →
      ∃ t, exec (.instgt g i val) s = .next t ∧
        t = { s with gt := t.gt, raw := t.raw, gen := t.gen,
                     hist := s.hist ++ [.cmd s.ctx (encode (.instgt g i val)) 1#32] } ∧
        (∀ g' j, t.gtSlot g' j = if g' = g ∧ j = i then x else s.gtSlot g' j) ∧
        (∀ v, t.rawSlot v = if v = g then .demux g else s.rawSlot v) ∧
        ∀ g' j, j < groupSize s.cfg g' → j < 32 →
          (t.genValue g').getLsbD j = if g' = g ∧ j = i then decide (x ≠ .null) else (s.genValue g').getLsbD j)

/-- R231: two INSTGT commands with the same operands, the first of which succeeds, leave the same state as one, but for the
second's entry in the history. -/
def Obligations.InstgtIsIdempotent : Prop :=
  ∀ (g i : Nat) (val : Word) (s t u : State), exec (.instgt g i val) s = .next t → t.faults = s.faults →
    exec (.instgt g i val) t = .next u → u = { t with hist := u.hist }

/-- R240, R242: GDEMUX, every branch. In an interrupt context whose running body issues it, the engine starts above that
body, which waits, with the snapshot of the set flags of occupied slots. -/
def Obligations.GdemuxRule : Prop :=
  ∀ (g : Nat) (s : State),
    (s.ctx = .main → ∃ t, exec (.gdemux g) s = .next t ∧ s.Raised t (.dispatchInMainline (encode (.gdemux g)))) ∧
    (s.ctx ≠ .main → groupOf s.cfg g = none → ∃ t, exec (.gdemux g) s = .next t ∧ s.Responded t (.gdemux g) 0#32) ∧
    ∀ r, s.ctx ≠ .main → groupOf s.cfg g = some r →
      (s.dactOf g = .active → ∃ t, exec (.gdemux g) s = .next t ∧ s.Raised t (.demuxReentered g)) ∧
      (∀ v l h₀ r₀ w₀ as fs, s.dactOf g = .idle → s.cs = ⟨v, l, .body h₀ r₀ w₀ :: as⟩ :: fs →
        ∃ (t : State) (snap : Word), exec (.gdemux g) s = .next t ∧
          t = { s with
            cs := ⟨v, l, .demux g snap 0 .scan :: .body h₀ r₀ (.gdemux g) :: as⟩ :: fs
            dact := t.dact } ∧
          (∀ g', t.dactOf g' = if g' = g then .active else s.dactOf g') ∧
          ∀ j, snap.getLsbD j = true ↔ (s.grpValue g).getLsbD j = true ∧ j < r.n ∧ s.gtSlot g j ≠ .null)

/-- R250, R40: RDGRP responds the flags, latches of an edge group or inputs of a level group, 0 for no group, and has no
side effect. -/
def Obligations.RdgrpRule : Prop :=
  ∀ (g : Nat) (s : State),
    (groupOf s.cfg g = none → ∃ t, exec (.rdgrp g) s = .next t ∧ s.Responded t (.rdgrp g) 0#32) ∧
    ∀ r, groupOf s.cfg g = some r →
      ∃ (t : State) (x : Word), exec (.rdgrp g) s = .next t ∧ s.Responded t (.rdgrp g) x ∧
        ∀ j, j < 32 → x.getLsbD j =
          (decide (j < r.n) && (Sparse.get 0#32 (if r.trig = .edge then s.grp else s.src) g).getLsbD j)

/-- R252: CLRGRP, every branch, and its frame: one latch of an edge group. -/
def Obligations.ClrgrpRule : Prop :=
  ∀ (g i : Nat) (s : State),
    ((∀ r, groupOf s.cfg g = some r → r.n ≤ i ∨ r.trig = .level) →
      ∃ t, exec (.clrgrp g i) s = .next t ∧ s.Responded t (.clrgrp g i) 0#32) ∧
    ∀ r, groupOf s.cfg g = some r → i < r.n → r.trig = .edge →
      ∃ t, exec (.clrgrp g i) s = .next t ∧
        t = { s with grp := t.grp, hist := s.hist ++ [.cmd s.ctx (encode (.clrgrp g i)) 1#32] } ∧
        ∀ g' j, j < 32 → (t.grpValue g').getLsbD j = if g' = g ∧ j = i then false else (s.grpValue g').getLsbD j

/-- R254, R39: RDGEN responds the group enable register, bits `N(g)..31` zero, 0 for no group, and has no side effect. -/
def Obligations.RdgenRule : Prop :=
  ∀ (g : Nat) (s : State),
    (groupOf s.cfg g = none → ∃ t, exec (.rdgen g) s = .next t ∧ s.Responded t (.rdgen g) 0#32) ∧
    ∀ r, groupOf s.cfg g = some r →
      ∃ (t : State) (x : Word), exec (.rdgen g) s = .next t ∧ s.Responded t (.rdgen g) x ∧
        ∀ j, j < 32 → x.getLsbD j = (decide (j < r.n) && (Sparse.get 0#32 s.gen g).getLsbD j)

/-- R244, R245: the scan step takes the least source of the snapshot at or above `pos`, and invokes its handler in the
running context. -/
def Obligations.ScanInvokesLeastSource : Prop :=
  ∀ (s : State) (v : Nat) (l : BitVec 8) (g : Nat) (snap : Word) (pos : Nat) (as : List Act) (fs : List Frame)
    (rest : List Input) (i h : Nat), cfgOk s.cfg = true → s.clean = true → s.inputs = .run :: rest →
    s.cs = ⟨v, l, .demux g snap pos .scan :: as⟩ :: fs →
    pos ≤ i → i < groupSize s.cfg g → snap.getLsbD i = true → (∀ j, pos ≤ j → j < i → snap.getLsbD j = false) →
    s.gtSlot g i = .handler h →
    step s = .next { s with
      inputs := rest
      cs := ⟨v, l, .body h (bodyOf s.cfg h) .nothing :: .demux g snap pos (.called i) :: as⟩ :: fs
      hist := s.hist ++ [.invoke (.irq v) h] }

/-- R247: the after-call step clears the flag of an edge group's source and no other, writes no flag of a level group, and
goes on scanning above it. -/
def Obligations.AfterCallClearsEdgeFlag : Prop :=
  ∀ (s : State) (v : Nat) (l : BitVec 8) (g : Nat) (snap : Word) (pos i : Nat) (as : List Act) (fs : List Frame)
    (rest : List Input) (r : GroupRow), cfgOk s.cfg = true → s.clean = true → s.inputs = .run :: rest →
    s.cs = ⟨v, l, .demux g snap pos (.called i) :: as⟩ :: fs → groupOf s.cfg g = some r →
    ∃ t, step s = .next t ∧
      t = { s with inputs := rest, grp := t.grp, cs := ⟨v, l, .demux g snap (i + 1) .scan :: as⟩ :: fs } ∧
      (r.trig = .level → t.grp = s.grp) ∧
      ∀ g' j, j < 32 → (t.grpValue g').getLsbD j =
        if g' = g ∧ j = i ∧ r.trig = .edge then false else (s.grpValue g').getLsbD j

/-- R248, R289: with no source of the snapshot left, the scan finishes: the activation is popped, `DACT[g]` is idle, and the
starter resumes: GDEMUX responds 1, RUNTASK responds 0, a delivered frame returns. -/
def Obligations.FinishResumesStarter : Prop :=
  ∀ (s : State) (v : Nat) (l : BitVec 8) (g : Nat) (snap : Word) (pos : Nat) (as : List Act) (fs : List Frame)
    (rest : List Input), cfgOk s.cfg = true → s.clean = true → s.inputs = .run :: rest →
    s.cs = ⟨v, l, .demux g snap pos .scan :: as⟩ :: fs →
    (∀ j, pos ≤ j → j < groupSize s.cfg g → snap.getLsbD j = false) →
    ∃ t, step s = .next t ∧
      t = { s with inputs := rest, cs := t.cs, dact := t.dact, hist := t.hist } ∧
      (∀ g', t.dactOf g' = if g' = g then .idle else s.dactOf g') ∧
      (as = [] → t.cs = fs ∧ t.hist = s.hist ++ [.intReturn v]) ∧
      (∀ h r g₀ as', as = .body h r (.gdemux g₀) :: as' →
        t.cs = ⟨v, l, .body h r .nothing :: as'⟩ :: fs ∧
        t.hist = s.hist ++ [.cmd (.irq v) (encode (.gdemux g₀)) 1#32]) ∧
      ∀ h r t₀ i₀ as', as = .body h r (.runtask t₀ i₀) :: as' →
        t.cs = ⟨v, l, .body h r .nothing :: as'⟩ :: fs ∧
        t.hist = s.hist ++ [.cmd (.irq v) (encode (.runtask t₀ i₀)) 0#32]

/-- R256: after a successful `INSTGT g, i, NULL` the mask of `g`'s table excludes `i`, and no snapshot that a demux start
takes, whatever the flags, names `i`. -/
def Obligations.EmptySlotNeverInvoked : Prop :=
  ∀ (g i : Nat) (s t : State), i < groupSize s.cfg g → isGroup s.cfg g = true → s.dactOf g = .idle →
    s.frameOn g = false → exec (.instgt g i 0#32) s = .next t →
    t.maskBit (.group g) i = false ∧
    ∀ flags, ({ t with grp := flags }.snapshot g).getLsbD i = false ∧ ({ t with src := flags }.snapshot g).getLsbD i = false

/-! Reset. -/

/-- R320: what reset leaves, for every configuration: nothing enabled, requested, installed or flagged by a latch, empty
queues, idle demuxes, the mainline running at level 0, no fault, refusal or history. -/
def Obligations.ResetValues : Prop :=
  ∀ c : Cfg,
    (∀ v, (State.resetOf c).ienBit v = false ∧ (State.resetOf c).irBit v = false ∧
      (State.resetOf c).rawSlot v = .null) ∧
    (∀ f, (State.resetOf c).iprField f = 0#8) ∧
    (∀ g, (State.resetOf c).genValue g = 0#32 ∧ (State.resetOf c).dactOf g = .idle ∧
      ∀ i, (State.resetOf c).gtSlot g i = .null) ∧
    (∀ g r, groupOf c g = some r → r.trig = .edge → (State.resetOf c).grpValue g = 0#32) ∧
    (∀ q, (State.resetOf c).rdOf q = 0 ∧ (State.resetOf c).wrOf q = 0) ∧
    (∀ q : QueueRow, (State.resetOf c).len q = 0) ∧
    (State.resetOf c).cs = [] ∧ (State.resetOf c).mact = [] ∧ (State.resetOf c).curLvl = 0 ∧
    (State.resetOf c).ctx = .main ∧ (State.resetOf c).faults = [] ∧ (State.resetOf c).refused = false ∧
    (State.resetOf c).hist = []

/-- Every invariant stated here holds at reset, for every configuration. -/
def Obligations.ResetMeetsInvariants : Prop :=
  ∀ c : Cfg, cfgOk c = true →
    CanonicalInv (State.resetOf c) ∧ QueueInv (State.resetOf c) ∧ WrittenInv (State.resetOf c) ∧
    FifoInv (State.resetOf c) ∧ NestingInv (State.resetOf c) ∧ MainlineInv (State.resetOf c) ∧
    DemuxInv (State.resetOf c) ∧ StackInv (State.resetOf c) ∧ GroupBitsInv (State.resetOf c)

/-- R321: after reset no vector is eligible, whatever the level inputs and the latches read. -/
def Obligations.NothingEligibleAtReset : Prop :=
  ∀ (c : Cfg) (inputs latches : List (Nat × Word)) (v : Nat),
    { State.resetOf c with src := inputs, grp := latches }.eligible v = false ∧
    { State.resetOf c with src := inputs, grp := latches }.greq v = false

/-! Invariants that every step keeps. -/

/-- Every indexed element, queue storage included, keeps its canonical form. -/
def Obligations.StepKeepsCanonicalForm : Prop :=
  ∀ s t : State, CanonicalInv s → step s = .next t → CanonicalInv t

/-- R42, R43, R91: cursors stay in `[0, 2C)` and the fill level in `[0, C]`. -/
def Obligations.StepKeepsQueueBounds : Prop :=
  ∀ s t : State, QueueInv s → step s = .next t → QueueInv t

/-- R84: every byte between the cursors has been written by a QPUT, so no get reads a byte before it is written. -/
def Obligations.StepKeepsWrittenBytes : Prop :=
  ∀ s t : State, WrittenInv s → step s = .next t → WrittenInv t

/-- R90: in every queue the bytes got, followed by the bytes still held, are the bytes put, in order. -/
def Obligations.StepKeepsFifo : Prop :=
  ∀ s t : State, FifoInv s → step s = .next t → FifoInv t

/-- R155: for a history that obeys the FIFO invariant, the fill level is the number of puts less the number of gets. -/
def Obligations.LengthIsPutsLessGets : Prop :=
  ∀ (s : State) (q : Nat) (c : QueueRow), FifoInv s → queueOf s.cfg q = some c →
    (s.hist.filterMap (putOf q)).length = (s.hist.filterMap (gotOf q)).length + s.len c

/-- R33, R290: priorities stay in `0..PRIO_MAX` and frames nest with strictly increasing levels in `1..PRIO_MAX`. -/
def Obligations.StepKeepsNesting : Prop :=
  ∀ s t : State, NestingInv s → step s = .next t → NestingInv t

/-- R290: so the context stack holds at most `PRIO_MAX` frames. -/
def Obligations.NestingBoundsDepth : Prop :=
  ∀ s : State, NestingInv s → DepthBound s

/-- R44: the mainline never runs an activation. -/
def Obligations.StepKeepsMainlineEmpty : Prop :=
  ∀ s t : State, MainlineInv s → step s = .next t → MainlineInv t

/-- R46, R37, R244: `DACT[g]` is active exactly while the group's one demux activation exists, no group table holds a
`Demux`, and every source a snapshot names keeps its handler until the pass ends. -/
def Obligations.StepKeepsDemuxDiscipline : Prop :=
  ∀ s t : State, DemuxInv s → step s = .next t → DemuxInv t

/-- R184, R289: while the block runs, every frame has work and its activations are a chain of calls, so the cases of TRET
that the rule calls impossible are. -/
def Obligations.StepKeepsCallChains : Prop :=
  ∀ s t : State, StackInv s → step s = .next t → StackInv t

/-- R39, R40: bits `N(g)..31` of the group registers are never written. -/
def Obligations.StepKeepsGroupBits : Prop :=
  ∀ s t : State, GroupBitsInv s → step s = .next t → GroupBitsInv t

/-- R48, R31: every step appends to the history and keeps what was there, and no step changes the configuration. -/
def Obligations.StepAppendsHistory : Prop :=
  ∀ s t : State, step s = .next t → (∃ es, t.hist = s.hist ++ es) ∧ t.cfg = s.cfg

/-! Whole-machine rules: who writes what. -/

/-- R32, R33: only a SETLVLV or a SETLVLP that responds success changes an enable bit or a priority. -/
def Obligations.OnlySetLevelChangesLevels : Prop :=
  ∀ s t : State, step s = .next t → t.ien ≠ s.ien ∨ t.ipr ≠ s.ipr →
    ∃ x p, t.hist = s.hist ++ [.cmd s.ctx (encode (.setlvlv x p)) 1#32] ∨
      t.hist = s.hist ++ [.cmd s.ctx (encode (.setlvlp x p)) 1#32]

/-- R34, R284: only a source request sets a latch `IR[v]`, only acceptance of `v` clears it, and no command writes it. -/
def Obligations.OnlyRequestsAndAcceptanceChangeIr : Prop :=
  (∀ (s t : State) (v : Nat), step s = .next t → t.irBit v ≠ s.irBit v →
    (t.irBit v = true ∧ t.hist = s.hist ++ [.src (.vreq v)]) ∨
    (t.irBit v = false ∧ ∃ l es, t.hist = s.hist ++ .deliver v l :: es)) ∧
  ∀ (i : Instr) (s t : State), exec i s = .next t → t.ir = s.ir

/-- R36, R37, R39: only a SETTASK or an INSTGT that responds success changes a dispatch table, and only such an INSTGT
changes a group enable. -/
def Obligations.OnlyInstallsChangeTables : Prop :=
  ∀ s t : State, step s = .next t →
    (t.raw ≠ s.raw ∨ t.gt ≠ s.gt → ∃ x i val,
      t.hist = s.hist ++ [.cmd s.ctx (encode (.settask x i val)) 1#32] ∨
      t.hist = s.hist ++ [.cmd s.ctx (encode (.instgt x i val)) 1#32]) ∧
    (t.gen ≠ s.gen → ∃ g i val, t.hist = s.hist ++ [.cmd s.ctx (encode (.instgt g i val)) 1#32])

/-- R41: only a LEVEL event changes a level input, and no command writes one. -/
def Obligations.OnlySourcesChangeInputs : Prop :=
  ∀ s t : State, step s = .next t → t.src ≠ s.src → ∃ g i b, t.hist = s.hist ++ [.src (.level g i b)]
end

