-- ==== Sys2Proof/Laws/Decode.lean ====
section
/-! SUPPORT. The fields of a packed word, and the opcode map has no two rows of one opcode. -/

namespace Sys2Proof

variable (op : BitVec 6) (unit : BitVec 10) (idx rsv : BitVec 8) (val : Word)

@[simp] theorem opOf_packWord : opOf (packWord op unit idx rsv val) = op := by
  apply BitVec.eq_of_getLsbD_eq
  intro i hi
  simp only [opOf, packWord, BitVec.getLsbD_extractLsb', BitVec.getLsbD_append]
  simp [hi, show ¬ 58 + i < 32 by omega, show ¬ 58 + i - 32 < 8 by omega, show ¬ 58 + i - 32 - 8 < 8 by omega,
    show ¬ 58 + i - 32 - 8 - 8 < 10 by omega, show 58 + i - 32 - 8 - 8 - 10 = i by omega]

@[simp] theorem unitOf_packWord : unitOf (packWord op unit idx rsv val) = unit := by
  apply BitVec.eq_of_getLsbD_eq
  intro i hi
  simp only [unitOf, packWord, BitVec.getLsbD_extractLsb', BitVec.getLsbD_append]
  simp [hi, show ¬ 48 + i < 32 by omega, show ¬ 48 + i - 32 < 8 by omega, show ¬ 48 + i - 32 - 8 < 8 by omega,
    show 48 + i - 32 - 8 - 8 = i by omega]

@[simp] theorem idxOf_packWord : idxOf (packWord op unit idx rsv val) = idx := by
  apply BitVec.eq_of_getLsbD_eq
  intro i hi
  simp only [idxOf, packWord, BitVec.getLsbD_extractLsb', BitVec.getLsbD_append]
  simp [hi, show ¬ 40 + i < 32 by omega, show ¬ 40 + i - 32 < 8 by omega,
    show 40 + i - 32 - 8 = i by omega]

@[simp] theorem rsvOf_packWord : rsvOf (packWord op unit idx rsv val) = rsv := by
  apply BitVec.eq_of_getLsbD_eq
  intro i hi
  simp only [rsvOf, packWord, BitVec.getLsbD_extractLsb', BitVec.getLsbD_append]
  simp [hi, show ¬ 32 + i < 32 by omega, show 32 + i - 32 = i by omega]

@[simp] theorem valOf_packWord : valOf (packWord op unit idx rsv val) = val := by
  apply BitVec.eq_of_getLsbD_eq
  intro i hi
  simp only [valOf, packWord, BitVec.getLsbD_extractLsb', BitVec.getLsbD_append]
  simp [hi]

/-- A word is its five fields (R111). -/
theorem packWord_fields (w : CmdWord) : packWord (opOf w) (unitOf w) (idxOf w) (rsvOf w) (valOf w) = w := by
  apply BitVec.eq_of_getLsbD_eq
  intro i hi
  simp only [packWord, BitVec.getLsbD_append, valOf, rsvOf, idxOf, unitOf, opOf,
    BitVec.getLsbD_extractLsb']
  split
  · simp_all
  · split
    · simp [show i - 32 < 8 by omega, show 32 + (i - 32) = i by omega]
    · split
      · simp [show i - 32 - 8 < 8 by omega, show 40 + (i - 32 - 8) = i by omega]
      · split
        · simp [show i - 32 - 8 - 8 < 10 by omega, show 48 + (i - 32 - 8 - 8) = i by omega]
        · simp [show i - 32 - 8 - 8 - 10 < 6 by omega, show 58 + (i - 32 - 8 - 8 - 10) = i by omega]

/-- The bitwise and of two packed words is that of their fields. -/
theorem packWord_and (op' : BitVec 6) (unit' : BitVec 10) (idx' rsv' : BitVec 8) (val' : Word) :
    packWord op unit idx rsv val &&& packWord op' unit' idx' rsv' val' =
      packWord (op &&& op') (unit &&& unit') (idx &&& idx') (rsv &&& rsv') (val &&& val') := by
  apply BitVec.eq_of_getLsbD_eq
  intro i _
  simp only [packWord, BitVec.getLsbD_and, BitVec.getLsbD_append]
  repeat' split
  all_goals rfl

theorem packWord_inj {op' : BitVec 6} {unit' : BitVec 10} {idx' rsv' : BitVec 8} {val' : Word} :
    packWord op unit idx rsv val = packWord op' unit' idx' rsv' val' ↔
      op = op' ∧ unit = unit' ∧ idx = idx' ∧ rsv = rsv' ∧ val = val' := by
  constructor
  · intro h
    refine ⟨?_, ?_, ?_, ?_, ?_⟩
    · simpa using congrArg opOf h
    · simpa using congrArg unitOf h
    · simpa using congrArg idxOf h
    · simpa using congrArg rsvOf h
    · simpa using congrArg valOf h
  · rintro ⟨rfl, rfl, rfl, rfl, rfl⟩; rfl

/-- No two rows of the opcode map have one opcode, so decoding is unambiguous. -/
theorem opcodeTable_nodup : (opcodeTable.map OpRow.op).Nodup := by decide

end Sys2Proof
end

