-- ==== Sys2Proof/Laws/Sparse.lean ====
section
/-! SUPPORT. The laws of the sparse maps: what a read after a write gives, and that every write keeps the canonical form. -/

namespace Sys2Proof.Machine

variable {α : Type}

@[simp] theorem Sparse.lookup_nil (k : Nat) : Sparse.lookup ([] : List (Nat × α)) k = none := rfl

@[simp] theorem Sparse.lookup_insert (m : List (Nat × α)) (k k' : Nat) (v : α) :
    Sparse.lookup (Sparse.insert m k v) k' = if k = k' then some v else Sparse.lookup m k' := by
  induction m with
  | nil => simp [Sparse.insert, Sparse.lookup]
  | cons p m ih =>
    obtain ⟨k₀, v₀⟩ := p
    by_cases h₁ : k < k₀
    · simp [Sparse.insert, h₁, Sparse.lookup]
    · by_cases h₂ : k = k₀
      · subst h₂
        by_cases h₃ : k = k' <;> simp [Sparse.insert, Sparse.lookup, h₃]
      · by_cases h₃ : k₀ = k'
        · subst h₃; simp [Sparse.insert, Sparse.lookup, h₁, h₂]
        · simp [Sparse.insert, Sparse.lookup, h₁, h₂, h₃, ih]

@[simp] theorem Sparse.lookup_erase (m : List (Nat × α)) (k k' : Nat) :
    Sparse.lookup (Sparse.erase m k) k' = if k = k' then none else Sparse.lookup m k' := by
  induction m with
  | nil => simp [Sparse.erase]
  | cons p m ih =>
    obtain ⟨k₀, v₀⟩ := p
    by_cases h₁ : k₀ = k
    · subst h₁
      by_cases h₂ : k₀ = k'
      · simpa [Sparse.erase, h₂] using ih
      · simp [Sparse.erase, Sparse.lookup, ih, h₂]
    · by_cases h₂ : k₀ = k'
      · subst h₂; simp [Sparse.erase, Sparse.lookup, h₁, Ne.symm h₁]
      · simp [Sparse.erase, Sparse.lookup, h₁, h₂, ih]

@[simp] theorem Sparse.get_nil (d : α) (k : Nat) : Sparse.get d [] k = d := rfl

/-- A read after a write of the same key gives the value written, and any other key reads as before. -/
@[simp] theorem Sparse.get_set [DecidableEq α] (d : α) (m : List (Nat × α)) (k k' : Nat) (v : α) :
    Sparse.get d (Sparse.set d m k v) k' = if k = k' then v else Sparse.get d m k' := by
  unfold Sparse.get Sparse.set
  by_cases hv : v = d
  · subst hv; by_cases h : k = k' <;> simp [h]
  · by_cases h : k = k' <;> simp [hv, h]

theorem Sparse.insert_insert (m : List (Nat × α)) (k : Nat) (v w : α) :
    Sparse.insert (Sparse.insert m k v) k w = Sparse.insert m k w := by
  induction m with
  | nil => simp [Sparse.insert]
  | cons p m ih =>
    obtain ⟨k₀, v₀⟩ := p
    by_cases h₁ : k < k₀
    · simp [Sparse.insert, h₁]
    · by_cases h₂ : k = k₀
      · simp [Sparse.insert, h₂]
      · simp [Sparse.insert, h₁, h₂, ih]

theorem Sparse.erase_erase (m : List (Nat × α)) (k : Nat) : Sparse.erase (Sparse.erase m k) k = Sparse.erase m k := by
  induction m with
  | nil => rfl
  | cons p m ih =>
    obtain ⟨k₀, v₀⟩ := p
    by_cases h : k₀ = k <;> simp [Sparse.erase, h, ih]

/-- Writing the same value twice is writing it once. -/
theorem Sparse.set_set_same [DecidableEq α] (d : α) (m : List (Nat × α)) (k : Nat) (v : α) :
    Sparse.set d (Sparse.set d m k v) k v = Sparse.set d m k v := by
  unfold Sparse.set
  by_cases h : v = d <;> simp [h, Sparse.insert_insert, Sparse.erase_erase]

/-! The canonical form. -/

theorem risesFrom_mono {key : α → Nat} {lo lo' : Nat} {l : List α} (hle : lo' ≤ lo)
    (h : risesFrom key lo l = true) : risesFrom key lo' l = true := by
  cases l with
  | nil => rfl
  | cons a l =>
    simp only [risesFrom, Bool.and_eq_true, decide_eq_true_eq] at h ⊢
    exact ⟨hle.trans h.1, h.2⟩

theorem Sparse.risesFrom_insert {m : List (Nat × α)} {lo k : Nat} {v : α} (hlo : lo ≤ k)
    (h : risesFrom Prod.fst lo m = true) : risesFrom Prod.fst lo (Sparse.insert m k v) = true := by
  induction m generalizing lo with
  | nil => simp [Sparse.insert, risesFrom, hlo]
  | cons p m ih =>
    obtain ⟨k₀, v₀⟩ := p
    simp only [risesFrom, Bool.and_eq_true, decide_eq_true_eq] at h
    unfold Sparse.insert
    split
    · next h₁ =>
      simp only [risesFrom, Bool.and_eq_true, decide_eq_true_eq]
      exact ⟨hlo, by omega, h.2⟩
    · split
      · next h₂ =>
        subst h₂
        simp only [risesFrom, Bool.and_eq_true, decide_eq_true_eq]
        exact ⟨hlo, h.2⟩
      · simp only [risesFrom, Bool.and_eq_true, decide_eq_true_eq]
        exact ⟨h.1, ih (by omega) h.2⟩

theorem Sparse.risesFrom_erase {m : List (Nat × α)} {lo k : Nat} (h : risesFrom Prod.fst lo m = true) :
    risesFrom Prod.fst lo (Sparse.erase m k) = true := by
  induction m generalizing lo with
  | nil => rfl
  | cons p m ih =>
    obtain ⟨k₀, v₀⟩ := p
    simp only [risesFrom, Bool.and_eq_true, decide_eq_true_eq] at h
    unfold Sparse.erase
    split
    · exact risesFrom_mono (by omega) (ih h.2)
    · simp only [risesFrom, Bool.and_eq_true, decide_eq_true_eq]
      exact ⟨h.1, ih h.2⟩

theorem Sparse.rising_insert {m : List (Nat × α)} {k : Nat} {v : α} (h : Sparse.rising m = true) :
    Sparse.rising (Sparse.insert m k v) = true :=
  Sparse.risesFrom_insert (Nat.zero_le k) h

theorem Sparse.rising_erase {m : List (Nat × α)} {k : Nat} (h : Sparse.rising m = true) :
    Sparse.rising (Sparse.erase m k) = true :=
  Sparse.risesFrom_erase h

theorem Sparse.mem_insert {m : List (Nat × α)} {k : Nat} {v : α} {p : Nat × α}
    (h : p ∈ Sparse.insert m k v) : p = (k, v) ∨ p ∈ m := by
  induction m with
  | nil => simpa [Sparse.insert] using h
  | cons q m ih =>
    obtain ⟨k₀, v₀⟩ := q
    unfold Sparse.insert at h
    split at h
    · simpa using h
    · split at h
      · rcases List.mem_cons.1 h with h | h
        · exact .inl h
        · exact .inr (List.mem_cons_of_mem _ h)
      · rcases List.mem_cons.1 h with h | h
        · exact .inr (h ▸ List.mem_cons_self)
        · exact (ih h).imp_right (List.mem_cons_of_mem _)

theorem Sparse.mem_erase {m : List (Nat × α)} {k : Nat} {p : Nat × α} (h : p ∈ Sparse.erase m k) : p ∈ m := by
  induction m with
  | nil => exact h
  | cons q m ih =>
    obtain ⟨k₀, v₀⟩ := q
    unfold Sparse.erase at h
    split at h
    · exact List.mem_cons_of_mem _ (ih h)
    · rcases List.mem_cons.1 h with h | h
      · exact h ▸ List.mem_cons_self
      · exact List.mem_cons_of_mem _ (ih h)

/-- Every write of a default-valued map keeps its canonical form. -/
theorem Sparse.canonical_set [DecidableEq α] {d : α} {m : List (Nat × α)} {k : Nat} {v : α}
    (h : Sparse.canonical d m = true) : Sparse.canonical d (Sparse.set d m k v) = true := by
  simp only [Sparse.canonical, Bool.and_eq_true, List.all_eq_true, decide_eq_true_eq] at h ⊢
  unfold Sparse.set
  split
  · exact ⟨Sparse.rising_erase h.1, fun p hp => h.2 p (Sparse.mem_erase hp)⟩
  · next hv =>
    refine ⟨Sparse.rising_insert h.1, fun p hp => ?_⟩
    rcases Sparse.mem_insert hp with rfl | hp
    · exact hv
    · exact h.2 p hp

theorem Sparse.insert_ne_nil (m : List (Nat × α)) (k : Nat) (v : α) : Sparse.insert m k v ≠ [] := by
  cases m with
  | nil => simp [Sparse.insert]
  | cons p m => unfold Sparse.insert; split <;> [simp; (split <;> simp)]

theorem Sparse.lookup_mem {m : List (Nat × α)} {k : Nat} {v : α} (h : Sparse.lookup m k = some v) : (k, v) ∈ m := by
  induction m with
  | nil => simp at h
  | cons p m ih =>
    obtain ⟨k₀, v₀⟩ := p
    unfold Sparse.lookup at h
    split at h
    · next h₁ => subst h₁; simp_all
    · exact List.mem_cons_of_mem _ (ih h)

/-- The inner map that a two-level map lists, or the empty one, has the inner canonical form. -/
theorem Sparse.canonical2_get {inner : List (Nat × α) → Bool} {m : List (Nat × List (Nat × α))} {k : Nat}
    (hnil : inner [] = true) (h : Sparse.canonical2 inner m = true) : inner (Sparse.get [] m k) = true := by
  unfold Sparse.get
  cases hl : Sparse.lookup m k with
  | none => exact hnil
  | some v =>
    simp only [Sparse.canonical2, Bool.and_eq_true, List.all_eq_true] at h
    exact (h.2 _ (Sparse.lookup_mem hl)).2

/-- Listing a canonical, nonempty inner map keeps the two-level canonical form. -/
theorem Sparse.canonical2_insert {inner : List (Nat × α) → Bool} {m : List (Nat × List (Nat × α))} {k : Nat}
    {v : List (Nat × α)} (hv : v ≠ []) (hin : inner v = true) (h : Sparse.canonical2 inner m = true) :
    Sparse.canonical2 inner (Sparse.insert m k v) = true := by
  simp only [Sparse.canonical2, Bool.and_eq_true, List.all_eq_true, Bool.not_eq_true',
    List.isEmpty_eq_false_iff] at h ⊢
  refine ⟨Sparse.rising_insert h.1, fun p hp => ?_⟩
  rcases Sparse.mem_insert hp with rfl | hp
  · exact ⟨hv, hin⟩
  · exact h.2 p hp

/-- Writing a canonical inner map keeps the two-level canonical form. -/
theorem Sparse.canonical2_set [DecidableEq α] {inner : List (Nat × α) → Bool} {m : List (Nat × List (Nat × α))}
    {k : Nat} {v : List (Nat × α)} (hin : inner v = true) (h : Sparse.canonical2 inner m = true) :
    Sparse.canonical2 inner (Sparse.set [] m k v) = true := by
  unfold Sparse.set
  split
  · simp only [Sparse.canonical2, Bool.and_eq_true, List.all_eq_true] at h ⊢
    exact ⟨Sparse.rising_erase h.1, fun p hp => h.2 p (Sparse.mem_erase hp)⟩
  · next hv => exact Sparse.canonical2_insert hv hin h

end Sys2Proof.Machine
end

