-- ==== Sys2Proof/Laws/Flags.lean ====
section
/-! SUPPORT. The bits of masks and packed words, and the vector a delivery takes. -/

namespace Sys2Proof.Machine

@[simp] theorem getLsbD_lowMask (n j : Nat) : (lowMask n).getLsbD j = (decide (j < 32) && decide (j < n)) := by
  simp [lowMask, BitVec.getLsbD_ofNat, Nat.testBit_two_pow_sub_one]

@[simp] theorem getLsbD_setBit (x : Word) (i j : Nat) (b : Bool) :
    (setBit x i b).getLsbD j = if i = j ∧ j < 32 then b else x.getLsbD j := by
  have h : ((1#32 <<< i).getLsbD j) = (decide (j < 32) && decide (i = j)) := by
    rw [BitVec.getLsbD_shiftLeft]
    by_cases h₁ : j < 32 <;> by_cases h₂ : i = j <;> (simp [h₁, h₂, BitVec.getLsbD_one]; try omega)
  unfold setBit
  by_cases h₁ : j < 32
  · cases b <;> by_cases h₂ : i = j <;>
      simp only [BitVec.getLsbD_and, BitVec.getLsbD_or, BitVec.getLsbD_not, h, if_true, if_false, Bool.false_eq_true] <;>
      simp [h₁, h₂]
  · rw [BitVec.getLsbD_of_ge x j (by omega), BitVec.getLsbD_of_ge _ j (by omega)]
    simp [h₁]

theorem getLsbD_packBits (f : Nat → Bool) (n j : Nat) (hn : n ≤ 32) :
    (packBits f n).getLsbD j = (decide (j < n) && f j) := by
  induction n with
  | zero => simp [packBits]
  | succ n ih =>
    simp only [packBits, getLsbD_setBit, ih (by omega)]
    by_cases h : n = j
    · subst h; simp [show n < 32 by omega]
    · by_cases h' : j < n
      · simp [h, h', show j < n + 1 by omega]
      · simp [h, h', show ¬ j < n + 1 by omega]

/-- A bit of a mask word is the occupied-slot bit of its index (R38, R180). -/
@[simp] theorem getLsbD_maskWord (s : State) (T : Table) (w j : Nat) :
    (s.maskWord T w).getLsbD j = (decide (j < 32) && s.maskBit T (32 * w + j)) := by
  simp [State.maskWord, getLsbD_packBits]

theorem setBit_setBit (x : Word) (i : Nat) (b : Bool) : setBit (setBit x i b) i b = setBit x i b := by
  apply BitVec.eq_of_getLsbD_eq
  intro j _
  simp only [getLsbD_setBit]
  split <;> simp_all

theorem selectBelow_none {s : State} {n : Nat} (h : s.selectBelow n = none) : ∀ v, v < n → s.eligible v = false := by
  induction n with
  | zero => simp
  | succ n ih =>
    intro v hv
    unfold State.selectBelow at h
    split at h
    · next h₁ =>
      split at h
      · simp at h
      · next h₂ =>
        rcases Nat.lt_succ_iff_lt_or_eq.1 hv with h₃ | rfl
        · exact ih h₁ v h₃
        · simpa using h₂
    · split at h <;> simp at h

/-- What the selection among the vectors below `n` returns (R286). -/
theorem selectBelow_some {s : State} {n b : Nat} (h : s.selectBelow n = some b) :
    b < n ∧ s.eligible b = true ∧
      ∀ u, u < n → s.eligible u = true → s.prioOf u < s.prioOf b ∨ (s.prioOf u = s.prioOf b ∧ b ≤ u) := by
  induction n generalizing b with
  | zero => simp [State.selectBelow] at h
  | succ n ih =>
    unfold State.selectBelow at h
    split at h
    · next h₁ =>
      split at h
      · next h₂ =>
        obtain rfl : n = b := by simpa using h
        refine ⟨by omega, h₂, fun u hu he => ?_⟩
        rcases Nat.lt_succ_iff_lt_or_eq.1 hu with h₃ | rfl
        · simp [selectBelow_none h₁ u h₃] at he
        · exact .inr ⟨rfl, Nat.le_refl _⟩
      · simp at h
    · next b' h₁ =>
      obtain ⟨hb', he', hmax⟩ := ih h₁
      split at h
      · next h₂ =>
        obtain rfl : n = b := by simpa using h
        simp only [Bool.and_eq_true, decide_eq_true_eq] at h₂
        refine ⟨by omega, h₂.1, fun u hu he => ?_⟩
        rcases Nat.lt_succ_iff_lt_or_eq.1 hu with h₃ | rfl
        · rcases hmax u h₃ he with h₄ | ⟨h₄, -⟩
          · exact .inl (BitVec.lt_trans h₄ h₂.2)
          · exact .inl (h₄ ▸ h₂.2)
        · exact .inr ⟨rfl, Nat.le_refl _⟩
      · next h₂ =>
        obtain rfl : b' = b := by simpa using h
        refine ⟨by omega, he', fun u hu he => ?_⟩
        rcases Nat.lt_succ_iff_lt_or_eq.1 hu with h₃ | rfl
        · exact hmax u h₃ he
        · simp only [Bool.and_eq_true, decide_eq_true_eq, not_and, he, true_implies] at h₂
          by_cases h₄ : s.prioOf u = s.prioOf b'
          · exact .inr ⟨h₄, by omega⟩
          · exact .inl (BitVec.lt_of_le_ne (BitVec.not_lt.1 h₂) h₄)

/-- The schedule does not bear on which vector a delivery takes. -/
@[simp] theorem selected_inputs (s : State) (is : List Input) : { s with inputs := is }.selected = s.selected := by
  have h : ∀ n, { s with inputs := is }.selectBelow n = s.selectBelow n := by
    intro n
    induction n with
    | zero => rfl
    | succ n ih => unfold State.selectBelow; rw [ih]; rfl
  exact h _

end Sys2Proof.Machine
end

