-- ==== Sys2Proof/Laws/State.lean ====
section
/-! SUPPORT. Which fields each update leaves alone, one lemma per field and update, and what the changed ones read as. -/

namespace Sys2Proof.Machine

variable (s : State)

/-! `State.record` writes hist alone. -/

@[simp] theorem State.record_ien (e : Event) : (s.record e).ien = s.ien := rfl
@[simp] theorem State.record_ipr (e : Event) : (s.record e).ipr = s.ipr := rfl
@[simp] theorem State.record_ir (e : Event) : (s.record e).ir = s.ir := rfl
@[simp] theorem State.record_raw (e : Event) : (s.record e).raw = s.raw := rfl
@[simp] theorem State.record_gt (e : Event) : (s.record e).gt = s.gt := rfl
@[simp] theorem State.record_gen (e : Event) : (s.record e).gen = s.gen := rfl
@[simp] theorem State.record_grp (e : Event) : (s.record e).grp = s.grp := rfl
@[simp] theorem State.record_src (e : Event) : (s.record e).src = s.src := rfl
@[simp] theorem State.record_buf (e : Event) : (s.record e).buf = s.buf := rfl
@[simp] theorem State.record_rd (e : Event) : (s.record e).rd = s.rd := rfl
@[simp] theorem State.record_wr (e : Event) : (s.record e).wr = s.wr := rfl
@[simp] theorem State.record_dact (e : Event) : (s.record e).dact = s.dact := rfl
@[simp] theorem State.record_cs (e : Event) : (s.record e).cs = s.cs := rfl
@[simp] theorem State.record_mact (e : Event) : (s.record e).mact = s.mact := rfl
@[simp] theorem State.record_hold (e : Event) : (s.record e).hold = s.hold := rfl
@[simp] theorem State.record_faults (e : Event) : (s.record e).faults = s.faults := rfl
@[simp] theorem State.record_refused (e : Event) : (s.record e).refused = s.refused := rfl
@[simp] theorem State.record_cfg (e : Event) : (s.record e).cfg = s.cfg := rfl
@[simp] theorem State.record_main (e : Event) : (s.record e).main = s.main := rfl
@[simp] theorem State.record_inputs (e : Event) : (s.record e).inputs = s.inputs := rfl
@[simp] theorem State.record_turn (e : Event) : (s.record e).turn = s.turn := rfl

/-! `State.respond` writes hist alone. -/

@[simp] theorem State.respond_ien (i : Instr) (v : Word) : (s.respond i v).ien = s.ien := rfl
@[simp] theorem State.respond_ipr (i : Instr) (v : Word) : (s.respond i v).ipr = s.ipr := rfl
@[simp] theorem State.respond_ir (i : Instr) (v : Word) : (s.respond i v).ir = s.ir := rfl
@[simp] theorem State.respond_raw (i : Instr) (v : Word) : (s.respond i v).raw = s.raw := rfl
@[simp] theorem State.respond_gt (i : Instr) (v : Word) : (s.respond i v).gt = s.gt := rfl
@[simp] theorem State.respond_gen (i : Instr) (v : Word) : (s.respond i v).gen = s.gen := rfl
@[simp] theorem State.respond_grp (i : Instr) (v : Word) : (s.respond i v).grp = s.grp := rfl
@[simp] theorem State.respond_src (i : Instr) (v : Word) : (s.respond i v).src = s.src := rfl
@[simp] theorem State.respond_buf (i : Instr) (v : Word) : (s.respond i v).buf = s.buf := rfl
@[simp] theorem State.respond_rd (i : Instr) (v : Word) : (s.respond i v).rd = s.rd := rfl
@[simp] theorem State.respond_wr (i : Instr) (v : Word) : (s.respond i v).wr = s.wr := rfl
@[simp] theorem State.respond_dact (i : Instr) (v : Word) : (s.respond i v).dact = s.dact := rfl
@[simp] theorem State.respond_cs (i : Instr) (v : Word) : (s.respond i v).cs = s.cs := rfl
@[simp] theorem State.respond_mact (i : Instr) (v : Word) : (s.respond i v).mact = s.mact := rfl
@[simp] theorem State.respond_hold (i : Instr) (v : Word) : (s.respond i v).hold = s.hold := rfl
@[simp] theorem State.respond_faults (i : Instr) (v : Word) : (s.respond i v).faults = s.faults := rfl
@[simp] theorem State.respond_refused (i : Instr) (v : Word) : (s.respond i v).refused = s.refused := rfl
@[simp] theorem State.respond_cfg (i : Instr) (v : Word) : (s.respond i v).cfg = s.cfg := rfl
@[simp] theorem State.respond_main (i : Instr) (v : Word) : (s.respond i v).main = s.main := rfl
@[simp] theorem State.respond_inputs (i : Instr) (v : Word) : (s.respond i v).inputs = s.inputs := rfl
@[simp] theorem State.respond_turn (i : Instr) (v : Word) : (s.respond i v).turn = s.turn := rfl

/-! `State.raise` writes faults, hist alone. -/

@[simp] theorem State.raise_ien (f : FaultRec) : (s.raise f).ien = s.ien := rfl
@[simp] theorem State.raise_ipr (f : FaultRec) : (s.raise f).ipr = s.ipr := rfl
@[simp] theorem State.raise_ir (f : FaultRec) : (s.raise f).ir = s.ir := rfl
@[simp] theorem State.raise_raw (f : FaultRec) : (s.raise f).raw = s.raw := rfl
@[simp] theorem State.raise_gt (f : FaultRec) : (s.raise f).gt = s.gt := rfl
@[simp] theorem State.raise_gen (f : FaultRec) : (s.raise f).gen = s.gen := rfl
@[simp] theorem State.raise_grp (f : FaultRec) : (s.raise f).grp = s.grp := rfl
@[simp] theorem State.raise_src (f : FaultRec) : (s.raise f).src = s.src := rfl
@[simp] theorem State.raise_buf (f : FaultRec) : (s.raise f).buf = s.buf := rfl
@[simp] theorem State.raise_rd (f : FaultRec) : (s.raise f).rd = s.rd := rfl
@[simp] theorem State.raise_wr (f : FaultRec) : (s.raise f).wr = s.wr := rfl
@[simp] theorem State.raise_dact (f : FaultRec) : (s.raise f).dact = s.dact := rfl
@[simp] theorem State.raise_cs (f : FaultRec) : (s.raise f).cs = s.cs := rfl
@[simp] theorem State.raise_mact (f : FaultRec) : (s.raise f).mact = s.mact := rfl
@[simp] theorem State.raise_hold (f : FaultRec) : (s.raise f).hold = s.hold := rfl
@[simp] theorem State.raise_refused (f : FaultRec) : (s.raise f).refused = s.refused := rfl
@[simp] theorem State.raise_cfg (f : FaultRec) : (s.raise f).cfg = s.cfg := rfl
@[simp] theorem State.raise_main (f : FaultRec) : (s.raise f).main = s.main := rfl
@[simp] theorem State.raise_inputs (f : FaultRec) : (s.raise f).inputs = s.inputs := rfl
@[simp] theorem State.raise_turn (f : FaultRec) : (s.raise f).turn = s.turn := rfl

/-! `State.refuse` writes refused, hist alone. -/

@[simp] theorem State.refuse_ien (r : RefuseReason) : (s.refuse r).ien = s.ien := rfl
@[simp] theorem State.refuse_ipr (r : RefuseReason) : (s.refuse r).ipr = s.ipr := rfl
@[simp] theorem State.refuse_ir (r : RefuseReason) : (s.refuse r).ir = s.ir := rfl
@[simp] theorem State.refuse_raw (r : RefuseReason) : (s.refuse r).raw = s.raw := rfl
@[simp] theorem State.refuse_gt (r : RefuseReason) : (s.refuse r).gt = s.gt := rfl
@[simp] theorem State.refuse_gen (r : RefuseReason) : (s.refuse r).gen = s.gen := rfl
@[simp] theorem State.refuse_grp (r : RefuseReason) : (s.refuse r).grp = s.grp := rfl
@[simp] theorem State.refuse_src (r : RefuseReason) : (s.refuse r).src = s.src := rfl
@[simp] theorem State.refuse_buf (r : RefuseReason) : (s.refuse r).buf = s.buf := rfl
@[simp] theorem State.refuse_rd (r : RefuseReason) : (s.refuse r).rd = s.rd := rfl
@[simp] theorem State.refuse_wr (r : RefuseReason) : (s.refuse r).wr = s.wr := rfl
@[simp] theorem State.refuse_dact (r : RefuseReason) : (s.refuse r).dact = s.dact := rfl
@[simp] theorem State.refuse_cs (r : RefuseReason) : (s.refuse r).cs = s.cs := rfl
@[simp] theorem State.refuse_mact (r : RefuseReason) : (s.refuse r).mact = s.mact := rfl
@[simp] theorem State.refuse_hold (r : RefuseReason) : (s.refuse r).hold = s.hold := rfl
@[simp] theorem State.refuse_faults (r : RefuseReason) : (s.refuse r).faults = s.faults := rfl
@[simp] theorem State.refuse_cfg (r : RefuseReason) : (s.refuse r).cfg = s.cfg := rfl
@[simp] theorem State.refuse_main (r : RefuseReason) : (s.refuse r).main = s.main := rfl
@[simp] theorem State.refuse_inputs (r : RefuseReason) : (s.refuse r).inputs = s.inputs := rfl
@[simp] theorem State.refuse_turn (r : RefuseReason) : (s.refuse r).turn = s.turn := rfl

/-! `State.setIen` writes ien alone. -/

@[simp] theorem State.setIen_ipr (v : Nat) (b : Bool) : (s.setIen v b).ipr = s.ipr := rfl
@[simp] theorem State.setIen_ir (v : Nat) (b : Bool) : (s.setIen v b).ir = s.ir := rfl
@[simp] theorem State.setIen_raw (v : Nat) (b : Bool) : (s.setIen v b).raw = s.raw := rfl
@[simp] theorem State.setIen_gt (v : Nat) (b : Bool) : (s.setIen v b).gt = s.gt := rfl
@[simp] theorem State.setIen_gen (v : Nat) (b : Bool) : (s.setIen v b).gen = s.gen := rfl
@[simp] theorem State.setIen_grp (v : Nat) (b : Bool) : (s.setIen v b).grp = s.grp := rfl
@[simp] theorem State.setIen_src (v : Nat) (b : Bool) : (s.setIen v b).src = s.src := rfl
@[simp] theorem State.setIen_buf (v : Nat) (b : Bool) : (s.setIen v b).buf = s.buf := rfl
@[simp] theorem State.setIen_rd (v : Nat) (b : Bool) : (s.setIen v b).rd = s.rd := rfl
@[simp] theorem State.setIen_wr (v : Nat) (b : Bool) : (s.setIen v b).wr = s.wr := rfl
@[simp] theorem State.setIen_dact (v : Nat) (b : Bool) : (s.setIen v b).dact = s.dact := rfl
@[simp] theorem State.setIen_cs (v : Nat) (b : Bool) : (s.setIen v b).cs = s.cs := rfl
@[simp] theorem State.setIen_mact (v : Nat) (b : Bool) : (s.setIen v b).mact = s.mact := rfl
@[simp] theorem State.setIen_hold (v : Nat) (b : Bool) : (s.setIen v b).hold = s.hold := rfl
@[simp] theorem State.setIen_faults (v : Nat) (b : Bool) : (s.setIen v b).faults = s.faults := rfl
@[simp] theorem State.setIen_refused (v : Nat) (b : Bool) : (s.setIen v b).refused = s.refused := rfl
@[simp] theorem State.setIen_hist (v : Nat) (b : Bool) : (s.setIen v b).hist = s.hist := rfl
@[simp] theorem State.setIen_cfg (v : Nat) (b : Bool) : (s.setIen v b).cfg = s.cfg := rfl
@[simp] theorem State.setIen_main (v : Nat) (b : Bool) : (s.setIen v b).main = s.main := rfl
@[simp] theorem State.setIen_inputs (v : Nat) (b : Bool) : (s.setIen v b).inputs = s.inputs := rfl
@[simp] theorem State.setIen_turn (v : Nat) (b : Bool) : (s.setIen v b).turn = s.turn := rfl

/-! `State.setIens` writes ien alone. -/

@[simp] theorem State.setIens_ipr (vs : List Nat) (b : Bool) : (s.setIens vs b).ipr = s.ipr := rfl
@[simp] theorem State.setIens_ir (vs : List Nat) (b : Bool) : (s.setIens vs b).ir = s.ir := rfl
@[simp] theorem State.setIens_raw (vs : List Nat) (b : Bool) : (s.setIens vs b).raw = s.raw := rfl
@[simp] theorem State.setIens_gt (vs : List Nat) (b : Bool) : (s.setIens vs b).gt = s.gt := rfl
@[simp] theorem State.setIens_gen (vs : List Nat) (b : Bool) : (s.setIens vs b).gen = s.gen := rfl
@[simp] theorem State.setIens_grp (vs : List Nat) (b : Bool) : (s.setIens vs b).grp = s.grp := rfl
@[simp] theorem State.setIens_src (vs : List Nat) (b : Bool) : (s.setIens vs b).src = s.src := rfl
@[simp] theorem State.setIens_buf (vs : List Nat) (b : Bool) : (s.setIens vs b).buf = s.buf := rfl
@[simp] theorem State.setIens_rd (vs : List Nat) (b : Bool) : (s.setIens vs b).rd = s.rd := rfl
@[simp] theorem State.setIens_wr (vs : List Nat) (b : Bool) : (s.setIens vs b).wr = s.wr := rfl
@[simp] theorem State.setIens_dact (vs : List Nat) (b : Bool) : (s.setIens vs b).dact = s.dact := rfl
@[simp] theorem State.setIens_cs (vs : List Nat) (b : Bool) : (s.setIens vs b).cs = s.cs := rfl
@[simp] theorem State.setIens_mact (vs : List Nat) (b : Bool) : (s.setIens vs b).mact = s.mact := rfl
@[simp] theorem State.setIens_hold (vs : List Nat) (b : Bool) : (s.setIens vs b).hold = s.hold := rfl
@[simp] theorem State.setIens_faults (vs : List Nat) (b : Bool) : (s.setIens vs b).faults = s.faults := rfl
@[simp] theorem State.setIens_refused (vs : List Nat) (b : Bool) : (s.setIens vs b).refused = s.refused := rfl
@[simp] theorem State.setIens_hist (vs : List Nat) (b : Bool) : (s.setIens vs b).hist = s.hist := rfl
@[simp] theorem State.setIens_cfg (vs : List Nat) (b : Bool) : (s.setIens vs b).cfg = s.cfg := rfl
@[simp] theorem State.setIens_main (vs : List Nat) (b : Bool) : (s.setIens vs b).main = s.main := rfl
@[simp] theorem State.setIens_inputs (vs : List Nat) (b : Bool) : (s.setIens vs b).inputs = s.inputs := rfl
@[simp] theorem State.setIens_turn (vs : List Nat) (b : Bool) : (s.setIens vs b).turn = s.turn := rfl

/-! `State.setIpr` writes ipr alone. -/

@[simp] theorem State.setIpr_ien (f : Nat) (p : BitVec 8) : (s.setIpr f p).ien = s.ien := rfl
@[simp] theorem State.setIpr_ir (f : Nat) (p : BitVec 8) : (s.setIpr f p).ir = s.ir := rfl
@[simp] theorem State.setIpr_raw (f : Nat) (p : BitVec 8) : (s.setIpr f p).raw = s.raw := rfl
@[simp] theorem State.setIpr_gt (f : Nat) (p : BitVec 8) : (s.setIpr f p).gt = s.gt := rfl
@[simp] theorem State.setIpr_gen (f : Nat) (p : BitVec 8) : (s.setIpr f p).gen = s.gen := rfl
@[simp] theorem State.setIpr_grp (f : Nat) (p : BitVec 8) : (s.setIpr f p).grp = s.grp := rfl
@[simp] theorem State.setIpr_src (f : Nat) (p : BitVec 8) : (s.setIpr f p).src = s.src := rfl
@[simp] theorem State.setIpr_buf (f : Nat) (p : BitVec 8) : (s.setIpr f p).buf = s.buf := rfl
@[simp] theorem State.setIpr_rd (f : Nat) (p : BitVec 8) : (s.setIpr f p).rd = s.rd := rfl
@[simp] theorem State.setIpr_wr (f : Nat) (p : BitVec 8) : (s.setIpr f p).wr = s.wr := rfl
@[simp] theorem State.setIpr_dact (f : Nat) (p : BitVec 8) : (s.setIpr f p).dact = s.dact := rfl
@[simp] theorem State.setIpr_cs (f : Nat) (p : BitVec 8) : (s.setIpr f p).cs = s.cs := rfl
@[simp] theorem State.setIpr_mact (f : Nat) (p : BitVec 8) : (s.setIpr f p).mact = s.mact := rfl
@[simp] theorem State.setIpr_hold (f : Nat) (p : BitVec 8) : (s.setIpr f p).hold = s.hold := rfl
@[simp] theorem State.setIpr_faults (f : Nat) (p : BitVec 8) : (s.setIpr f p).faults = s.faults := rfl
@[simp] theorem State.setIpr_refused (f : Nat) (p : BitVec 8) : (s.setIpr f p).refused = s.refused := rfl
@[simp] theorem State.setIpr_hist (f : Nat) (p : BitVec 8) : (s.setIpr f p).hist = s.hist := rfl
@[simp] theorem State.setIpr_cfg (f : Nat) (p : BitVec 8) : (s.setIpr f p).cfg = s.cfg := rfl
@[simp] theorem State.setIpr_main (f : Nat) (p : BitVec 8) : (s.setIpr f p).main = s.main := rfl
@[simp] theorem State.setIpr_inputs (f : Nat) (p : BitVec 8) : (s.setIpr f p).inputs = s.inputs := rfl
@[simp] theorem State.setIpr_turn (f : Nat) (p : BitVec 8) : (s.setIpr f p).turn = s.turn := rfl

/-! `State.setIr` writes ir alone. -/

@[simp] theorem State.setIr_ien (v : Nat) (b : Bool) : (s.setIr v b).ien = s.ien := rfl
@[simp] theorem State.setIr_ipr (v : Nat) (b : Bool) : (s.setIr v b).ipr = s.ipr := rfl
@[simp] theorem State.setIr_raw (v : Nat) (b : Bool) : (s.setIr v b).raw = s.raw := rfl
@[simp] theorem State.setIr_gt (v : Nat) (b : Bool) : (s.setIr v b).gt = s.gt := rfl
@[simp] theorem State.setIr_gen (v : Nat) (b : Bool) : (s.setIr v b).gen = s.gen := rfl
@[simp] theorem State.setIr_grp (v : Nat) (b : Bool) : (s.setIr v b).grp = s.grp := rfl
@[simp] theorem State.setIr_src (v : Nat) (b : Bool) : (s.setIr v b).src = s.src := rfl
@[simp] theorem State.setIr_buf (v : Nat) (b : Bool) : (s.setIr v b).buf = s.buf := rfl
@[simp] theorem State.setIr_rd (v : Nat) (b : Bool) : (s.setIr v b).rd = s.rd := rfl
@[simp] theorem State.setIr_wr (v : Nat) (b : Bool) : (s.setIr v b).wr = s.wr := rfl
@[simp] theorem State.setIr_dact (v : Nat) (b : Bool) : (s.setIr v b).dact = s.dact := rfl
@[simp] theorem State.setIr_cs (v : Nat) (b : Bool) : (s.setIr v b).cs = s.cs := rfl
@[simp] theorem State.setIr_mact (v : Nat) (b : Bool) : (s.setIr v b).mact = s.mact := rfl
@[simp] theorem State.setIr_hold (v : Nat) (b : Bool) : (s.setIr v b).hold = s.hold := rfl
@[simp] theorem State.setIr_faults (v : Nat) (b : Bool) : (s.setIr v b).faults = s.faults := rfl
@[simp] theorem State.setIr_refused (v : Nat) (b : Bool) : (s.setIr v b).refused = s.refused := rfl
@[simp] theorem State.setIr_hist (v : Nat) (b : Bool) : (s.setIr v b).hist = s.hist := rfl
@[simp] theorem State.setIr_cfg (v : Nat) (b : Bool) : (s.setIr v b).cfg = s.cfg := rfl
@[simp] theorem State.setIr_main (v : Nat) (b : Bool) : (s.setIr v b).main = s.main := rfl
@[simp] theorem State.setIr_inputs (v : Nat) (b : Bool) : (s.setIr v b).inputs = s.inputs := rfl
@[simp] theorem State.setIr_turn (v : Nat) (b : Bool) : (s.setIr v b).turn = s.turn := rfl

/-! `State.setRaw` writes raw alone. -/

@[simp] theorem State.setRaw_ien (v : Nat) (x : Slot) : (s.setRaw v x).ien = s.ien := rfl
@[simp] theorem State.setRaw_ipr (v : Nat) (x : Slot) : (s.setRaw v x).ipr = s.ipr := rfl
@[simp] theorem State.setRaw_ir (v : Nat) (x : Slot) : (s.setRaw v x).ir = s.ir := rfl
@[simp] theorem State.setRaw_gt (v : Nat) (x : Slot) : (s.setRaw v x).gt = s.gt := rfl
@[simp] theorem State.setRaw_gen (v : Nat) (x : Slot) : (s.setRaw v x).gen = s.gen := rfl
@[simp] theorem State.setRaw_grp (v : Nat) (x : Slot) : (s.setRaw v x).grp = s.grp := rfl
@[simp] theorem State.setRaw_src (v : Nat) (x : Slot) : (s.setRaw v x).src = s.src := rfl
@[simp] theorem State.setRaw_buf (v : Nat) (x : Slot) : (s.setRaw v x).buf = s.buf := rfl
@[simp] theorem State.setRaw_rd (v : Nat) (x : Slot) : (s.setRaw v x).rd = s.rd := rfl
@[simp] theorem State.setRaw_wr (v : Nat) (x : Slot) : (s.setRaw v x).wr = s.wr := rfl
@[simp] theorem State.setRaw_dact (v : Nat) (x : Slot) : (s.setRaw v x).dact = s.dact := rfl
@[simp] theorem State.setRaw_cs (v : Nat) (x : Slot) : (s.setRaw v x).cs = s.cs := rfl
@[simp] theorem State.setRaw_mact (v : Nat) (x : Slot) : (s.setRaw v x).mact = s.mact := rfl
@[simp] theorem State.setRaw_hold (v : Nat) (x : Slot) : (s.setRaw v x).hold = s.hold := rfl
@[simp] theorem State.setRaw_faults (v : Nat) (x : Slot) : (s.setRaw v x).faults = s.faults := rfl
@[simp] theorem State.setRaw_refused (v : Nat) (x : Slot) : (s.setRaw v x).refused = s.refused := rfl
@[simp] theorem State.setRaw_hist (v : Nat) (x : Slot) : (s.setRaw v x).hist = s.hist := rfl
@[simp] theorem State.setRaw_cfg (v : Nat) (x : Slot) : (s.setRaw v x).cfg = s.cfg := rfl
@[simp] theorem State.setRaw_main (v : Nat) (x : Slot) : (s.setRaw v x).main = s.main := rfl
@[simp] theorem State.setRaw_inputs (v : Nat) (x : Slot) : (s.setRaw v x).inputs = s.inputs := rfl
@[simp] theorem State.setRaw_turn (v : Nat) (x : Slot) : (s.setRaw v x).turn = s.turn := rfl

/-! `State.setGt` writes gt alone. -/

@[simp] theorem State.setGt_ien (g i : Nat) (x : Slot) : (s.setGt g i x).ien = s.ien := rfl
@[simp] theorem State.setGt_ipr (g i : Nat) (x : Slot) : (s.setGt g i x).ipr = s.ipr := rfl
@[simp] theorem State.setGt_ir (g i : Nat) (x : Slot) : (s.setGt g i x).ir = s.ir := rfl
@[simp] theorem State.setGt_raw (g i : Nat) (x : Slot) : (s.setGt g i x).raw = s.raw := rfl
@[simp] theorem State.setGt_gen (g i : Nat) (x : Slot) : (s.setGt g i x).gen = s.gen := rfl
@[simp] theorem State.setGt_grp (g i : Nat) (x : Slot) : (s.setGt g i x).grp = s.grp := rfl
@[simp] theorem State.setGt_src (g i : Nat) (x : Slot) : (s.setGt g i x).src = s.src := rfl
@[simp] theorem State.setGt_buf (g i : Nat) (x : Slot) : (s.setGt g i x).buf = s.buf := rfl
@[simp] theorem State.setGt_rd (g i : Nat) (x : Slot) : (s.setGt g i x).rd = s.rd := rfl
@[simp] theorem State.setGt_wr (g i : Nat) (x : Slot) : (s.setGt g i x).wr = s.wr := rfl
@[simp] theorem State.setGt_dact (g i : Nat) (x : Slot) : (s.setGt g i x).dact = s.dact := rfl
@[simp] theorem State.setGt_cs (g i : Nat) (x : Slot) : (s.setGt g i x).cs = s.cs := rfl
@[simp] theorem State.setGt_mact (g i : Nat) (x : Slot) : (s.setGt g i x).mact = s.mact := rfl
@[simp] theorem State.setGt_hold (g i : Nat) (x : Slot) : (s.setGt g i x).hold = s.hold := rfl
@[simp] theorem State.setGt_faults (g i : Nat) (x : Slot) : (s.setGt g i x).faults = s.faults := rfl
@[simp] theorem State.setGt_refused (g i : Nat) (x : Slot) : (s.setGt g i x).refused = s.refused := rfl
@[simp] theorem State.setGt_hist (g i : Nat) (x : Slot) : (s.setGt g i x).hist = s.hist := rfl
@[simp] theorem State.setGt_cfg (g i : Nat) (x : Slot) : (s.setGt g i x).cfg = s.cfg := rfl
@[simp] theorem State.setGt_main (g i : Nat) (x : Slot) : (s.setGt g i x).main = s.main := rfl
@[simp] theorem State.setGt_inputs (g i : Nat) (x : Slot) : (s.setGt g i x).inputs = s.inputs := rfl
@[simp] theorem State.setGt_turn (g i : Nat) (x : Slot) : (s.setGt g i x).turn = s.turn := rfl

/-! `State.setGenBit` writes gen alone. -/

@[simp] theorem State.setGenBit_ien (g i : Nat) (b : Bool) : (s.setGenBit g i b).ien = s.ien := rfl
@[simp] theorem State.setGenBit_ipr (g i : Nat) (b : Bool) : (s.setGenBit g i b).ipr = s.ipr := rfl
@[simp] theorem State.setGenBit_ir (g i : Nat) (b : Bool) : (s.setGenBit g i b).ir = s.ir := rfl
@[simp] theorem State.setGenBit_raw (g i : Nat) (b : Bool) : (s.setGenBit g i b).raw = s.raw := rfl
@[simp] theorem State.setGenBit_gt (g i : Nat) (b : Bool) : (s.setGenBit g i b).gt = s.gt := rfl
@[simp] theorem State.setGenBit_grp (g i : Nat) (b : Bool) : (s.setGenBit g i b).grp = s.grp := rfl
@[simp] theorem State.setGenBit_src (g i : Nat) (b : Bool) : (s.setGenBit g i b).src = s.src := rfl
@[simp] theorem State.setGenBit_buf (g i : Nat) (b : Bool) : (s.setGenBit g i b).buf = s.buf := rfl
@[simp] theorem State.setGenBit_rd (g i : Nat) (b : Bool) : (s.setGenBit g i b).rd = s.rd := rfl
@[simp] theorem State.setGenBit_wr (g i : Nat) (b : Bool) : (s.setGenBit g i b).wr = s.wr := rfl
@[simp] theorem State.setGenBit_dact (g i : Nat) (b : Bool) : (s.setGenBit g i b).dact = s.dact := rfl
@[simp] theorem State.setGenBit_cs (g i : Nat) (b : Bool) : (s.setGenBit g i b).cs = s.cs := rfl
@[simp] theorem State.setGenBit_mact (g i : Nat) (b : Bool) : (s.setGenBit g i b).mact = s.mact := rfl
@[simp] theorem State.setGenBit_hold (g i : Nat) (b : Bool) : (s.setGenBit g i b).hold = s.hold := rfl
@[simp] theorem State.setGenBit_faults (g i : Nat) (b : Bool) : (s.setGenBit g i b).faults = s.faults := rfl
@[simp] theorem State.setGenBit_refused (g i : Nat) (b : Bool) : (s.setGenBit g i b).refused = s.refused := rfl
@[simp] theorem State.setGenBit_hist (g i : Nat) (b : Bool) : (s.setGenBit g i b).hist = s.hist := rfl
@[simp] theorem State.setGenBit_cfg (g i : Nat) (b : Bool) : (s.setGenBit g i b).cfg = s.cfg := rfl
@[simp] theorem State.setGenBit_main (g i : Nat) (b : Bool) : (s.setGenBit g i b).main = s.main := rfl
@[simp] theorem State.setGenBit_inputs (g i : Nat) (b : Bool) : (s.setGenBit g i b).inputs = s.inputs := rfl
@[simp] theorem State.setGenBit_turn (g i : Nat) (b : Bool) : (s.setGenBit g i b).turn = s.turn := rfl

/-! `State.setGrpBit` writes grp alone. -/

@[simp] theorem State.setGrpBit_ien (g i : Nat) (b : Bool) : (s.setGrpBit g i b).ien = s.ien := rfl
@[simp] theorem State.setGrpBit_ipr (g i : Nat) (b : Bool) : (s.setGrpBit g i b).ipr = s.ipr := rfl
@[simp] theorem State.setGrpBit_ir (g i : Nat) (b : Bool) : (s.setGrpBit g i b).ir = s.ir := rfl
@[simp] theorem State.setGrpBit_raw (g i : Nat) (b : Bool) : (s.setGrpBit g i b).raw = s.raw := rfl
@[simp] theorem State.setGrpBit_gt (g i : Nat) (b : Bool) : (s.setGrpBit g i b).gt = s.gt := rfl
@[simp] theorem State.setGrpBit_gen (g i : Nat) (b : Bool) : (s.setGrpBit g i b).gen = s.gen := rfl
@[simp] theorem State.setGrpBit_src (g i : Nat) (b : Bool) : (s.setGrpBit g i b).src = s.src := rfl
@[simp] theorem State.setGrpBit_buf (g i : Nat) (b : Bool) : (s.setGrpBit g i b).buf = s.buf := rfl
@[simp] theorem State.setGrpBit_rd (g i : Nat) (b : Bool) : (s.setGrpBit g i b).rd = s.rd := rfl
@[simp] theorem State.setGrpBit_wr (g i : Nat) (b : Bool) : (s.setGrpBit g i b).wr = s.wr := rfl
@[simp] theorem State.setGrpBit_dact (g i : Nat) (b : Bool) : (s.setGrpBit g i b).dact = s.dact := rfl
@[simp] theorem State.setGrpBit_cs (g i : Nat) (b : Bool) : (s.setGrpBit g i b).cs = s.cs := rfl
@[simp] theorem State.setGrpBit_mact (g i : Nat) (b : Bool) : (s.setGrpBit g i b).mact = s.mact := rfl
@[simp] theorem State.setGrpBit_hold (g i : Nat) (b : Bool) : (s.setGrpBit g i b).hold = s.hold := rfl
@[simp] theorem State.setGrpBit_faults (g i : Nat) (b : Bool) : (s.setGrpBit g i b).faults = s.faults := rfl
@[simp] theorem State.setGrpBit_refused (g i : Nat) (b : Bool) : (s.setGrpBit g i b).refused = s.refused := rfl
@[simp] theorem State.setGrpBit_hist (g i : Nat) (b : Bool) : (s.setGrpBit g i b).hist = s.hist := rfl
@[simp] theorem State.setGrpBit_cfg (g i : Nat) (b : Bool) : (s.setGrpBit g i b).cfg = s.cfg := rfl
@[simp] theorem State.setGrpBit_main (g i : Nat) (b : Bool) : (s.setGrpBit g i b).main = s.main := rfl
@[simp] theorem State.setGrpBit_inputs (g i : Nat) (b : Bool) : (s.setGrpBit g i b).inputs = s.inputs := rfl
@[simp] theorem State.setGrpBit_turn (g i : Nat) (b : Bool) : (s.setGrpBit g i b).turn = s.turn := rfl

/-! `State.setSrcBit` writes src alone. -/

@[simp] theorem State.setSrcBit_ien (g i : Nat) (b : Bool) : (s.setSrcBit g i b).ien = s.ien := rfl
@[simp] theorem State.setSrcBit_ipr (g i : Nat) (b : Bool) : (s.setSrcBit g i b).ipr = s.ipr := rfl
@[simp] theorem State.setSrcBit_ir (g i : Nat) (b : Bool) : (s.setSrcBit g i b).ir = s.ir := rfl
@[simp] theorem State.setSrcBit_raw (g i : Nat) (b : Bool) : (s.setSrcBit g i b).raw = s.raw := rfl
@[simp] theorem State.setSrcBit_gt (g i : Nat) (b : Bool) : (s.setSrcBit g i b).gt = s.gt := rfl
@[simp] theorem State.setSrcBit_gen (g i : Nat) (b : Bool) : (s.setSrcBit g i b).gen = s.gen := rfl
@[simp] theorem State.setSrcBit_grp (g i : Nat) (b : Bool) : (s.setSrcBit g i b).grp = s.grp := rfl
@[simp] theorem State.setSrcBit_buf (g i : Nat) (b : Bool) : (s.setSrcBit g i b).buf = s.buf := rfl
@[simp] theorem State.setSrcBit_rd (g i : Nat) (b : Bool) : (s.setSrcBit g i b).rd = s.rd := rfl
@[simp] theorem State.setSrcBit_wr (g i : Nat) (b : Bool) : (s.setSrcBit g i b).wr = s.wr := rfl
@[simp] theorem State.setSrcBit_dact (g i : Nat) (b : Bool) : (s.setSrcBit g i b).dact = s.dact := rfl
@[simp] theorem State.setSrcBit_cs (g i : Nat) (b : Bool) : (s.setSrcBit g i b).cs = s.cs := rfl
@[simp] theorem State.setSrcBit_mact (g i : Nat) (b : Bool) : (s.setSrcBit g i b).mact = s.mact := rfl
@[simp] theorem State.setSrcBit_hold (g i : Nat) (b : Bool) : (s.setSrcBit g i b).hold = s.hold := rfl
@[simp] theorem State.setSrcBit_faults (g i : Nat) (b : Bool) : (s.setSrcBit g i b).faults = s.faults := rfl
@[simp] theorem State.setSrcBit_refused (g i : Nat) (b : Bool) : (s.setSrcBit g i b).refused = s.refused := rfl
@[simp] theorem State.setSrcBit_hist (g i : Nat) (b : Bool) : (s.setSrcBit g i b).hist = s.hist := rfl
@[simp] theorem State.setSrcBit_cfg (g i : Nat) (b : Bool) : (s.setSrcBit g i b).cfg = s.cfg := rfl
@[simp] theorem State.setSrcBit_main (g i : Nat) (b : Bool) : (s.setSrcBit g i b).main = s.main := rfl
@[simp] theorem State.setSrcBit_inputs (g i : Nat) (b : Bool) : (s.setSrcBit g i b).inputs = s.inputs := rfl
@[simp] theorem State.setSrcBit_turn (g i : Nat) (b : Bool) : (s.setSrcBit g i b).turn = s.turn := rfl

/-! `State.setDact` writes dact alone. -/

@[simp] theorem State.setDact_ien (g : Nat) (d : DemuxStatus) : (s.setDact g d).ien = s.ien := rfl
@[simp] theorem State.setDact_ipr (g : Nat) (d : DemuxStatus) : (s.setDact g d).ipr = s.ipr := rfl
@[simp] theorem State.setDact_ir (g : Nat) (d : DemuxStatus) : (s.setDact g d).ir = s.ir := rfl
@[simp] theorem State.setDact_raw (g : Nat) (d : DemuxStatus) : (s.setDact g d).raw = s.raw := rfl
@[simp] theorem State.setDact_gt (g : Nat) (d : DemuxStatus) : (s.setDact g d).gt = s.gt := rfl
@[simp] theorem State.setDact_gen (g : Nat) (d : DemuxStatus) : (s.setDact g d).gen = s.gen := rfl
@[simp] theorem State.setDact_grp (g : Nat) (d : DemuxStatus) : (s.setDact g d).grp = s.grp := rfl
@[simp] theorem State.setDact_src (g : Nat) (d : DemuxStatus) : (s.setDact g d).src = s.src := rfl
@[simp] theorem State.setDact_buf (g : Nat) (d : DemuxStatus) : (s.setDact g d).buf = s.buf := rfl
@[simp] theorem State.setDact_rd (g : Nat) (d : DemuxStatus) : (s.setDact g d).rd = s.rd := rfl
@[simp] theorem State.setDact_wr (g : Nat) (d : DemuxStatus) : (s.setDact g d).wr = s.wr := rfl
@[simp] theorem State.setDact_cs (g : Nat) (d : DemuxStatus) : (s.setDact g d).cs = s.cs := rfl
@[simp] theorem State.setDact_mact (g : Nat) (d : DemuxStatus) : (s.setDact g d).mact = s.mact := rfl
@[simp] theorem State.setDact_hold (g : Nat) (d : DemuxStatus) : (s.setDact g d).hold = s.hold := rfl
@[simp] theorem State.setDact_faults (g : Nat) (d : DemuxStatus) : (s.setDact g d).faults = s.faults := rfl
@[simp] theorem State.setDact_refused (g : Nat) (d : DemuxStatus) : (s.setDact g d).refused = s.refused := rfl
@[simp] theorem State.setDact_hist (g : Nat) (d : DemuxStatus) : (s.setDact g d).hist = s.hist := rfl
@[simp] theorem State.setDact_cfg (g : Nat) (d : DemuxStatus) : (s.setDact g d).cfg = s.cfg := rfl
@[simp] theorem State.setDact_main (g : Nat) (d : DemuxStatus) : (s.setDact g d).main = s.main := rfl
@[simp] theorem State.setDact_inputs (g : Nat) (d : DemuxStatus) : (s.setDact g d).inputs = s.inputs := rfl
@[simp] theorem State.setDact_turn (g : Nat) (d : DemuxStatus) : (s.setDact g d).turn = s.turn := rfl

/-! `State.installTask` writes gt, raw, gen alone. -/

@[simp] theorem State.installTask_ien (g i : Nat) (x : Slot) : (s.installTask g i x).ien = s.ien := rfl
@[simp] theorem State.installTask_ipr (g i : Nat) (x : Slot) : (s.installTask g i x).ipr = s.ipr := rfl
@[simp] theorem State.installTask_ir (g i : Nat) (x : Slot) : (s.installTask g i x).ir = s.ir := rfl
@[simp] theorem State.installTask_grp (g i : Nat) (x : Slot) : (s.installTask g i x).grp = s.grp := rfl
@[simp] theorem State.installTask_src (g i : Nat) (x : Slot) : (s.installTask g i x).src = s.src := rfl
@[simp] theorem State.installTask_buf (g i : Nat) (x : Slot) : (s.installTask g i x).buf = s.buf := rfl
@[simp] theorem State.installTask_rd (g i : Nat) (x : Slot) : (s.installTask g i x).rd = s.rd := rfl
@[simp] theorem State.installTask_wr (g i : Nat) (x : Slot) : (s.installTask g i x).wr = s.wr := rfl
@[simp] theorem State.installTask_dact (g i : Nat) (x : Slot) : (s.installTask g i x).dact = s.dact := rfl
@[simp] theorem State.installTask_cs (g i : Nat) (x : Slot) : (s.installTask g i x).cs = s.cs := rfl
@[simp] theorem State.installTask_mact (g i : Nat) (x : Slot) : (s.installTask g i x).mact = s.mact := rfl
@[simp] theorem State.installTask_hold (g i : Nat) (x : Slot) : (s.installTask g i x).hold = s.hold := rfl
@[simp] theorem State.installTask_faults (g i : Nat) (x : Slot) : (s.installTask g i x).faults = s.faults := rfl
@[simp] theorem State.installTask_refused (g i : Nat) (x : Slot) : (s.installTask g i x).refused = s.refused := rfl
@[simp] theorem State.installTask_hist (g i : Nat) (x : Slot) : (s.installTask g i x).hist = s.hist := rfl
@[simp] theorem State.installTask_cfg (g i : Nat) (x : Slot) : (s.installTask g i x).cfg = s.cfg := rfl
@[simp] theorem State.installTask_main (g i : Nat) (x : Slot) : (s.installTask g i x).main = s.main := rfl
@[simp] theorem State.installTask_inputs (g i : Nat) (x : Slot) : (s.installTask g i x).inputs = s.inputs := rfl
@[simp] theorem State.installTask_turn (g i : Nat) (x : Slot) : (s.installTask g i x).turn = s.turn := rfl

/-! `State.bufWrite` writes buf alone. -/

@[simp] theorem State.bufWrite_ien (q i : Nat) (b : Byte) : (s.bufWrite q i b).ien = s.ien := rfl
@[simp] theorem State.bufWrite_ipr (q i : Nat) (b : Byte) : (s.bufWrite q i b).ipr = s.ipr := rfl
@[simp] theorem State.bufWrite_ir (q i : Nat) (b : Byte) : (s.bufWrite q i b).ir = s.ir := rfl
@[simp] theorem State.bufWrite_raw (q i : Nat) (b : Byte) : (s.bufWrite q i b).raw = s.raw := rfl
@[simp] theorem State.bufWrite_gt (q i : Nat) (b : Byte) : (s.bufWrite q i b).gt = s.gt := rfl
@[simp] theorem State.bufWrite_gen (q i : Nat) (b : Byte) : (s.bufWrite q i b).gen = s.gen := rfl
@[simp] theorem State.bufWrite_grp (q i : Nat) (b : Byte) : (s.bufWrite q i b).grp = s.grp := rfl
@[simp] theorem State.bufWrite_src (q i : Nat) (b : Byte) : (s.bufWrite q i b).src = s.src := rfl
@[simp] theorem State.bufWrite_rd (q i : Nat) (b : Byte) : (s.bufWrite q i b).rd = s.rd := rfl
@[simp] theorem State.bufWrite_wr (q i : Nat) (b : Byte) : (s.bufWrite q i b).wr = s.wr := rfl
@[simp] theorem State.bufWrite_dact (q i : Nat) (b : Byte) : (s.bufWrite q i b).dact = s.dact := rfl
@[simp] theorem State.bufWrite_cs (q i : Nat) (b : Byte) : (s.bufWrite q i b).cs = s.cs := rfl
@[simp] theorem State.bufWrite_mact (q i : Nat) (b : Byte) : (s.bufWrite q i b).mact = s.mact := rfl
@[simp] theorem State.bufWrite_hold (q i : Nat) (b : Byte) : (s.bufWrite q i b).hold = s.hold := rfl
@[simp] theorem State.bufWrite_faults (q i : Nat) (b : Byte) : (s.bufWrite q i b).faults = s.faults := rfl
@[simp] theorem State.bufWrite_refused (q i : Nat) (b : Byte) : (s.bufWrite q i b).refused = s.refused := rfl
@[simp] theorem State.bufWrite_hist (q i : Nat) (b : Byte) : (s.bufWrite q i b).hist = s.hist := rfl
@[simp] theorem State.bufWrite_cfg (q i : Nat) (b : Byte) : (s.bufWrite q i b).cfg = s.cfg := rfl
@[simp] theorem State.bufWrite_main (q i : Nat) (b : Byte) : (s.bufWrite q i b).main = s.main := rfl
@[simp] theorem State.bufWrite_inputs (q i : Nat) (b : Byte) : (s.bufWrite q i b).inputs = s.inputs := rfl
@[simp] theorem State.bufWrite_turn (q i : Nat) (b : Byte) : (s.bufWrite q i b).turn = s.turn := rfl

/-! `State.queuePut` writes buf, wr alone. -/

@[simp] theorem State.queuePut_ien (q : QueueRow) (b : Byte) : (s.queuePut q b).ien = s.ien := rfl
@[simp] theorem State.queuePut_ipr (q : QueueRow) (b : Byte) : (s.queuePut q b).ipr = s.ipr := rfl
@[simp] theorem State.queuePut_ir (q : QueueRow) (b : Byte) : (s.queuePut q b).ir = s.ir := rfl
@[simp] theorem State.queuePut_raw (q : QueueRow) (b : Byte) : (s.queuePut q b).raw = s.raw := rfl
@[simp] theorem State.queuePut_gt (q : QueueRow) (b : Byte) : (s.queuePut q b).gt = s.gt := rfl
@[simp] theorem State.queuePut_gen (q : QueueRow) (b : Byte) : (s.queuePut q b).gen = s.gen := rfl
@[simp] theorem State.queuePut_grp (q : QueueRow) (b : Byte) : (s.queuePut q b).grp = s.grp := rfl
@[simp] theorem State.queuePut_src (q : QueueRow) (b : Byte) : (s.queuePut q b).src = s.src := rfl
@[simp] theorem State.queuePut_rd (q : QueueRow) (b : Byte) : (s.queuePut q b).rd = s.rd := rfl
@[simp] theorem State.queuePut_dact (q : QueueRow) (b : Byte) : (s.queuePut q b).dact = s.dact := rfl
@[simp] theorem State.queuePut_cs (q : QueueRow) (b : Byte) : (s.queuePut q b).cs = s.cs := rfl
@[simp] theorem State.queuePut_mact (q : QueueRow) (b : Byte) : (s.queuePut q b).mact = s.mact := rfl
@[simp] theorem State.queuePut_hold (q : QueueRow) (b : Byte) : (s.queuePut q b).hold = s.hold := rfl
@[simp] theorem State.queuePut_faults (q : QueueRow) (b : Byte) : (s.queuePut q b).faults = s.faults := rfl
@[simp] theorem State.queuePut_refused (q : QueueRow) (b : Byte) : (s.queuePut q b).refused = s.refused := rfl
@[simp] theorem State.queuePut_hist (q : QueueRow) (b : Byte) : (s.queuePut q b).hist = s.hist := rfl
@[simp] theorem State.queuePut_cfg (q : QueueRow) (b : Byte) : (s.queuePut q b).cfg = s.cfg := rfl
@[simp] theorem State.queuePut_main (q : QueueRow) (b : Byte) : (s.queuePut q b).main = s.main := rfl
@[simp] theorem State.queuePut_inputs (q : QueueRow) (b : Byte) : (s.queuePut q b).inputs = s.inputs := rfl
@[simp] theorem State.queuePut_turn (q : QueueRow) (b : Byte) : (s.queuePut q b).turn = s.turn := rfl

/-! `State.queueAdvance` writes rd alone. -/

@[simp] theorem State.queueAdvance_ien (q : QueueRow) : (s.queueAdvance q).ien = s.ien := rfl
@[simp] theorem State.queueAdvance_ipr (q : QueueRow) : (s.queueAdvance q).ipr = s.ipr := rfl
@[simp] theorem State.queueAdvance_ir (q : QueueRow) : (s.queueAdvance q).ir = s.ir := rfl
@[simp] theorem State.queueAdvance_raw (q : QueueRow) : (s.queueAdvance q).raw = s.raw := rfl
@[simp] theorem State.queueAdvance_gt (q : QueueRow) : (s.queueAdvance q).gt = s.gt := rfl
@[simp] theorem State.queueAdvance_gen (q : QueueRow) : (s.queueAdvance q).gen = s.gen := rfl
@[simp] theorem State.queueAdvance_grp (q : QueueRow) : (s.queueAdvance q).grp = s.grp := rfl
@[simp] theorem State.queueAdvance_src (q : QueueRow) : (s.queueAdvance q).src = s.src := rfl
@[simp] theorem State.queueAdvance_buf (q : QueueRow) : (s.queueAdvance q).buf = s.buf := rfl
@[simp] theorem State.queueAdvance_wr (q : QueueRow) : (s.queueAdvance q).wr = s.wr := rfl
@[simp] theorem State.queueAdvance_dact (q : QueueRow) : (s.queueAdvance q).dact = s.dact := rfl
@[simp] theorem State.queueAdvance_cs (q : QueueRow) : (s.queueAdvance q).cs = s.cs := rfl
@[simp] theorem State.queueAdvance_mact (q : QueueRow) : (s.queueAdvance q).mact = s.mact := rfl
@[simp] theorem State.queueAdvance_hold (q : QueueRow) : (s.queueAdvance q).hold = s.hold := rfl
@[simp] theorem State.queueAdvance_faults (q : QueueRow) : (s.queueAdvance q).faults = s.faults := rfl
@[simp] theorem State.queueAdvance_refused (q : QueueRow) : (s.queueAdvance q).refused = s.refused := rfl
@[simp] theorem State.queueAdvance_hist (q : QueueRow) : (s.queueAdvance q).hist = s.hist := rfl
@[simp] theorem State.queueAdvance_cfg (q : QueueRow) : (s.queueAdvance q).cfg = s.cfg := rfl
@[simp] theorem State.queueAdvance_main (q : QueueRow) : (s.queueAdvance q).main = s.main := rfl
@[simp] theorem State.queueAdvance_inputs (q : QueueRow) : (s.queueAdvance q).inputs = s.inputs := rfl
@[simp] theorem State.queueAdvance_turn (q : QueueRow) : (s.queueAdvance q).turn = s.turn := rfl

/-! `State.holdOn` writes hold alone. -/

@[simp] theorem State.holdOn_ien (q : Nat) : (s.holdOn q).ien = s.ien := rfl
@[simp] theorem State.holdOn_ipr (q : Nat) : (s.holdOn q).ipr = s.ipr := rfl
@[simp] theorem State.holdOn_ir (q : Nat) : (s.holdOn q).ir = s.ir := rfl
@[simp] theorem State.holdOn_raw (q : Nat) : (s.holdOn q).raw = s.raw := rfl
@[simp] theorem State.holdOn_gt (q : Nat) : (s.holdOn q).gt = s.gt := rfl
@[simp] theorem State.holdOn_gen (q : Nat) : (s.holdOn q).gen = s.gen := rfl
@[simp] theorem State.holdOn_grp (q : Nat) : (s.holdOn q).grp = s.grp := rfl
@[simp] theorem State.holdOn_src (q : Nat) : (s.holdOn q).src = s.src := rfl
@[simp] theorem State.holdOn_buf (q : Nat) : (s.holdOn q).buf = s.buf := rfl
@[simp] theorem State.holdOn_rd (q : Nat) : (s.holdOn q).rd = s.rd := rfl
@[simp] theorem State.holdOn_wr (q : Nat) : (s.holdOn q).wr = s.wr := rfl
@[simp] theorem State.holdOn_dact (q : Nat) : (s.holdOn q).dact = s.dact := rfl
@[simp] theorem State.holdOn_cs (q : Nat) : (s.holdOn q).cs = s.cs := rfl
@[simp] theorem State.holdOn_mact (q : Nat) : (s.holdOn q).mact = s.mact := rfl
@[simp] theorem State.holdOn_faults (q : Nat) : (s.holdOn q).faults = s.faults := rfl
@[simp] theorem State.holdOn_refused (q : Nat) : (s.holdOn q).refused = s.refused := rfl
@[simp] theorem State.holdOn_hist (q : Nat) : (s.holdOn q).hist = s.hist := rfl
@[simp] theorem State.holdOn_cfg (q : Nat) : (s.holdOn q).cfg = s.cfg := rfl
@[simp] theorem State.holdOn_main (q : Nat) : (s.holdOn q).main = s.main := rfl
@[simp] theorem State.holdOn_inputs (q : Nat) : (s.holdOn q).inputs = s.inputs := rfl
@[simp] theorem State.holdOn_turn (q : Nat) : (s.holdOn q).turn = s.turn := rfl

/-! `State.release` writes hold alone. -/

@[simp] theorem State.release_ien : (s.release).ien = s.ien := rfl
@[simp] theorem State.release_ipr : (s.release).ipr = s.ipr := rfl
@[simp] theorem State.release_ir : (s.release).ir = s.ir := rfl
@[simp] theorem State.release_raw : (s.release).raw = s.raw := rfl
@[simp] theorem State.release_gt : (s.release).gt = s.gt := rfl
@[simp] theorem State.release_gen : (s.release).gen = s.gen := rfl
@[simp] theorem State.release_grp : (s.release).grp = s.grp := rfl
@[simp] theorem State.release_src : (s.release).src = s.src := rfl
@[simp] theorem State.release_buf : (s.release).buf = s.buf := rfl
@[simp] theorem State.release_rd : (s.release).rd = s.rd := rfl
@[simp] theorem State.release_wr : (s.release).wr = s.wr := rfl
@[simp] theorem State.release_dact : (s.release).dact = s.dact := rfl
@[simp] theorem State.release_cs : (s.release).cs = s.cs := rfl
@[simp] theorem State.release_mact : (s.release).mact = s.mact := rfl
@[simp] theorem State.release_faults : (s.release).faults = s.faults := rfl
@[simp] theorem State.release_refused : (s.release).refused = s.refused := rfl
@[simp] theorem State.release_hist : (s.release).hist = s.hist := rfl
@[simp] theorem State.release_cfg : (s.release).cfg = s.cfg := rfl
@[simp] theorem State.release_main : (s.release).main = s.main := rfl
@[simp] theorem State.release_inputs : (s.release).inputs = s.inputs := rfl
@[simp] theorem State.release_turn : (s.release).turn = s.turn := rfl

/-! `State.setActs` writes cs, mact alone. -/

@[simp] theorem State.setActs_ien (as : List Act) : (s.setActs as).ien = s.ien := rfl
@[simp] theorem State.setActs_ipr (as : List Act) : (s.setActs as).ipr = s.ipr := rfl
@[simp] theorem State.setActs_ir (as : List Act) : (s.setActs as).ir = s.ir := rfl
@[simp] theorem State.setActs_raw (as : List Act) : (s.setActs as).raw = s.raw := rfl
@[simp] theorem State.setActs_gt (as : List Act) : (s.setActs as).gt = s.gt := rfl
@[simp] theorem State.setActs_gen (as : List Act) : (s.setActs as).gen = s.gen := rfl
@[simp] theorem State.setActs_grp (as : List Act) : (s.setActs as).grp = s.grp := rfl
@[simp] theorem State.setActs_src (as : List Act) : (s.setActs as).src = s.src := rfl
@[simp] theorem State.setActs_buf (as : List Act) : (s.setActs as).buf = s.buf := rfl
@[simp] theorem State.setActs_rd (as : List Act) : (s.setActs as).rd = s.rd := rfl
@[simp] theorem State.setActs_wr (as : List Act) : (s.setActs as).wr = s.wr := rfl
@[simp] theorem State.setActs_dact (as : List Act) : (s.setActs as).dact = s.dact := rfl
@[simp] theorem State.setActs_hold (as : List Act) : (s.setActs as).hold = s.hold := rfl
@[simp] theorem State.setActs_faults (as : List Act) : (s.setActs as).faults = s.faults := rfl
@[simp] theorem State.setActs_refused (as : List Act) : (s.setActs as).refused = s.refused := rfl
@[simp] theorem State.setActs_hist (as : List Act) : (s.setActs as).hist = s.hist := rfl
@[simp] theorem State.setActs_cfg (as : List Act) : (s.setActs as).cfg = s.cfg := rfl
@[simp] theorem State.setActs_main (as : List Act) : (s.setActs as).main = s.main := rfl
@[simp] theorem State.setActs_inputs (as : List Act) : (s.setActs as).inputs = s.inputs := rfl
@[simp] theorem State.setActs_turn (as : List Act) : (s.setActs as).turn = s.turn := rfl

/-! `State.setWait` writes cs, mact alone. -/

@[simp] theorem State.setWait_ien (w : Wait) : (s.setWait w).ien = s.ien := rfl
@[simp] theorem State.setWait_ipr (w : Wait) : (s.setWait w).ipr = s.ipr := rfl
@[simp] theorem State.setWait_ir (w : Wait) : (s.setWait w).ir = s.ir := rfl
@[simp] theorem State.setWait_raw (w : Wait) : (s.setWait w).raw = s.raw := rfl
@[simp] theorem State.setWait_gt (w : Wait) : (s.setWait w).gt = s.gt := rfl
@[simp] theorem State.setWait_gen (w : Wait) : (s.setWait w).gen = s.gen := rfl
@[simp] theorem State.setWait_grp (w : Wait) : (s.setWait w).grp = s.grp := rfl
@[simp] theorem State.setWait_src (w : Wait) : (s.setWait w).src = s.src := rfl
@[simp] theorem State.setWait_buf (w : Wait) : (s.setWait w).buf = s.buf := rfl
@[simp] theorem State.setWait_rd (w : Wait) : (s.setWait w).rd = s.rd := rfl
@[simp] theorem State.setWait_wr (w : Wait) : (s.setWait w).wr = s.wr := rfl
@[simp] theorem State.setWait_dact (w : Wait) : (s.setWait w).dact = s.dact := rfl
@[simp] theorem State.setWait_hold (w : Wait) : (s.setWait w).hold = s.hold := rfl
@[simp] theorem State.setWait_faults (w : Wait) : (s.setWait w).faults = s.faults := rfl
@[simp] theorem State.setWait_refused (w : Wait) : (s.setWait w).refused = s.refused := rfl
@[simp] theorem State.setWait_hist (w : Wait) : (s.setWait w).hist = s.hist := rfl
@[simp] theorem State.setWait_cfg (w : Wait) : (s.setWait w).cfg = s.cfg := rfl
@[simp] theorem State.setWait_main (w : Wait) : (s.setWait w).main = s.main := rfl
@[simp] theorem State.setWait_inputs (w : Wait) : (s.setWait w).inputs = s.inputs := rfl
@[simp] theorem State.setWait_turn (w : Wait) : (s.setWait w).turn = s.turn := rfl

/-! `State.invoke` writes cs, mact, hist alone. -/

@[simp] theorem State.invoke_ien (h : Nat) : (s.invoke h).ien = s.ien := rfl
@[simp] theorem State.invoke_ipr (h : Nat) : (s.invoke h).ipr = s.ipr := rfl
@[simp] theorem State.invoke_ir (h : Nat) : (s.invoke h).ir = s.ir := rfl
@[simp] theorem State.invoke_raw (h : Nat) : (s.invoke h).raw = s.raw := rfl
@[simp] theorem State.invoke_gt (h : Nat) : (s.invoke h).gt = s.gt := rfl
@[simp] theorem State.invoke_gen (h : Nat) : (s.invoke h).gen = s.gen := rfl
@[simp] theorem State.invoke_grp (h : Nat) : (s.invoke h).grp = s.grp := rfl
@[simp] theorem State.invoke_src (h : Nat) : (s.invoke h).src = s.src := rfl
@[simp] theorem State.invoke_buf (h : Nat) : (s.invoke h).buf = s.buf := rfl
@[simp] theorem State.invoke_rd (h : Nat) : (s.invoke h).rd = s.rd := rfl
@[simp] theorem State.invoke_wr (h : Nat) : (s.invoke h).wr = s.wr := rfl
@[simp] theorem State.invoke_dact (h : Nat) : (s.invoke h).dact = s.dact := rfl
@[simp] theorem State.invoke_hold (h : Nat) : (s.invoke h).hold = s.hold := rfl
@[simp] theorem State.invoke_faults (h : Nat) : (s.invoke h).faults = s.faults := rfl
@[simp] theorem State.invoke_refused (h : Nat) : (s.invoke h).refused = s.refused := rfl
@[simp] theorem State.invoke_cfg (h : Nat) : (s.invoke h).cfg = s.cfg := rfl
@[simp] theorem State.invoke_main (h : Nat) : (s.invoke h).main = s.main := rfl
@[simp] theorem State.invoke_inputs (h : Nat) : (s.invoke h).inputs = s.inputs := rfl
@[simp] theorem State.invoke_turn (h : Nat) : (s.invoke h).turn = s.turn := rfl

/-! `State.demuxPush` writes cs, mact, dact alone. -/

@[simp] theorem State.demuxPush_ien (w : Wait) (g : Nat) : (s.demuxPush w g).ien = s.ien := rfl
@[simp] theorem State.demuxPush_ipr (w : Wait) (g : Nat) : (s.demuxPush w g).ipr = s.ipr := rfl
@[simp] theorem State.demuxPush_ir (w : Wait) (g : Nat) : (s.demuxPush w g).ir = s.ir := rfl
@[simp] theorem State.demuxPush_raw (w : Wait) (g : Nat) : (s.demuxPush w g).raw = s.raw := rfl
@[simp] theorem State.demuxPush_gt (w : Wait) (g : Nat) : (s.demuxPush w g).gt = s.gt := rfl
@[simp] theorem State.demuxPush_gen (w : Wait) (g : Nat) : (s.demuxPush w g).gen = s.gen := rfl
@[simp] theorem State.demuxPush_grp (w : Wait) (g : Nat) : (s.demuxPush w g).grp = s.grp := rfl
@[simp] theorem State.demuxPush_src (w : Wait) (g : Nat) : (s.demuxPush w g).src = s.src := rfl
@[simp] theorem State.demuxPush_buf (w : Wait) (g : Nat) : (s.demuxPush w g).buf = s.buf := rfl
@[simp] theorem State.demuxPush_rd (w : Wait) (g : Nat) : (s.demuxPush w g).rd = s.rd := rfl
@[simp] theorem State.demuxPush_wr (w : Wait) (g : Nat) : (s.demuxPush w g).wr = s.wr := rfl
@[simp] theorem State.demuxPush_hold (w : Wait) (g : Nat) : (s.demuxPush w g).hold = s.hold := rfl
@[simp] theorem State.demuxPush_faults (w : Wait) (g : Nat) : (s.demuxPush w g).faults = s.faults := rfl
@[simp] theorem State.demuxPush_refused (w : Wait) (g : Nat) : (s.demuxPush w g).refused = s.refused := rfl
@[simp] theorem State.demuxPush_hist (w : Wait) (g : Nat) : (s.demuxPush w g).hist = s.hist := rfl
@[simp] theorem State.demuxPush_cfg (w : Wait) (g : Nat) : (s.demuxPush w g).cfg = s.cfg := rfl
@[simp] theorem State.demuxPush_main (w : Wait) (g : Nat) : (s.demuxPush w g).main = s.main := rfl
@[simp] theorem State.demuxPush_inputs (w : Wait) (g : Nat) : (s.demuxPush w g).inputs = s.inputs := rfl
@[simp] theorem State.demuxPush_turn (w : Wait) (g : Nat) : (s.demuxPush w g).turn = s.turn := rfl

/-! `State.pushFrame` writes cs, hist alone. -/

@[simp] theorem State.pushFrame_ien (v : Nat) : (s.pushFrame v).ien = s.ien := rfl
@[simp] theorem State.pushFrame_ipr (v : Nat) : (s.pushFrame v).ipr = s.ipr := rfl
@[simp] theorem State.pushFrame_ir (v : Nat) : (s.pushFrame v).ir = s.ir := rfl
@[simp] theorem State.pushFrame_raw (v : Nat) : (s.pushFrame v).raw = s.raw := rfl
@[simp] theorem State.pushFrame_gt (v : Nat) : (s.pushFrame v).gt = s.gt := rfl
@[simp] theorem State.pushFrame_gen (v : Nat) : (s.pushFrame v).gen = s.gen := rfl
@[simp] theorem State.pushFrame_grp (v : Nat) : (s.pushFrame v).grp = s.grp := rfl
@[simp] theorem State.pushFrame_src (v : Nat) : (s.pushFrame v).src = s.src := rfl
@[simp] theorem State.pushFrame_buf (v : Nat) : (s.pushFrame v).buf = s.buf := rfl
@[simp] theorem State.pushFrame_rd (v : Nat) : (s.pushFrame v).rd = s.rd := rfl
@[simp] theorem State.pushFrame_wr (v : Nat) : (s.pushFrame v).wr = s.wr := rfl
@[simp] theorem State.pushFrame_dact (v : Nat) : (s.pushFrame v).dact = s.dact := rfl
@[simp] theorem State.pushFrame_mact (v : Nat) : (s.pushFrame v).mact = s.mact := rfl
@[simp] theorem State.pushFrame_hold (v : Nat) : (s.pushFrame v).hold = s.hold := rfl
@[simp] theorem State.pushFrame_faults (v : Nat) : (s.pushFrame v).faults = s.faults := rfl
@[simp] theorem State.pushFrame_refused (v : Nat) : (s.pushFrame v).refused = s.refused := rfl
@[simp] theorem State.pushFrame_cfg (v : Nat) : (s.pushFrame v).cfg = s.cfg := rfl
@[simp] theorem State.pushFrame_main (v : Nat) : (s.pushFrame v).main = s.main := rfl
@[simp] theorem State.pushFrame_inputs (v : Nat) : (s.pushFrame v).inputs = s.inputs := rfl
@[simp] theorem State.pushFrame_turn (v : Nat) : (s.pushFrame v).turn = s.turn := rfl

/-! What the changed fields hold. -/

@[simp] theorem State.record_hist (e : Event) : (s.record e).hist = s.hist ++ [e] := rfl
@[simp] theorem State.respond_hist (i : Instr) (v : Word) :
    (s.respond i v).hist = s.hist ++ [.cmd s.ctx (encode i) v] := rfl
@[simp] theorem State.raise_hist (f : FaultRec) : (s.raise f).hist = s.hist ++ [.fault f] := rfl
@[simp] theorem State.refuse_hist (r : RefuseReason) : (s.refuse r).hist = s.hist ++ [.refuse r] := rfl
@[simp] theorem State.refuse_refused (r : RefuseReason) : (s.refuse r).refused = true := rfl
@[simp] theorem State.holdOn_hold (q : Nat) : (s.holdOn q).hold = some q := rfl
@[simp] theorem State.release_hold : s.release.hold = if s.ctx = .main then none else s.hold := rfl
@[simp] theorem State.pushFrame_cs (v : Nat) : (s.pushFrame v).cs = ⟨v, s.prioOf v, []⟩ :: s.cs := rfl
@[simp] theorem State.pushFrame_hist (v : Nat) : (s.pushFrame v).hist = s.hist ++ [.deliver v (s.prioOf v)] := rfl
@[simp] theorem State.setActs_cs (as : List Act) : (s.setActs as).cs = withTopActs as s.cs := rfl
@[simp] theorem State.setActs_mact (as : List Act) : (s.setActs as).mact = if s.cs = [] then as else s.mact := rfl

@[simp] theorem State.mem_raise_faults (f f' : FaultRec) : f' ∈ (s.raise f).faults ↔ f' = f ∨ f' ∈ s.faults := by
  simp [State.raise]

@[simp] theorem State.ienBit_setIen (v v' : Nat) (b : Bool) :
    (s.setIen v b).ienBit v' = if v = v' then b else s.ienBit v' := by
  simp [State.setIen, State.ienBit]

@[simp] theorem State.ienBit_setIens (vs : List Nat) (b : Bool) (v : Nat) :
    (s.setIens vs b).ienBit v = if v ∈ vs then b else s.ienBit v := by
  suffices h : ∀ m : List (Nat × Bool), Sparse.get false (vs.foldl (fun m v => Sparse.set false m v b) m) v =
      if v ∈ vs then b else Sparse.get false m v from h s.ien
  induction vs with
  | nil => simp
  | cons u vs ih =>
    intro m
    rw [List.foldl_cons, ih]
    by_cases h₁ : v ∈ vs
    · simp [h₁]
    · by_cases h₂ : v = u <;> simp [h₁, h₂, Ne.symm]

@[simp] theorem State.iprField_setIpr (f f' : Nat) (p : BitVec 8) :
    (s.setIpr f p).iprField f' = if f = f' then p else s.iprField f' := by
  simp [State.setIpr, State.iprField]

@[simp] theorem State.irBit_setIr (v v' : Nat) (b : Bool) :
    (s.setIr v b).irBit v' = if v = v' then b else s.irBit v' := by
  simp [State.setIr, State.irBit]

@[simp] theorem State.rawSlot_setRaw (v v' : Nat) (x : Slot) :
    (s.setRaw v x).rawSlot v' = if v = v' then x else s.rawSlot v' := by
  simp [State.setRaw, State.rawSlot]

@[simp] theorem State.gtSlot_setGt (g i g' i' : Nat) (x : Slot) :
    (s.setGt g i x).gtSlot g' i' = if g = g' ∧ i = i' then x else s.gtSlot g' i' := by
  by_cases h : g = g'
  · subst h; simp [State.setGt, State.gtSlot]
  · simp [State.setGt, State.gtSlot, h]

@[simp] theorem State.dactOf_setDact (g g' : Nat) (d : DemuxStatus) :
    (s.setDact g d).dactOf g' = if g = g' then d else s.dactOf g' := by
  simp [State.setDact, State.dactOf]

@[simp] theorem State.bufByte?_bufWrite (q i q' i' : Nat) (b : Byte) :
    (s.bufWrite q i b).bufByte? q' i' = if q = q' ∧ i = i' then some b else s.bufByte? q' i' := by
  by_cases h : q = q'
  · subst h; simp [State.bufWrite, State.bufByte?, Sparse.get]
  · simp [State.bufWrite, State.bufByte?, Sparse.get, h]

@[simp] theorem State.bufByte?_queuePut (c : QueueRow) (b : Byte) (q i : Nat) :
    (s.queuePut c b).bufByte? q i =
      if c.id = q ∧ s.wrOf c.id % c.cap = i then some b else s.bufByte? q i :=
  State.bufByte?_bufWrite s c.id (s.wrOf c.id % c.cap) q i b

@[simp] theorem State.wrOf_queuePut (c : QueueRow) (b : Byte) (q : Nat) :
    (s.queuePut c b).wrOf q = if c.id = q then (s.wrOf c.id + 1) % (2 * c.cap) else s.wrOf q := by
  simp only [State.queuePut, State.wrOf, State.bufWrite, Sparse.get_set]

@[simp] theorem State.rdOf_queueAdvance (c : QueueRow) (q : Nat) :
    (s.queueAdvance c).rdOf q = if c.id = q then (s.rdOf c.id + 1) % (2 * c.cap) else s.rdOf q := by
  simp only [State.queueAdvance, State.rdOf, Sparse.get_set]

/-! The running context. -/

@[simp] theorem State.acts_setActs (as : List Act) : (s.setActs as).acts = as := by
  unfold State.acts State.setActs
  cases h : s.cs <;> simp [withTopActs]

@[simp] theorem State.ctx_setActs (as : List Act) : (s.setActs as).ctx = s.ctx := by
  unfold State.ctx State.setActs
  cases h : s.cs <;> simp [withTopActs]

@[simp] theorem State.setActs_setActs (as bs : List Act) : (s.setActs as).setActs bs = s.setActs bs := by
  unfold State.setActs
  cases h : s.cs <;> simp [withTopActs]

@[simp] theorem State.acts_setWait (w : Wait) : (s.setWait w).acts = withTopWait w s.acts := by
  simp [State.setWait]

@[simp] theorem State.ctx_setWait (w : Wait) : (s.setWait w).ctx = s.ctx := by
  simp [State.setWait]

/-- A body is pushed on the running context and its invocation recorded (R14). -/
theorem State.invoke_eq (h : Nat) : s.invoke h =
    (s.setActs (.body h (bodyOf s.cfg h) .nothing :: s.acts)).record (.invoke s.ctx h) := rfl

@[simp] theorem State.acts_invoke (h : Nat) :
    (s.invoke h).acts = .body h (bodyOf s.cfg h) .nothing :: s.acts :=
  State.acts_setActs s _

@[simp] theorem State.invoke_hist (h : Nat) : (s.invoke h).hist = s.hist ++ [.invoke s.ctx h] := rfl

@[simp] theorem State.acts_demuxPush (w : Wait) (g : Nat) :
    (s.demuxPush w g).acts = .demux g (s.snapshot g) 0 .scan :: withTopWait w s.acts := by
  have h : (s.demuxPush w g).acts =
      ((s.setWait w).setActs (.demux g (s.snapshot g) 0 .scan :: (s.setWait w).acts)).acts := rfl
  rw [h, State.acts_setActs, State.acts_setWait]

@[simp] theorem State.dactOf_demuxPush (w : Wait) (g g' : Nat) :
    (s.demuxPush w g).dactOf g' = if g = g' then .active else s.dactOf g' :=
  State.dactOf_setDact _ g g' .active

end Sys2Proof.Machine
end

