-- ==== Sys2Proof/Laws/Ops.lean ====
section
/-! SUPPORT. Everything each shared operation can do, said once: the frames of interrupt return, resumption, demux starts,
engine steps, acceptance and source events, and that the storage operations keep the canonical form. -/

namespace Sys2Proof.Machine

variable (s : State)

/-- Interrupt return writes the context stack and the history alone. -/
theorem State.interruptReturn_frame :
    s.interruptReturn = { s with cs := s.interruptReturn.cs, hist := s.interruptReturn.hist } := by
  unfold State.interruptReturn; split <;> rfl

/-- Interrupt return with a frame on the stack (R289). -/
theorem State.interruptReturn_cons {f : Frame} {fs : List Frame} (h : s.cs = f :: fs) :
    s.interruptReturn = { s with cs := fs, hist := s.hist ++ [.intReturn f.vec] } := by
  unfold State.interruptReturn; rw [h]

/-- What a resumption does, by what is left of the running context. -/
theorem State.resume_cases :
    (s.acts = [] ∧ s.resume = s.interruptReturn) ∨
    (∃ h rest t i as, s.acts = .body h rest (.runtask t i) :: as ∧
      s.resume = (s.setActs (.body h rest .nothing :: as)).respond (.runtask t i) 0#32) ∨
    (∃ h rest g as, s.acts = .body h rest (.gdemux g) :: as ∧
      s.resume = (s.setActs (.body h rest .nothing :: as)).respond (.gdemux g) 1#32) ∨
    (∃ h rest as, s.acts = .body h rest .nothing :: as ∧ s.resume = s) ∨
    (∃ g snap pos phase as, s.acts = .demux g snap pos phase :: as ∧ s.resume = s) := by
  unfold State.resume
  cases h : s.acts with
  | nil => exact .inl ⟨rfl, rfl⟩
  | cons a as =>
    cases a with
    | body h' rest w =>
      cases w with
      | nothing => exact .inr (.inr (.inr (.inl ⟨_, _, _, rfl, rfl⟩)))
      | runtask t i => exact .inr (.inl ⟨_, _, _, _, _, rfl, rfl⟩)
      | gdemux g => exact .inr (.inr (.inl ⟨_, _, _, _, rfl, rfl⟩))
    | demux g snap pos phase => exact .inr (.inr (.inr (.inr ⟨_, _, _, _, _, rfl, rfl⟩)))

/-- A resumption writes activations and the history alone. -/
theorem State.resume_frame :
    s.resume = { s with cs := s.resume.cs, mact := s.resume.mact, hist := s.resume.hist } := by
  rcases s.resume_cases with ⟨-, h⟩ | ⟨_, _, _, _, _, -, h⟩ | ⟨_, _, _, _, -, h⟩ | ⟨_, _, _, -, h⟩ | ⟨_, _, _, _, _, -, h⟩
  · rw [h, State.interruptReturn_frame]
  · rw [h]; rfl
  · rw [h]; rfl
  · rw [h]
  · rw [h]

/-- A demux start either faults, writing nothing else, or pushes the activation (R242). -/
theorem State.demuxStart_cases (w : Wait) (g : Nat) :
    (s.dactOf g = .active ∧ s.demuxStart w g = s.raise (.demuxReentered g)) ∨
    (s.dactOf g = .idle ∧ s.demuxStart w g = s.demuxPush w g) := by
  unfold State.demuxStart
  cases h : s.dactOf g with
  | active => exact .inl ⟨rfl, by simp⟩
  | idle => exact .inr ⟨rfl, by simp⟩

/-- A demux start writes activations, `DACT`, the fault set and the history alone. -/
theorem State.demuxStart_frame (w : Wait) (g : Nat) :
    s.demuxStart w g = { s with
      cs := (s.demuxStart w g).cs, mact := (s.demuxStart w g).mact, dact := (s.demuxStart w g).dact,
      faults := (s.demuxStart w g).faults, hist := (s.demuxStart w g).hist } := by
  rcases s.demuxStart_cases w g with ⟨-, h⟩ | ⟨-, h⟩ <;> rw [h] <;> rfl

/-- Acceptance writes a latch, activations, `DACT`, the fault set and the history alone (R287). -/
theorem State.deliver_frame (v : Nat) :
    s.deliver v = { s with
      ir := (s.deliver v).ir, cs := (s.deliver v).cs, mact := (s.deliver v).mact, dact := (s.deliver v).dact,
      faults := (s.deliver v).faults, hist := (s.deliver v).hist } := by
  have h₁ : ∀ u : State, ∀ x, u.startWork x = { u with
      cs := (u.startWork x).cs, mact := (u.startWork x).mact, dact := (u.startWork x).dact,
      faults := (u.startWork x).faults, hist := (u.startWork x).hist } := by
    intro u x
    cases x with
    | null => simp only [State.startWork]; rw [State.interruptReturn_frame]
    | handler h => rfl
    | demux g => simp only [State.startWork]; rw [State.demuxStart_frame]
  unfold State.deliver State.consumeRequest
  split
  · rw [h₁]; rfl
  · rw [h₁]; rfl

/-- A source event writes edge latches, level inputs, request latches and the history alone (R280). -/
theorem State.sourceStep_frame (e : SrcEvent) :
    s.sourceStep e = { s with
      grp := (s.srcEffect e).grp, src := (s.srcEffect e).src, ir := (s.srcEffect e).ir,
      hist := s.hist ++ [.src e] } := by
  have h : s.srcEffect e = { s with
      grp := (s.srcEffect e).grp, src := (s.srcEffect e).src, ir := (s.srcEffect e).ir } := by
    cases e with
    | edge g i =>
      simp only [State.srcEffect]
      split
      · split <;> rfl
      · rfl
    | level g i b =>
      simp only [State.srcEffect]
      split
      · split <;> rfl
      · rfl
    | vreq v => simp only [State.srcEffect]; split <;> rfl
  unfold State.sourceStep State.record
  conv_lhs => rw [h]

/-- The after-call step's clear writes edge latches alone (R247). -/
theorem State.clearServiced_frame (g i : Nat) :
    s.clearServiced g i = { s with grp := (s.clearServiced g i).grp } := by
  unfold State.clearServiced
  split
  · split <;> rfl
  · rfl

/-- An engine step writes activations, `DACT`, edge latches and the history alone (R249). -/
theorem State.demuxStep_frame (g : Nat) (snap : Word) (pos : Nat) (phase : Phase) (as : List Act) :
    s.demuxStep g snap pos phase as = { s with
      cs := (s.demuxStep g snap pos phase as).cs, mact := (s.demuxStep g snap pos phase as).mact,
      dact := (s.demuxStep g snap pos phase as).dact, grp := (s.demuxStep g snap pos phase as).grp,
      hist := (s.demuxStep g snap pos phase as).hist } := by
  cases phase with
  | scan =>
    simp only [State.demuxStep, State.demuxScan]
    split
    · simp only [State.demuxFinish]; rw [State.resume_frame]; rfl
    · split <;> rfl
  | called i =>
    simp only [State.demuxStep, State.demuxAfter]
    rw [State.clearServiced_frame]; rfl

/-- A command ends in a next state, always: it completes, holds, raises or refuses (R14). -/
theorem exec_next (i : Instr) (s : State) : ∃ t, exec i s = .next t := by
  cases i <;> simp only [exec, execQput, execQget, execQlen, execQcap, execSettask, execRuntask, execGetmask, execTsize,
    execTret, execSetlvlv, execSetlvlp, execRdlvl, execSetdmac, execInstgt, execGdemux, execRdgrp, execClrgrp, execRdgen] <;>
    (repeat' split) <;> exact ⟨_, rfl⟩

/-- What the step of one schedule entry is: a source event, a delivery of the selected vector, the running activation's own
step, or a word given to its host program. -/
theorem State.entryStep_cases {s : State} {e : Input} {r : Result} (h : s.entryStep e = some r) :
    (∃ ev, e = .source ev ∧ r = .next (s.sourceStep ev)) ∨
      (∃ v, e = .deliver ∧ s.selected = some v ∧ r = .next (s.deliver v)) ∨
      (e = .run ∧ s.runningStep = some r) ∨ (∃ w, e = .issue w ∧ s.hostReady = true ∧ r = issueWord w s) := by
  cases e with
  | run => exact .inr (.inr (.inl ⟨rfl, h⟩))
  | issue w =>
    simp only [State.entryStep] at h
    split at h
    · next hr => exact .inr (.inr (.inr ⟨w, rfl, hr, (Option.some.inj h).symm⟩))
    · cases h
  | deliver =>
    simp only [State.entryStep] at h
    split at h
    · next v hv => exact .inr (.inl ⟨v, rfl, hv, (Option.some.inj h).symm⟩)
    · cases h
  | source ev => exact .inl ⟨ev, rfl, (Option.some.inj h).symm⟩

/-- A step on the schedule is the step of one of its entries, or where they are all passed over of the agent that
`ownMove` names. -/
theorem scheduledStep_cases {is : List Input} {s t : State} (h : scheduledStep is s = .next t) :
    ∃ e rest d, { s with inputs := rest, turn := d }.entryStep e = some (.next t) ∧
      ((rest.length < is.length ∧ d = s.turn) ∨
        (rest = [] ∧ { s with inputs := [] }.ownMove = some (e, d))) := by
  induction is with
  | nil =>
    simp only [scheduledStep, State.autonomousStep] at h
    split at h
    · next e d hm =>
      refine ⟨e, [], d, ?_, .inr ⟨rfl, hm⟩⟩
      cases he : State.entryStep { s with inputs := [], turn := d } e with
      | some r => rw [he] at h; exact congrArg some h
      | none => rw [he] at h; cases h
    · cases h
  | cons e rest ih =>
    simp only [scheduledStep] at h
    split at h
    · next r hr => exact ⟨e, rest, s.turn, h ▸ hr, .inl ⟨by simp, rfl⟩⟩
    · obtain ⟨e', rest', d, he, hl | hm⟩ := ih h
      · exact ⟨e', rest', d, he, .inl ⟨by simp; omega, hl.2⟩⟩
      · exact ⟨e', rest', d, he, .inr hm⟩

/-- A step answers a next state only for a well-formed configuration and while nothing is recorded against the block (R9,
R271, R272), and then it is a scheduled step. -/
theorem step_next {s t : State} (h : step s = .next t) :
    cfgOk s.cfg = true ∧ s.clean = true ∧ scheduledStep s.inputs s = .next t := by
  simp only [step, advance] at h
  split at h
  · simp at h
  · next hc =>
    split at h
    · simp at h
    · next hf =>
      split at h
      · simp at h
      · next hr => exact ⟨by simpa using hc, by simp [State.clean, hf, hr], h⟩

/-- How the state that a command runs on comes from the one before: as it is (a scheduled word, or the mainline's held
QGET), or with the word taken from the mainline's program or from the running body's. -/
inductive IssuedFrom (s : State) : State → Prop where
  | scheduled (h : s.hostReady = true) : IssuedFrom s s
  | held (q : Nat) (h : s.heldOn = some q) : IssuedFrom s s
  | mainline (w : CmdWord) (ws : List CmdWord) (h : s.hostReady = true) (ha : s.acts = []) (hw : s.main = w :: ws) :
      IssuedFrom s { s with main := ws }
  | body (h' : Nat) (w : CmdWord) (ws : List CmdWord) (wait : Wait) (as : List Act) (h : s.hostReady = true)
      (hw : s.acts = .body h' (w :: ws) wait :: as) : IssuedFrom s (s.setActs (.body h' ws wait :: as))

/-- Everything a step that answers a next state can be (R89): a source event, a delivery of the selected vector, an engine
step of the running demux, a command, or an illegal word. `s` is the state before with what is left of the schedule, and with
the turn handed on. -/
inductive StepCase (s : State) (t : State) : Prop where
  | source (e : SrcEvent) (h : t = s.sourceStep e)
  | deliver (v : Nat) (hv : s.selected = some v) (h : t = s.deliver v)
  | engine (g : Nat) (snap : Word) (pos : Nat) (phase : Phase) (as : List Act)
      (ha : s.acts = .demux g snap pos phase :: as) (h : t = s.demuxStep g snap pos phase as)
  | command (i : Instr) (s' : State) (hs : IssuedFrom s s') (h : exec i s' = .next t)
  | illegal (w : CmdWord) (s' : State) (hs : IssuedFrom s s') (h : t = s'.raise (.illegalCommand w))

theorem issueWord_cases {w : CmdWord} {s t : State} (h : issueWord w s = .next t) :
    (∃ i, decode w = .ok i ∧ exec i s = .next t) ∨ t = s.raise (.illegalCommand w) := by
  unfold issueWord at h
  split at h
  · next i hi => exact .inl ⟨i, hi, h⟩
  · exact .inr (by simpa using h.symm)

/-- A word issued on a state that comes from `s` is a command or illegal. -/
theorem StepCase.issued {s s' t : State} {w : CmdWord} (hs : IssuedFrom s s') (h : issueWord w s' = .next t) :
    StepCase s t := by
  rcases issueWord_cases h with ⟨i, -, hi⟩ | hi
  · exact .command i s' hs hi
  · exact .illegal w s' hs hi

/-- The next word of the running host program comes from that program. -/
theorem State.nextWord_cases {s s' : State} {w : CmdWord} (hr : s.hostReady = true) (h : s.nextWord = some (w, s')) :
    IssuedFrom s s' := by
  unfold State.nextWord at h
  split at h
  · next h' w' ws wait as ha =>
    obtain ⟨-, rfl⟩ : w' = w ∧ _ = s' := by simpa using h
    exact .body h' w' ws wait as hr ha
  · cases h
  · cases h
  · next ha =>
    split at h
    · next w' ws hm =>
      obtain ⟨-, rfl⟩ : w' = w ∧ _ = s' := by simpa using h
      exact .mainline w' ws hr ha hm
    · cases h

/-- The running activation's own step is an engine step or issues a command (R89). -/
theorem State.runningStep_cases {s t : State} (h : s.runningStep = some (.next t)) : StepCase s t := by
  unfold State.runningStep at h
  split at h
  · next q hq =>
    split at h
    · exact .command (.qget q) _ (.held q hq) (by simpa using h)
    · cases h
  · split at h
    · next g snap pos phase as ha => exact .engine g snap pos phase as ha (by simpa using h.symm)
    · split at h
      · next hr =>
        split at h
        · next w s' hn => exact .issued (s.nextWord_cases hr hn) (by simpa using h)
        · cases h
      · cases h

/-- The step of a schedule entry, wherever it answers a next state, is one of the cases of R89. -/
theorem State.entryStep_next {s t : State} {e : Input} (h : s.entryStep e = some (.next t)) : StepCase s t := by
  obtain ⟨ev, -, ht⟩ | ⟨v, -, hv, ht⟩ | ⟨-, hr⟩ | ⟨w, -, hr, hw⟩ := State.entryStep_cases h
  · exact .source ev (by simpa using ht)
  · exact .deliver v hv (by simpa using ht)
  · exact State.runningStep_cases hr
  · exact .issued (.scheduled hr) hw.symm

/-- The inversion of a step: a step that answers a next state is one of the cases of R89. -/
theorem step_cases {s t : State} (h : step s = .next t) :
    cfgOk s.cfg = true ∧ s.clean = true ∧ ∃ rest d, StepCase { s with inputs := rest, turn := d } t := by
  obtain ⟨hc, hcl, h⟩ := step_next h
  obtain ⟨e, rest, d, he, -⟩ := scheduledStep_cases h
  exact ⟨hc, hcl, rest, d, State.entryStep_next he⟩

/-- The state a command runs on differs from the one before in host programs' words alone. -/
theorem IssuedFrom.frame {s s' : State} (h : IssuedFrom s s') :
    s' = { s with main := s'.main, cs := s'.cs, mact := s'.mact } := by
  cases h <;> rfl

/-- The command runs in the context that was running. -/
theorem IssuedFrom.ctx {s s' : State} (h : IssuedFrom s s') : s'.ctx = s.ctx := by
  cases h with
  | scheduled _ => rfl
  | held _ _ => rfl
  | mainline _ _ _ _ _ => rfl
  | body _ _ _ _ _ _ _ => simp

/-- Every write of queue storage keeps its canonical form. -/
theorem Memory.wf_bufWrite (q i : Nat) (b : Byte) (h : Memory.wf s.buf = true) :
    Memory.wf (s.bufWrite q i b).buf = true :=
  Sparse.canonical2_insert (Sparse.insert_ne_nil _ _ _)
    (Sparse.rising_insert (Sparse.canonical2_get (inner := Sparse.rising) rfl h)) h

/-- A QPUT's writes keep the canonical form of queue storage. -/
theorem Memory.wf_queuePut (c : QueueRow) (b : Byte) (h : Memory.wf s.buf = true) :
    Memory.wf (s.queuePut c b).buf = true :=
  Memory.wf_bufWrite s _ _ b h

/-- Queue storage has its canonical form at reset. -/
theorem Memory.wf_reset : Memory.wf State.reset.buf = true := rfl

/-- A listed queue row is the one of its own id. -/
theorem queueOf_id {c : Cfg} {q : Nat} {r : QueueRow} (h : queueOf c q = some r) : r.id = q := by
  simpa [queueOf] using List.find?_some h

/-- A listed queue has a capacity in `1..2^30` where the configuration is well formed (R8, R11). -/
theorem queueOf_cap {c : Cfg} {q : Nat} {r : QueueRow} (hc : cfgOk c = true) (h : queueOf c q = some r) :
    1 ≤ r.cap ∧ r.cap ≤ 2 ^ 30 := by
  have hq : queuesOk c = true := by simp only [cfgOk, Bool.and_eq_true] at hc; exact hc.1.2
  simp only [queuesOk, Bool.and_eq_true, List.all_eq_true, decide_eq_true_eq] at hq
  have := hq.2 r (List.mem_of_find?_eq_some h)
  exact ⟨this.2.1.1, this.2.1.2⟩

/-- The fill level without the modulus, for cursors in range (R43). -/
theorem State.len_eq (c : QueueRow) (hr : s.rdOf c.id < 2 * c.cap) (hw : s.wrOf c.id < 2 * c.cap) :
    s.len c = if s.rdOf c.id ≤ s.wrOf c.id then s.wrOf c.id - s.rdOf c.id
      else s.wrOf c.id + 2 * c.cap - s.rdOf c.id := by
  unfold State.len
  split
  · rw [Int.emod_eq_of_lt (by omega) (by omega)]; omega
  · rw [← Int.add_emod_right, Int.emod_eq_of_lt (by omega) (by omega)]; omega

end Sys2Proof.Machine
end

