-- ==== Sys2Proof/Laws/Exec.lean ====
section
/-! SUPPORT. The inversion of `exec`: everything a command can do, said once, in terms of the shared operations. -/

namespace Sys2Proof.Machine

/-- What a command `i` issued on `s` can leave. Every constructor names the operation and the conditions under which the
command's rule reaches it. -/
inductive ExecCase (s : State) : Instr → State → Prop where
  | raised (i : Instr) (f : FaultRec) : ExecCase s i (s.raise f)
  | responded (i : Instr) (v : Word) (hp : ∀ q b, i ≠ .qput q b) (hg : ∀ q, i ≠ .qget q) : ExecCase s i (s.respond i v)
  | held (q : Nat) (c : QueueRow) (hq : queueOf s.cfg q = some c) (hc : s.ctx = c.cons) (hm : s.ctx = .main)
      (hl : s.len c = 0) : ExecCase s (.qget q) (s.holdOn q)
  | put (q : Nat) (b : Byte) (c : QueueRow) (hq : queueOf s.cfg q = some c) (hc : s.ctx = c.prod)
      (hl : s.len c ≠ c.cap) : ExecCase s (.qput q b) ((s.queuePut c b).respond (.qput q b) 0#32)
  | got (q : Nat) (c : QueueRow) (hq : queueOf s.cfg q = some c) (hc : s.ctx = c.cons) (hl : s.len c ≠ 0) :
      ExecCase s (.qget q) ((s.queueAdvance c).release.respond (.qget q) ((s.queueFront c).zeroExtend 32))
  | slotSet (t i : Nat) (val : Word) (T : Table) (x : Slot) (hT : tableOf s.cfg t = some T) (hi : i < tableSize s.cfg T)
      (hx : decodeHandle s.cfg val = some x) (hl : slotLegal T x = true) (hb : s.writeBlocked T i = false) :
      ExecCase s (.settask t i val) ((s.setSlot T i x).respond (.settask t i val) 1#32)
  | invoked (t i : Nat) (T : Table) (h : Nat) (hc : s.ctx ≠ .main) (hT : tableOf s.cfg t = some T)
      (hs : s.slot T i = .handler h) : ExecCase s (.runtask t i) ((s.setWait (.runtask t i)).invoke h)
  | demuxRun (t i : Nat) (T : Table) (g : Nat) (hc : s.ctx ≠ .main) (hs : s.slot T i = .demux g)
      (hd : s.dactOf g = .idle) : ExecCase s (.runtask t i) (s.demuxPush (.runtask t i) g)
  | demuxed (g : Nat) (hc : s.ctx ≠ .main) (hg : isGroup s.cfg g = true) (hd : s.dactOf g = .idle) :
      ExecCase s (.gdemux g) (s.demuxPush (.gdemux g) g)
  | returned (h : Nat) (r : List CmdWord) (w : Wait) (as : List Act) (ha : s.acts = .body h r w :: as) :
      ExecCase s .tret ((s.setActs as).record (.ret s.ctx h)).resume
  | vectorLevel (v p f : Nat) (hf : lvecField s.cfg v = some f) (hp : p ≤ s.cfg.prioMax) :
      ExecCase s (.setlvlv v p)
        ((if 0 < p then ((s.setIen v false).setIpr f (BitVec.ofNat 8 p)).setIen v true
          else (s.setIen v false).setIpr f (BitVec.ofNat 8 p)).respond (.setlvlv v p) 1#32)
  | periphLevel (pid p : Nat) (r : PeriphRow) (hr : periphOf s.cfg pid = some r) (hp : p ≤ s.cfg.prioMax) :
      ExecCase s (.setlvlp pid p)
        ((if 0 < p then ((s.setIens r.env false).setIpr r.field (BitVec.ofNat 8 p)).setIens r.env true
          else (s.setIens r.env false).setIpr r.field (BitVec.ofNat 8 p)).respond (.setlvlp pid p) 1#32)
  | refused (ch v : Nat) : ExecCase s (.setdmac ch v) (s.refuse .unmodelledSetdmac)
  | installed (g i : Nat) (val : Word) (x : Slot) (hg : isGroup s.cfg g = true) (hi : i < groupSize s.cfg g)
      (hx : decodeHandle s.cfg val = some x) (hl : slotLegal (.group g) x = true) (hd : s.dactOf g = .idle)
      (hf : s.frameOn g = false) :
      ExecCase s (.instgt g i val) ((s.installTask g i x).respond (.instgt g i val) 1#32)
  | cleared (g i : Nat) (r : GroupRow) (hr : groupOf s.cfg g = some r) (hi : i < r.n) (ht : r.trig = .edge) :
      ExecCase s (.clrgrp g i) ((s.setGrpBit g i false).respond (.clrgrp g i) 1#32)

theorem DemuxStatus.ne_active {d : DemuxStatus} (h : d ≠ .active) : d = .idle := by
  cases d with
  | idle => rfl
  | active => exact absurd rfl h

theorem demuxStart_execCase {s : State} {i : Instr} {w : Wait} {g : Nat}
    (h : s.dactOf g = .idle → ExecCase s i (s.demuxPush w g)) : ExecCase s i (s.demuxStart w g) := by
  rcases s.demuxStart_cases w g with ⟨-, h'⟩ | ⟨hd, h'⟩ <;> rw [h']
  · exact .raised _ _
  · exact h hd

/-- Everything a command that answers a next state can do. -/
theorem exec_cases {i : Instr} {s t : State} (h : exec i s = .next t) : ExecCase s i t := by
  have no {i : Instr} (hp : ∀ q b, i ≠ .qput q b) (hg : ∀ q, i ≠ .qget q) (v : Word) : ExecCase s i (s.respond i v) :=
    .responded i v hp hg
  cases i with
  | qput q b =>
    simp only [exec, execQput] at h
    split at h
    · cases h; exact .raised _ _
    · next c hq =>
      split at h
      · cases h; exact .raised _ _
      · next hc =>
        split at h
        · cases h; exact .raised _ _
        · next hl => cases h; exact .put q b c hq (by simpa using hc) hl
  | qget q =>
    simp only [exec, execQget] at h
    split at h
    · cases h; exact .raised _ _
    · next c hq =>
      split at h
      · cases h; exact .raised _ _
      · next hc =>
        split at h
        · next hl =>
          split at h
          · next hm => cases h; exact .held q c hq (by simpa using hc) hm hl
          · cases h; exact .raised _ _
        · next hl => cases h; exact .got q c hq (by simpa using hc) hl
  | qlen q => simp only [exec, execQlen] at h; split at h <;> cases h <;> [exact .raised _ _; exact no (by simp) (by simp) _]
  | qcap q => simp only [exec, execQcap] at h; split at h <;> cases h <;> [exact .raised _ _; exact no (by simp) (by simp) _]
  | settask t' i val =>
    simp only [exec, execSettask] at h
    split at h
    · cases h; exact no (by simp) (by simp) _
    · next T hT =>
      split at h
      · cases h; exact no (by simp) (by simp) _
      · next hi =>
        split at h
        · cases h; exact no (by simp) (by simp) _
        · next x hx =>
          split at h
          · cases h; exact no (by simp) (by simp) _
          · next hl =>
            split at h
            · cases h; exact .raised _ _
            · next hb => cases h; exact .slotSet t' i val T x hT (by omega) hx (by simpa using hl) (by simpa using hb)
  | runtask t' i =>
    simp only [exec, execRuntask] at h
    split at h
    · cases h; exact .raised _ _
    · next hc =>
      split at h
      · cases h; exact .raised _ _
      · next T hT =>
        split at h
        · cases h; exact .raised _ _
        · split at h
          · cases h; exact no (by simp) (by simp) _
          · next hs => cases h; exact .invoked t' i T _ hc hT hs
          · next g hs => cases h; exact demuxStart_execCase fun hd => .demuxRun t' i T g hc hs hd
  | getmask t' w => simp only [exec, execGetmask] at h; split at h <;> cases h <;> exact no (by simp) (by simp) _
  | tsize t' => simp only [exec, execTsize] at h; split at h <;> cases h <;> exact no (by simp) (by simp) _
  | tret =>
    simp only [exec, execTret] at h
    split at h
    · next hb r w as ha => cases h; exact .returned hb r w as ha
    · cases h; exact .raised _ _
  | setlvlv v p =>
    simp only [exec, execSetlvlv] at h
    split at h
    · cases h; exact no (by simp) (by simp) _
    · next f hf =>
      split at h
      · cases h; exact no (by simp) (by simp) _
      · next hp => cases h; exact .vectorLevel v p f hf (by omega)
  | setlvlp pid p =>
    simp only [exec, execSetlvlp] at h
    split at h
    · cases h; exact no (by simp) (by simp) _
    · next r hr =>
      split at h
      · cases h; exact no (by simp) (by simp) _
      · next hp => cases h; exact .periphLevel pid p r hr (by omega)
  | rdlvl v => simp only [exec, execRdlvl] at h; split at h <;> cases h <;> exact no (by simp) (by simp) _
  | setdmac ch v => cases h; exact .refused ch v
  | instgt g i val =>
    simp only [exec, execInstgt] at h
    split at h
    · cases h; exact no (by simp) (by simp) _
    · next hg =>
      split at h
      · cases h; exact no (by simp) (by simp) _
      · next hi =>
        split at h
        · cases h; exact no (by simp) (by simp) _
        · next x hx =>
          split at h
          · cases h; exact no (by simp) (by simp) _
          · next hl =>
            split at h
            · cases h; exact .raised _ _
            · next hd =>
              split at h
              · cases h; exact .raised _ _
              · next hf =>
                cases h
                exact .installed g i val x (by simpa using hg) (by omega) hx (by simpa using hl) (DemuxStatus.ne_active hd)
                  (by simpa using hf)
  | gdemux g =>
    simp only [exec, execGdemux] at h
    split at h
    · cases h; exact .raised _ _
    · next hc =>
      split at h
      · cases h; exact no (by simp) (by simp) _
      · next hg => cases h; exact demuxStart_execCase fun hd => .demuxed g hc (by simpa using hg) hd
  | rdgrp g => simp only [exec, execRdgrp] at h; split at h <;> cases h <;> exact no (by simp) (by simp) _
  | clrgrp g i =>
    simp only [exec, execClrgrp] at h
    split at h
    · cases h; exact no (by simp) (by simp) _
    · next r hr =>
      split at h
      · cases h; exact no (by simp) (by simp) _
      · next hi =>
        split at h
        · cases h; exact no (by simp) (by simp) _
        · next ht =>
          cases h
          refine .cleared g i r hr (by omega) ?_
          cases hr' : r.trig with
          | edge => rfl
          | level => exact absurd hr' ht
  | rdgen g => simp only [exec, execRdgen] at h; split at h <;> cases h <;> exact no (by simp) (by simp) _

end Sys2Proof.Machine
end

