-- ==== Sys2Proof/Laws/PerInstr.lean ====
section
/-! SUPPORT. Per instruction: its encoded word lies in its opcode's row of the map and has every fixed bit as the row says
(30_encoding.md R112, R114). -/

namespace Sys2Proof.Laws.RowMatch

/-- The encoded word is one of the row its opcode names: `word & mask = match`, and `RSV` is zero (R112 to R114). -/
def Statement (i : Instr) : Prop :=
  ∃ r, rowOf (opOf (encode i)) = some r ∧ encode i &&& r.fmt.mask = r.pat ∧ rsvOf (encode i) = 0#8

/-- The masks by field (R112). -/
theorem mask_N : Format.N.mask = packWord 0x3F#6 0x3FF#10 0xFF#8 0xFF#8 0xFFFFFFFF#32 := by decide
theorem mask_U : Format.U.mask = packWord 0x3F#6 0#10 0xFF#8 0xFF#8 0xFFFFFFFF#32 := by decide
theorem mask_UI : Format.UI.mask = packWord 0x3F#6 0#10 0#8 0xFF#8 0xFFFFFFFF#32 := by decide
theorem mask_UIV : Format.UIV.mask = packWord 0x3F#6 0#10 0#8 0xFF#8 0#32 := by decide
theorem mask_QB : Format.QB.mask = packWord 0x3F#6 0#10 0xFF#8 0xFF#8 0xFFFFFF00#32 := by decide

/-- A byte in `VAL[7:0]` has no bit above it (R117). -/
theorem byte_high (b : Byte) : BitVec.zeroExtend 32 b &&& 0xFFFFFF00#32 = 0#32 := by
  apply BitVec.eq_of_getLsbD_eq
  intro j hj
  by_cases h : j < 8
  · have : (0xFFFFFF00#32).getLsbD j = false := by
      interval_cases j <;> decide
    simp only [BitVec.getLsbD_and, this, Bool.and_false, BitVec.getLsbD_zero]
  · simp only [BitVec.getLsbD_and, BitVec.truncate_eq_setWidth, BitVec.getLsbD_setWidth, BitVec.getLsbD_of_ge b j (by omega),
      Bool.and_false, Bool.false_and, BitVec.getLsbD_zero]

theorem qput (q : Nat) (b : Byte) : Statement (.qput q b) := by
  refine ⟨_, by rw [encode, opOf_packWord]; rfl, ?_, by rw [encode, rsvOf_packWord]⟩
  simp only [encode, mask_QB, packWord_and, byte_high, BitVec.and_zero, BitVec.zero_and]
  decide

theorem qget (q : Nat) : Statement (.qget q) := by
  refine ⟨_, by rw [encode, opOf_packWord]; rfl, ?_, by rw [encode, rsvOf_packWord]⟩
  simp only [encode, mask_U, packWord_and, BitVec.and_zero, BitVec.zero_and]
  decide

theorem qlen (q : Nat) : Statement (.qlen q) := by
  refine ⟨_, by rw [encode, opOf_packWord]; rfl, ?_, by rw [encode, rsvOf_packWord]⟩
  simp only [encode, mask_U, packWord_and, BitVec.and_zero, BitVec.zero_and]
  decide

theorem qcap (q : Nat) : Statement (.qcap q) := by
  refine ⟨_, by rw [encode, opOf_packWord]; rfl, ?_, by rw [encode, rsvOf_packWord]⟩
  simp only [encode, mask_U, packWord_and, BitVec.and_zero, BitVec.zero_and]
  decide

theorem settask (t i : Nat) (val : Word) : Statement (.settask t i val) := by
  refine ⟨_, by rw [encode, opOf_packWord]; rfl, ?_, by rw [encode, rsvOf_packWord]⟩
  simp only [encode, mask_UIV, packWord_and, BitVec.and_zero, BitVec.zero_and]
  decide

theorem runtask (t i : Nat) : Statement (.runtask t i) := by
  refine ⟨_, by rw [encode, opOf_packWord]; rfl, ?_, by rw [encode, rsvOf_packWord]⟩
  simp only [encode, mask_UI, packWord_and, BitVec.and_zero, BitVec.zero_and]
  decide

theorem getmask (t w : Nat) : Statement (.getmask t w) := by
  refine ⟨_, by rw [encode, opOf_packWord]; rfl, ?_, by rw [encode, rsvOf_packWord]⟩
  simp only [encode, mask_UI, packWord_and, BitVec.and_zero, BitVec.zero_and]
  decide

theorem tsize (t : Nat) : Statement (.tsize t) := by
  refine ⟨_, by rw [encode, opOf_packWord]; rfl, ?_, by rw [encode, rsvOf_packWord]⟩
  simp only [encode, mask_U, packWord_and, BitVec.and_zero, BitVec.zero_and]
  decide

theorem tret : Statement (.tret) := by
  refine ⟨_, by rw [encode, opOf_packWord]; rfl, ?_, by rw [encode, rsvOf_packWord]⟩
  simp only [encode, mask_N, packWord_and, BitVec.zero_and]
  decide

theorem setlvlv (v p : Nat) : Statement (.setlvlv v p) := by
  refine ⟨_, by rw [encode, opOf_packWord]; rfl, ?_, by rw [encode, rsvOf_packWord]⟩
  simp only [encode, mask_UI, packWord_and, BitVec.and_zero, BitVec.zero_and]
  decide

theorem setlvlp (pid p : Nat) : Statement (.setlvlp pid p) := by
  refine ⟨_, by rw [encode, opOf_packWord]; rfl, ?_, by rw [encode, rsvOf_packWord]⟩
  simp only [encode, mask_UI, packWord_and, BitVec.and_zero, BitVec.zero_and]
  decide

theorem rdlvl (v : Nat) : Statement (.rdlvl v) := by
  refine ⟨_, by rw [encode, opOf_packWord]; rfl, ?_, by rw [encode, rsvOf_packWord]⟩
  simp only [encode, mask_U, packWord_and, BitVec.and_zero, BitVec.zero_and]
  decide

theorem setdmac (ch v : Nat) : Statement (.setdmac ch v) := by
  refine ⟨_, by rw [encode, opOf_packWord]; rfl, ?_, by rw [encode, rsvOf_packWord]⟩
  simp only [encode, mask_UI, packWord_and, BitVec.and_zero, BitVec.zero_and]
  decide

theorem instgt (g i : Nat) (val : Word) : Statement (.instgt g i val) := by
  refine ⟨_, by rw [encode, opOf_packWord]; rfl, ?_, by rw [encode, rsvOf_packWord]⟩
  simp only [encode, mask_UIV, packWord_and, BitVec.and_zero, BitVec.zero_and]
  decide

theorem gdemux (g : Nat) : Statement (.gdemux g) := by
  refine ⟨_, by rw [encode, opOf_packWord]; rfl, ?_, by rw [encode, rsvOf_packWord]⟩
  simp only [encode, mask_U, packWord_and, BitVec.and_zero, BitVec.zero_and]
  decide

theorem rdgrp (g : Nat) : Statement (.rdgrp g) := by
  refine ⟨_, by rw [encode, opOf_packWord]; rfl, ?_, by rw [encode, rsvOf_packWord]⟩
  simp only [encode, mask_U, packWord_and, BitVec.and_zero, BitVec.zero_and]
  decide

theorem clrgrp (g i : Nat) : Statement (.clrgrp g i) := by
  refine ⟨_, by rw [encode, opOf_packWord]; rfl, ?_, by rw [encode, rsvOf_packWord]⟩
  simp only [encode, mask_UI, packWord_and, BitVec.and_zero, BitVec.zero_and]
  decide

theorem rdgen (g : Nat) : Statement (.rdgen g) := by
  refine ⟨_, by rw [encode, opOf_packWord]; rfl, ?_, by rw [encode, rsvOf_packWord]⟩
  simp only [encode, mask_U, packWord_and, BitVec.and_zero, BitVec.zero_and]
  decide

end Sys2Proof.Laws.RowMatch
end

