-- ==== Sys2Proof/Laws/Run.lean ====
section
/-! SUPPORT. Runs: what a step leaves of the schedule and the turn, that the machine's steps make a run of the block, which
fairness that run has (60_exceptions.md R292), and that a run which stops as `runEnded` has ended (00_scope.md R20). -/

namespace Sys2Proof.Machine

/-! The model's own fields: no agent's step writes the schedule or the turn. -/

/-- A command leaves the schedule and the turn alone. -/
theorem exec_schedule {i : Instr} {s t : State} (h : exec i s = .next t) : t.inputs = s.inputs ∧ t.turn = s.turn := by
  cases exec_cases h with
  | returned h r w as ha => rw [State.resume_frame]; exact ⟨rfl, rfl⟩
  | slotSet t i val T x => cases T <;> exact ⟨rfl, rfl⟩
  | vectorLevel => split <;> exact ⟨rfl, rfl⟩
  | periphLevel => split <;> exact ⟨rfl, rfl⟩
  | _ => exact ⟨rfl, rfl⟩

/-- No case of a step writes the schedule or the turn. -/
theorem StepCase.schedule {s t : State} (h : StepCase s t) : t.inputs = s.inputs ∧ t.turn = s.turn := by
  cases h with
  | source e h => subst h; rw [State.sourceStep_frame]; exact ⟨rfl, rfl⟩
  | deliver v hv h => subst h; rw [State.deliver_frame]; exact ⟨rfl, rfl⟩
  | engine g snap pos phase as ha h => subst h; rw [State.demuxStep_frame]; exact ⟨rfl, rfl⟩
  | command i s' hs h =>
    rw [(exec_schedule h).1, (exec_schedule h).2, hs.frame]
    exact ⟨rfl, rfl⟩
  | illegal w s' hs h => subst h; rw [hs.frame]; exact ⟨rfl, rfl⟩

@[simp] theorem selected_turn (s : State) (d : Turn) : { s with turn := d }.selected = s.selected := by
  have h : ∀ n, { s with turn := d }.selectBelow n = s.selectBelow n := by
    intro n
    induction n with
    | zero => rfl
    | succ n ih => unfold State.selectBelow; rw [ih]; rfl
  exact h _

theorem selected_schedule (s : State) (is : List Input) (d : Turn) :
    State.selected { s with inputs := is, turn := d } = s.selected :=
  (selected_turn { s with inputs := is } d).trans (selected_inputs s is)

/-- Whether the running activation has a step does not depend on the schedule or the turn. -/
@[simp] theorem runningStep_schedule (s : State) (is : List Input) (d : Turn) :
    (State.runningStep { s with inputs := is, turn := d }).isSome = s.runningStep.isSome := by
  have hn : (State.nextWord { s with inputs := is, turn := d }).isSome = s.nextWord.isSome := by
    simp only [State.nextWord, show State.acts { s with inputs := is, turn := d } = s.acts from rfl]
    split <;> try rfl
    split <;> rfl
  simp only [State.runningStep, show State.heldOn { s with inputs := is, turn := d } = s.heldOn from rfl,
    show State.acts { s with inputs := is, turn := d } = s.acts from rfl,
    show State.hostReady { s with inputs := is, turn := d } = s.hostReady from rfl]
  split
  · next q _ =>
    simp only [show State.holdLifted { s with inputs := is, turn := d } q = s.holdLifted q from rfl]
    split <;> rfl
  · split
    · rfl
    · split
      · revert hn
        cases State.nextWord { s with inputs := is, turn := d } <;> cases s.nextWord <;> simp
      · rfl

/-- A word that is issued, and so every step of an entry, answers a next state. -/
theorem issueWord_is_next (w : CmdWord) (s : State) : ∃ t, issueWord w s = .next t := by
  unfold issueWord
  split
  · exact exec_next _ _
  · exact ⟨_, rfl⟩

theorem State.runningStep_is_next {s : State} {r : Result} (h : s.runningStep = some r) : ∃ t, r = .next t := by
  unfold State.runningStep at h
  split at h
  · split at h
    · exact Option.some.inj h ▸ exec_next _ _
    · cases h
  · split at h
    · exact ⟨_, (Option.some.inj h).symm⟩
    · split at h
      · split at h
        · exact Option.some.inj h ▸ issueWord_is_next _ _
        · cases h
      · cases h

theorem State.entryStep_is_next {s : State} {e : Input} {r : Result} (h : s.entryStep e = some r) : ∃ t, r = .next t := by
  obtain ⟨ev, -, hr⟩ | ⟨v, -, -, hr⟩ | ⟨-, hr⟩ | ⟨w, -, -, hr⟩ := State.entryStep_cases h
  · exact ⟨_, hr⟩
  · exact ⟨_, hr⟩
  · exact State.runningStep_is_next hr
  · exact hr ▸ issueWord_is_next _ _

/-- Whether an entry is admitted does not depend on the schedule or the turn. -/
@[simp] theorem entryStep_schedule (s : State) (is : List Input) (d : Turn) (e : Input) :
    (State.entryStep { s with inputs := is, turn := d } e).isSome = (s.entryStep e).isSome := by
  cases e with
  | run => exact runningStep_schedule s is d
  | issue w =>
    simp only [State.entryStep, show State.hostReady { s with inputs := is, turn := d } = s.hostReady from rfl]
    split <;> rfl
  | deliver =>
    simp only [State.entryStep, selected_schedule]
    split <;> rfl
  | source ev => rfl

/-- The step of a `deliver` entry is the delivery of the selected vector (R287). -/
theorem entryStep_deliver {s t : State} {is : List Input} {d : Turn} {v : Nat} (hv : s.selected = some v)
    (h : State.entryStep { s with inputs := is, turn := d } .deliver = some (.next t)) :
    t = State.deliver { s with inputs := is, turn := d } v := by
  simp only [State.entryStep, (selected_schedule s is d).trans hv] at h
  cases h; rfl

/-! Who goes first where the schedule is empty. -/

/-- Everything `ownMove` can answer. -/
theorem State.ownMove_cases {s : State} {e : Input} {d : Turn} (h : s.ownMove = some (e, d)) :
    (e = .run ∧ s.runningStep.isSome = true ∧ d = .delivery ∧ (s.selected = none ∨ s.turn = .activation)) ∨
      (e = .deliver ∧ ∃ v, s.selected = some v ∧ d = s.turnAfter v ∧ (s.runningStep = none ∨ s.turn = .delivery)) := by
  unfold State.ownMove at h
  split at h
  · cases h
  · next h₁ h₂ => cases h; exact .inl ⟨rfl, by simp [h₂], rfl, .inl h₁⟩
  · next v h₁ h₂ => cases h; exact .inr ⟨rfl, v, h₁, rfl, .inl h₂⟩
  · next v _ h₁ h₂ =>
    split at h
    · next ht => cases h; exact .inr ⟨rfl, v, h₁, rfl, .inr ht⟩
    · next ht => cases h; exact .inl ⟨rfl, by simp [h₂], rfl, .inr ht⟩

/-- The agent that `ownMove` names has a step. -/
theorem State.ownMove_admitted {s : State} {e : Input} {d : Turn} (h : s.ownMove = some (e, d)) :
    (State.entryStep { s with turn := d } e).isSome = true := by
  rw [entryStep_schedule s s.inputs d]
  rcases State.ownMove_cases h with ⟨rfl, hr, -⟩ | ⟨rfl, v, hv, -⟩
  · exact hr
  · simp [State.entryStep, hv]

/-- What a step was and what it leaves of the schedule: it takes at least one entry off, or, once all are gone, it is the step
of the agent that `ownMove` names. -/
theorem step_entry {s t : State} (h : step s = .next t) :
    cfgOk s.cfg = true ∧ s.clean = true ∧ ∃ e is d,
      { s with inputs := is, turn := d }.entryStep e = some (.next t) ∧ t.inputs = is ∧ t.turn = d ∧
        (is.length < s.inputs.length ∨ (is = [] ∧ { s with inputs := [] }.ownMove = some (e, d))) := by
  obtain ⟨hc, hcl, h⟩ := step_next h
  obtain ⟨e, is, d, he, hor⟩ := scheduledStep_cases h
  have hs := (State.entryStep_next he).schedule
  exact ⟨hc, hcl, e, is, d, he, hs.1, hs.2, hor.imp And.left id⟩

variable {r : Nat → State}

/-- A run uses its schedule up. -/
theorem inputs_run_out (hr : ∀ n, step (r n) = .next (r (n + 1))) : ∃ k, ∀ m, k ≤ m → (r m).inputs = [] := by
  have shrink : ∀ n, (r (n + 1)).inputs.length < (r n).inputs.length ∨ (r (n + 1)).inputs = [] := fun n => by
    obtain ⟨-, -, e, is, d, -, hi, -, hl | hm⟩ := step_entry (hr n)
    · exact .inl (hi ▸ hl)
    · exact .inr (hi.trans hm.1)
  have stays : ∀ k, (r k).inputs = [] → ∀ m, k ≤ m → (r m).inputs = [] := fun k hk m hkm => by
    induction m, hkm using Nat.le_induction with
    | base => exact hk
    | succ m _ ih =>
      rcases shrink m with hl | he
      · simp [ih] at hl
      · exact he
  have reach : ∀ len n, (r n).inputs.length ≤ len → ∃ k, (r k).inputs = [] := fun len => by
    induction len with
    | zero => exact fun n hn => ⟨n, List.length_eq_zero_iff.1 (by omega)⟩
    | succ len ih =>
      intro n hn
      rcases shrink n with hl | he
      · exact ih (n + 1) (by omega)
      · exact ⟨n + 1, he⟩
  obtain ⟨k, hk⟩ := reach _ 0 (Nat.le_refl _)
  exact ⟨k, stays k hk⟩

/-- Where the schedule is empty, the agent that `ownMove` names takes the step. -/
theorem step_own {s t : State} (hi : s.inputs = []) (h : step s = .next t) :
    ∃ e d, s.ownMove = some (e, d) ∧ State.entryStep { s with turn := d } e = some (.next t) ∧ t.inputs = [] ∧ t.turn = d := by
  obtain ⟨-, -, e, is, d, he, hti, htt, hl | ⟨rfl, hm⟩⟩ := step_entry h
  · simp [hi] at hl
  · have hs : { s with inputs := [] } = s := by rw [← hi]
    rw [hs] at hm
    rw [show ({ s with inputs := [], turn := d } : State) = { s with turn := d } by rw [← hi]] at he
    exact ⟨e, d, hm, he, hti, htt⟩

/-! How many frames a step leaves. -/

@[simp] theorem withTopActs_length (as : List Act) (fs : List Frame) : (withTopActs as fs).length = fs.length := by
  cases fs <;> rfl

/-- Taking a word from a program leaves every frame. -/
theorem IssuedFrom.depth {s s' : State} (h : IssuedFrom s s') : s'.cs.length = s.cs.length := by
  cases h with
  | body _ _ _ _ _ _ _ => simp
  | _ => rfl

/-- A resumption pops the newest frame at most (R289). -/
theorem State.resume_depth (s : State) : s.cs.length ≤ s.resume.cs.length + 1 := by
  rcases s.resume_cases with ⟨-, h⟩ | ⟨_, _, _, _, _, -, h⟩ | ⟨_, _, _, _, -, h⟩ | ⟨_, _, _, -, h⟩ | ⟨_, _, _, _, _, -, h⟩ <;>
    rw [h]
  · unfold State.interruptReturn
    split <;> simp_all
  · simp
  · simp
  · omega
  · omega

/-- A command pops the newest frame at most. -/
theorem exec_depth {i : Instr} {s t : State} (h : exec i s = .next t) : s.cs.length ≤ t.cs.length + 1 := by
  cases exec_cases h with
  | returned h r w as ha => exact Nat.le_trans (by simp) (State.resume_depth _)
  | slotSet t i val T x => cases T <;> exact Nat.le_succ _
  | vectorLevel => split <;> exact Nat.le_succ _
  | periphLevel => split <;> exact Nat.le_succ _
  | invoked => simp [State.invoke, State.setWait]
  | demuxRun => simp [State.demuxPush, State.setWait]
  | demuxed => simp [State.demuxPush, State.setWait]
  | _ => exact Nat.le_succ _

/-- A delivery that is not spurious pushes a frame (R287, R288). -/
theorem State.deliver_depth {s : State} {v : Nat} (h : s.rawSlot v ≠ .null) : (s.deliver v).cs.length = s.cs.length + 1 := by
  have hc : (s.consumeRequest v).cs = s.cs := by unfold State.consumeRequest; split <;> rfl
  unfold State.deliver
  cases hs : s.rawSlot v with
  | null => exact absurd hs h
  | handler x => simp [State.startWork, State.invoke, hc]
  | demux g =>
    simp only [State.startWork]
    rcases State.demuxStart_cases ((s.consumeRequest v).pushFrame v) .nothing g with ⟨-, h'⟩ | ⟨-, h'⟩ <;>
      simp [h', State.demuxPush, State.setWait, hc]

/-- A spurious delivery leaves the frames as they were (R288, R289). -/
theorem State.deliver_null {s : State} {v : Nat} (h : s.rawSlot v = .null) : (s.deliver v).cs = s.cs := by
  have hc : (s.consumeRequest v).cs = s.cs := by unfold State.consumeRequest; split <;> rfl
  simp [State.deliver, h, State.startWork, State.interruptReturn, State.pushFrame, hc]

/-- An engine step pops the newest frame at most. -/
theorem State.demuxStep_depth (s : State) (g : Nat) (snap : Word) (pos : Nat) (phase : Phase) (as : List Act) :
    s.cs.length ≤ (s.demuxStep g snap pos phase as).cs.length + 1 := by
  cases phase with
  | scan =>
    simp only [State.demuxStep, State.demuxScan]
    split
    · exact Nat.le_trans (by simp) (State.resume_depth _)
    · split <;> simp [State.invoke]
  | called i =>
    simp only [State.demuxStep, State.demuxAfter]
    rw [State.clearServiced_frame]
    simp

/-- No step pops more than the newest frame. -/
theorem StepCase.depth {s t : State} (h : StepCase s t) : s.cs.length ≤ t.cs.length + 1 := by
  cases h with
  | source e h => subst h; rw [State.sourceStep_frame]; exact Nat.le_succ _
  | deliver v hv h =>
    subst h
    by_cases hn : s.rawSlot v = .null
    · rw [State.deliver_null hn]; exact Nat.le_succ _
    · rw [State.deliver_depth hn]; omega
  | engine g snap pos phase as ha h => subst h; exact State.demuxStep_depth s g snap pos phase as
  | command i s' hs h => exact hs.depth ▸ exec_depth h
  | illegal w s' hs h => subst h; rw [← hs.depth]; exact Nat.le_succ _

/-! Fairness and starvation. -/

/-- The machine's steps without end are a run of the block that is fair to the running activation (R292), and to every vector
that stays the one a delivery would take. A vector that R286 always passes over for another cannot be delivered by any run. -/
theorem steps_fair (hr : ∀ n, step (r n) = .next (r (n + 1))) : ∃ c, IsRun c r ∧ FairActivation c r ∧
    ∀ v n, (∀ m, n ≤ m → (r m).selected = some v) → ∃ m, n ≤ m ∧ c m = .deliver := by
  have hstep := fun n => step_entry (hr n)
  choose hc hcl c is d he hi ht hor using hstep
  obtain ⟨k, hk⟩ := inputs_run_out hr
  have own : ∀ m, k ≤ m → State.ownMove (r m) = some (c m, d m) := fun m hm => by
    have h₀ := hk m hm
    rcases hor m with hl | ⟨-, h⟩
    · simp [h₀] at hl
    · rwa [show { r m with inputs := [] } = r m by rw [← h₀]] at h
  refine ⟨c, fun n => ⟨hc n, hcl n, is n, d n, he n⟩, fun n h => ?_, fun v n h => ?_⟩
  · obtain ⟨h₁, hp₁⟩ := h (max n k) (Nat.le_max_left _ _)
    obtain ⟨h₂, hp₂⟩ := h (max n k + 1) (Nat.le_succ_of_le (Nat.le_max_left n k))
    rcases State.ownMove_cases (own (max n k) (Nat.le_max_right _ _)) with ⟨hrun, -⟩ | ⟨hdel, v, hv, hd, -⟩
    · exact ⟨_, Nat.le_max_left _ _, by rw [hrun]; rfl⟩
    · rcases State.ownMove_cases (own (max n k + 1) (Nat.le_succ_of_le (Nat.le_max_right n k))) with
        ⟨hrun, -⟩ | ⟨-, _, -, -, hn | hd'⟩
      · exact ⟨_, Nat.le_succ_of_le (Nat.le_max_left n k), by rw [hrun]; rfl⟩
      · rw [hn] at h₂; cases h₂
      · exfalso
        have hslot : (r (max n k)).rawSlot v ≠ .null := fun hnull => by
          rw [ht, hd, State.turnAfter, if_pos hnull] at hd'; cases hd'
        have hlen : (r (max n k + 1)).cs.length = (r (max n k)).cs.length + 1 :=
          entryStep_deliver hv (hdel ▸ he (max n k)) ▸ State.deliver_depth hslot
        have hp := congrArg Prod.fst (hp₂.trans hp₁.symm)
        simp only [State.place] at hp
        omega
  · rcases State.ownMove_cases (own (max n k) (Nat.le_max_right _ _)) with ⟨-, -, hd, -⟩ | ⟨hdel, -⟩
    · rcases State.ownMove_cases (own (max n k + 1) (Nat.le_succ_of_le (Nat.le_max_right n k))) with
        ⟨-, -, -, hn | hd'⟩ | ⟨hdel, -⟩
      · rw [h _ (Nat.le_succ_of_le (Nat.le_max_left n k))] at hn; cases hn
      · rw [ht, hd] at hd'; cases hd'
      · exact ⟨_, Nat.le_succ_of_le (Nat.le_max_left n k), hdel⟩
    · exact ⟨_, Nat.le_max_left _ _, hdel⟩

/-- What runs below a request that is never served does not run again (70_reset_and_hazards.md R335, R342): on an empty
schedule, if at every return to `k` frames some vector with work is eligible, every step from `k` frames is a delivery.
With `k = 0` it is the mainline that never runs again. -/
theorem lower_starved (k : Nat) (hr : ∀ n, step (r n) = .next (r (n + 1))) (hi : (r 0).inputs = [])
    (hk : k ≤ (r 0).cs.length) (ht : (r 0).turn = .delivery)
    (hv : ∀ n, (r n).cs.length = k → ∃ v, (r n).selected = some v ∧ (r n).rawSlot v ≠ .null) :
    ∀ n, (r n).cs.length = k → ∃ v, r (n + 1) = State.deliver { r n with turn := .delivery } v := by
  have one : ∀ n, (r n).inputs = [] → k ≤ (r n).cs.length → ((r n).cs.length = k → (r n).turn = .delivery) →
      (r (n + 1)).inputs = [] ∧ k ≤ (r (n + 1)).cs.length ∧ ((r (n + 1)).cs.length = k → (r (n + 1)).turn = .delivery) ∧
        ((r n).cs.length = k → ∃ v, r (n + 1) = State.deliver { r n with turn := .delivery } v) := fun n hin hkn htn => by
    obtain ⟨e, d, hm, he, hi', ht'⟩ := step_own hin (hr n)
    rcases State.ownMove_cases hm with ⟨rfl, -, rfl, hor⟩ | ⟨rfl, v, hsel, hd, -⟩
    · have hne : (r n).cs.length ≠ k := fun h => by
        obtain ⟨v, hsv, -⟩ := hv n h
        rcases hor with hn | ha
        · rw [hsv] at hn; cases hn
        · rw [htn h] at ha; cases ha
      have hdepth : (r n).cs.length ≤ (r (n + 1)).cs.length + 1 := (State.entryStep_next he).depth
      exact ⟨hi', by omega, fun _ => ht', fun h => absurd h hne⟩
    · have hdel : r (n + 1) = State.deliver { r n with turn := d } v := entryStep_deliver (is := (r n).inputs) hsel he
      by_cases hnull : (r n).rawSlot v = .null
      · have hne : (r n).cs.length ≠ k := fun h => by
          obtain ⟨u, hu, hnn⟩ := hv n h
          rw [hsel] at hu
          exact hnn (Option.some.inj hu ▸ hnull)
        have hcs : (r (n + 1)).cs = (r n).cs := hdel ▸ State.deliver_null hnull
        exact ⟨hi', hcs ▸ hkn, fun h => absurd (hcs ▸ h) hne, fun h => absurd h hne⟩
      · rw [State.turnAfter, if_neg hnull] at hd
        have hlen : (r (n + 1)).cs.length = (r n).cs.length + 1 := hdel ▸ State.deliver_depth hnull
        exact ⟨hi', by omega, fun h => by omega, fun _ => ⟨v, hd ▸ hdel⟩⟩
  have all : ∀ n, (r n).inputs = [] ∧ k ≤ (r n).cs.length ∧ ((r n).cs.length = k → (r n).turn = .delivery) := fun n => by
    induction n with
    | zero => exact ⟨hi, hk, fun _ => ht⟩
    | succ n ih =>
      obtain ⟨h₁, h₂, h₃, -⟩ := one n ih.1 ih.2.1 ih.2.2
      exact ⟨h₁, h₂, h₃⟩
  exact fun n => (one n (all n).1 (all n).2.1 (all n).2.2).2.2.2

/-! The end of a run. -/

/-- Nothing has a step, so nothing runs, and the mainline has nothing left: the shape of a state that stops as `runEnded`. -/
theorem State.autonomousStep_runEnded {s : State} (h : s.autonomousStep = .fault .runEnded) :
    s.selected = none ∧ s.mainlineFree = true ∧ s.main = [] := by
  have idle : s.selected = none → s.runningStep = none → s.idleReason = .runEnded → s.mainlineFree = true ∧ s.main = [] := by
    intro _ hr hi
    unfold State.idleReason at hi
    split at hi
    · cases hi
    · next hh =>
      split at hi
      · cases hi
      · next hb =>
        split at hi
        · next hcs =>
          have hm : s.acts = s.mact := by simp [State.acts, hcs]
          have hhold : s.hold = none := by simpa [State.heldOn, hcs] using hh
          simp only [State.runningStep, hh] at hr
          cases ha : s.acts with
          | nil =>
            have hmact : s.mact = [] := hm ▸ ha
            have hready : s.hostReady = true := by simp [State.hostReady, hh, ha, hcs]
            refine ⟨by simp [State.mainlineFree, hcs, hmact, hhold], ?_⟩
            cases hmain : s.main with
            | nil => rfl
            | cons w ws => simp [ha, hready, State.nextWord, hmain] at hr
          | cons a as =>
            cases a with
            | body h' rest w => exact absurd ha (hb _ _ _ _)
            | demux g snap pos phase => simp [ha] at hr
        · cases hi
  unfold State.autonomousStep at h
  split at h
  · next e d hm =>
    obtain ⟨r, hr⟩ := Option.isSome_iff_exists.1 (State.ownMove_admitted hm)
    obtain ⟨t, rfl⟩ := State.entryStep_is_next hr
    rw [hr] at h
    cases h
  · next hm =>
    have : s.selected = none ∧ s.runningStep = none := by
      unfold State.ownMove at hm
      split at hm
      · next h₁ h₂ => exact ⟨h₁, h₂⟩
      · cases hm
      · cases hm
      · split at hm <;> cases hm
    exact ⟨this.1, idle this.1 this.2 (by simpa using h)⟩

/-- The mainline's own program is ready to issue wherever it runs and awaits no response. -/
theorem State.hostReady_of_mainlineFree {s : State} (h : s.mainlineFree = true) : s.hostReady = true := by
  simp only [State.mainlineFree, Bool.and_eq_true, List.isEmpty_iff, Option.isNone_iff_eq_none] at h
  simp [State.hostReady, State.heldOn, State.acts, h.1.1, h.1.2, h.2]

/-- A schedule that stops as `runEnded` has had every entry passed over, and none of them is the mainline's. -/
theorem scheduledStep_runEnded {is : List Input} {s : State} (h : scheduledStep is s = .fault .runEnded) :
    s.selected = none ∧ s.mainlineFree = true ∧ s.main = [] ∧ mainlineIssues is s = false := by
  induction is with
  | nil =>
    obtain ⟨h₁, h₂, h₃⟩ := State.autonomousStep_runEnded h
    exact ⟨selected_inputs s [] ▸ h₁, h₂, h₃, rfl⟩
  | cons e rest ih =>
    simp only [scheduledStep] at h
    split at h
    · next r hr =>
      obtain ⟨t, rfl⟩ := State.entryStep_is_next hr
      cases h
    · next hr =>
      obtain ⟨h₁, h₂, h₃, h₄⟩ := ih h
      have hn : s.entryStep e = none := by
        have := entryStep_schedule s rest s.turn e
        rw [show State.entryStep { s with inputs := rest, turn := s.turn } e = none from hr] at this
        simpa using this.symm
      refine ⟨h₁, h₂, h₃, ?_⟩
      cases e with
      | issue w => simp [State.entryStep, State.hostReady_of_mainlineFree h₂] at hn
      | run => simp [mainlineIssues, Input.isIssue, hn, h₄]
      | deliver => simp [mainlineIssues, Input.isIssue, hn, h₄]
      | source ev => simp [State.entryStep] at hn

/-- The machine stops as `runEnded` only at the end of a run (R20). -/
theorem ended_of_runEnded {s : State} (h : step s = .fault .runEnded) : s.ended = true := by
  simp only [step, advance] at h
  split at h
  · cases h
  · split at h
    · cases h
    · next hf =>
      split at h
      · cases h
      · next hr =>
        obtain ⟨h₁, h₂, h₃, h₄⟩ := scheduledStep_runEnded h
        simp [State.ended, State.clean, h₁, h₂, h₃, h₄, hf, hr]

/-- An ended run whose schedule is empty has no further step (R20). -/
theorem runEnded_of_ended {s : State} (hc : cfgOk s.cfg = true) (hi : s.inputs = []) (h : s.ended = true) :
    step s = .fault .runEnded := by
  simp only [State.ended, State.mainlineFree, State.clean, Bool.and_eq_true, List.isEmpty_iff, Option.isNone_iff_eq_none,
    Bool.not_eq_true'] at h
  obtain ⟨⟨⟨⟨hmain, -⟩, ⟨hcs, hmact⟩, hhold⟩, hsel⟩, hf, hr⟩ := h
  have hrun : State.runningStep { s with inputs := [] } = none := by
    simp [State.runningStep, State.heldOn, State.acts, State.nextWord, hcs, hmact, hhold, hmain]
  have hown : State.ownMove { s with inputs := [] } = none := by simp [State.ownMove, hsel, hrun]
  have hidle : State.idleReason { s with inputs := [] } = .runEnded := by
    simp [State.idleReason, State.heldOn, State.acts, hcs, hmact, hhold]
  have hown' : State.autonomousStep { s with inputs := [] } = .fault .runEnded := by
    rw [State.autonomousStep, hown]
    exact congrArg _ hidle
  have hadv : step s = scheduledStep s.inputs s := by simp [step, advance, hc, hf, hr]
  rw [hadv, hi]
  exact hown'

end Sys2Proof.Machine
end

