-- ==== Sys2Proof/Machine/Api.lean ====
section
/-! DEFINITION. Assembler forms (30_encoding.md R130, R131) and the source's API as command sequences (R133). The `putch`
wait is host code between commands; only its test and the commands it issues are here. -/

namespace Sys2Proof.Machine

/-- The mnemonic of a command (R114, R130). -/
def mnemonicOf : Instr → String
  | .qput _ _ => "QPUT"
  | .qget _ => "QGET"
  | .qlen _ => "QLEN"
  | .qcap _ => "QCAP"
  | .settask _ _ _ => "SETTASK"
  | .runtask _ _ => "RUNTASK"
  | .getmask _ _ => "GETMASK"
  | .tsize _ => "TSIZE"
  | .tret => "TRET"
  | .setlvlv _ _ => "SETLVLV"
  | .setlvlp _ _ => "SETLVLP"
  | .rdlvl _ => "RDLVL"
  | .setdmac _ _ => "SETDMAC"
  | .instgt _ _ _ => "INSTGT"
  | .gdemux _ => "GDEMUX"
  | .rdgrp _ => "RDGRP"
  | .clrgrp _ _ => "CLRGRP"
  | .rdgen _ => "RDGEN"

/-- The operands in the order UNIT, IDX, VAL, those the format does not use omitted (R130, R131). -/
def operandsOf : Instr → List Nat
  | .qput q b => [q, b.toNat]
  | .qget q => [q]
  | .qlen q => [q]
  | .qcap q => [q]
  | .settask t i val => [t, i, val.toNat]
  | .runtask t i => [t, i]
  | .getmask t w => [t, w]
  | .tsize t => [t]
  | .tret => []
  | .setlvlv v p => [v, p]
  | .setlvlp pid p => [pid, p]
  | .rdlvl v => [v]
  | .setdmac ch v => [ch, v]
  | .instgt g i val => [g, i, val.toNat]
  | .gdemux g => [g]
  | .rdgrp g => [g]
  | .clrgrp g i => [g, i]
  | .rdgen g => [g]

/-- A command as assembler text (R130). -/
def asmText (i : Instr) : String :=
  if (operandsOf i).isEmpty then mnemonicOf i
  else mnemonicOf i ++ " " ++ ", ".intercalate ((operandsOf i).map fun n => toString n)

/-- An operation of the source's API (R133). -/
inductive ApiCall where
  | put (q : Nat) (b : Byte)
  | get (q : Nat)
  | length (q : Nat)
  | setTask (t i : Nat) (cb : Slot)
  | runTask (t i : Nat)
  | getMask (t : Nat)
  | size (t : Nat)
  | setLevelVector (v p : Nat)
  | setLevelPeripheral (pid p : Nat)
  | installGroupTask (g i : Nat) (task : Slot)
  | setDmac (ch v : Nat)
  | demuxHandler (g : Nat)
  | getch (rx : Nat)
  | recvLength (rx : Nat)
  | sendLength (tx : Nat)
  deriving DecidableEq, Repr

/-- The commands of an API operation (R133); `get_mask` of the raw table reads every mask word. -/
def expandApi (c : Cfg) : ApiCall → List Instr
  | .put q b => [.qput q b]
  | .get q => [.qget q]
  | .length q => [.qlen q]
  | .setTask t i cb => [.settask t i (encodeHandle cb)]
  | .runTask t i => [.runtask t i]
  | .getMask t =>
    if t = rawSel then (List.range ((c.nv + 31) / 32)).map fun w => .getmask t w else [.getmask t 0]
  | .size t => [.tsize t]
  | .setLevelVector v p => [.setlvlv v p]
  | .setLevelPeripheral pid p => [.setlvlp pid p]
  | .installGroupTask g i task => [.instgt g i (encodeHandle task)]
  | .setDmac ch v => [.setdmac ch v]
  | .demuxHandler g => [.gdemux g]
  | .getch rx => [.qget rx]
  | .recvLength rx => [.qlen rx]
  | .sendLength tx => [.qlen tx]

/-- `putch` waits while the send queue is at least 7/8 full: `8*LEN >= 7*C`, exactly (R133). -/
def putchWaits (len cap : Nat) : Bool := 7 * cap ≤ 8 * len

/-- The commands of a `putch(b)` whose test sent it back `polls` times: a QLEN for each, one more, then the QPUT (R133). -/
def putchCommands (tx : Nat) (b : Byte) (polls : Nat) : List Instr :=
  List.replicate (polls + 1) (.qlen tx) ++ [.qput tx b]

/-- The bytes a `putch` sends: with auto-CRLF on, 0x0D goes before 0x0A (R133). -/
def putchBytes (autoCrlf : Bool) (b : Byte) : List Byte :=
  if autoCrlf && decide (b = 0x0A#8) then [0x0D#8, 0x0A#8] else [b]

end Sys2Proof.Machine
end

