-- ==== Sys2Proof/Tests/Slice0.lean ====
section
/-! SUPPORT. Tests: ill-formed terms, words written out from the encoding, vectors of 95_test_vectors.md for single steps,
and for every statement with hypotheses a witness that meets them. Expected values are the spec's. -/

namespace Sys2Proof.Tests

open Sys2Proof.Machine

/-! Helpers. -/

/-- The next state of a result. -/
def out : Result → Option State
  | .next t => some t
  | .fault _ => none
  | .refused _ => none

/-- A fact about the next state of a result. -/
def after (r : Result) (p : State → Bool) : Bool :=
  match out r with
  | some t => p t
  | none => false

/-- The newest event is this response of this context. -/
def responds (t : State) (c : Ctx) (w : CmdWord) (v : Word) : Bool := decide (t.hist.getLast? = some (.cmd c w v))

/-- Reset, in `Irq(v)` with body `h` running. -/
def inIrq (v h : Nat) : State := { State.reset with cs := [⟨v, 5#8, [.body h [] .nothing]⟩] }

/-- Reset with group 110's source 3 served by `Handler(0x20)`, as INSTGT leaves it (vector G1), and these latches. -/
def withTask (flags : Word) (s : State) : State :=
  { s with gt := [(110, [(3, .handler 0x20)])], raw := [(110, .demux 110)], gen := [(110, 8#32)], grp := [(110, flags)] }

/-- Vector 64 enabled at priority 3, its latch set, and this in its raw slot. -/
def requested (x : Slot) : State :=
  { State.reset with ien := [(64, true)], ipr := [(64, 3#8)], ir := [(64, true)], raw := [(64, x)], inputs := [.deliver] }

/-- In `Irq(70)`, the engine of group 110 above a body that waits on its GDEMUX. -/
def engine (snap : Word) (pos : Nat) (phase : Phase) : State :=
  { withTask 8#32 State.reset with
    cs := [⟨70, 5#8, [.demux 110 snap pos phase, .body 0x30 [] (.gdemux 110)]⟩]
    dact := [(110, .active)], inputs := [.run] }

/-! Well-formedness: an ill-formed term for each check. -/

theorem test_wf_unit : Instr.wf (.qlen 1023) = true ∧ Instr.wf (.qlen 1024) = false := by decide
theorem test_wf_idx : Instr.wf (.getmask 0x100 255) = true ∧ Instr.wf (.getmask 0x100 256) = false := by decide

/-- Cfg_T is well formed, and R8's and R9's conditions each refuse a configuration that breaks them. -/
theorem test_cfg :
    cfgOk Config.cfgT = true ∧
    cfgOk { Config.cfgT with nv := 257 } = false ∧
    cfgOk { Config.cfgT with prioMax := 0 } = false ∧
    cfgOk { Config.cfgT with nf := 199 } = false ∧
    cfgOk { Config.cfgT with vectors := [⟨256, 0, true⟩], periphs := [] } = false ∧
    cfgOk { Config.cfgT with groups := [⟨110, 33, .edge⟩] } = false ∧
    cfgOk { Config.cfgT with periphs := [⟨7, [58, 61], 58⟩] } = false ∧
    cfgOk { Config.cfgT with groups := [⟨60, 4, .edge⟩] } = false ∧
    cfgOk { Config.cfgT with queues := [⟨0, 4, .irq 256, .main⟩] } = false ∧
    cfgOk { Config.cfgT with queues := [⟨0, 0, .main, .main⟩] } = false ∧
    cfgOk { Config.cfgT with bodies := [⟨0, []⟩] } = false := by decide

/-! Decoding: every word of 30_encoding.md R132. -/

theorem test_decode_queue :
    decode 0x0403000000000041#64 = .ok (.qput 3 0x41#8) ∧ decode 0x0803000000000000#64 = .ok (.qget 3) ∧
    decode 0x0C03000000000000#64 = .ok (.qlen 3) ∧ decode 0x1003000000000000#64 = .ok (.qcap 3) := by decide
theorem test_decode_table :
    decode 0x2100400000000010#64 = .ok (.settask 0x100 64 0x10#32) ∧
    decode 0x206E030000000000#64 = .ok (.settask 110 3 0#32) ∧ decode 0x246E030000000000#64 = .ok (.runtask 110 3) ∧
    decode 0x2900010000000000#64 = .ok (.getmask 0x100 1) ∧ decode 0x2C6E000000000000#64 = .ok (.tsize 110) ∧
    decode 0x3000000000000000#64 = .ok .tret := by decide
theorem test_decode_level :
    decode 0x406E050000000000#64 = .ok (.setlvlv 110 5) ∧ decode 0x4407030000000000#64 = .ok (.setlvlp 7 3) ∧
    decode 0x486E000000000000#64 = .ok (.rdlvl 110) ∧ decode 0x4C00400000000000#64 = .ok (.setdmac 0 64) := by decide
theorem test_decode_group :
    decode 0x606E030000000020#64 = .ok (.instgt 110 3 0x20#32) ∧ decode 0x646E000000000000#64 = .ok (.gdemux 110) ∧
    decode 0x686E000000000000#64 = .ok (.rdgrp 110) ∧ decode 0x6C6E070000000000#64 = .ok (.clrgrp 110 7) ∧
    decode 0x706E000000000000#64 = .ok (.rdgen 110) := by decide
/-- Vectors E1 to E7. -/
theorem test_decode_illegal :
    decode 0x0000000000000000#64 = .error .unknownOpcode ∧ decode 0x1400000000000000#64 = .error .unknownOpcode ∧
    decode 0xFC00000000000000#64 = .error .unknownOpcode ∧ decode 0x0803000100000000#64 = .error .reservedNonzero ∧
    decode 0x0403000000000141#64 = .error .unusedFieldNonzero ∧
    decode 0x3000000000000001#64 = .error .unusedFieldNonzero ∧
    decode 0x0803010000000000#64 = .error .unusedFieldNonzero := by decide
/-- R132 the other way: `DEMUX(110)` and the words of one row of each format. -/
theorem test_encode :
    encode (.settask 0x100 110 (encodeHandle (.demux 110))) = 0x21006E008000006E#64 ∧
    encode (.qput 3 0x41#8) = 0x0403000000000041#64 ∧ encode (.getmask 0x100 1) = 0x2900010000000000#64 ∧
    encode .tret = 0x3000000000000000#64 ∧ encode (.rdgen 110) = 0x706E000000000000#64 := by decide
theorem test_decode_table_word :
    decodeTableWord 64 0x0403000000000041 = some (.qput 3 0x41#8) ∧ decodeTableWord 64 0 = none := by decide

/-! Queues: vectors Q3, Q5, Q6, Q7, Q9, Q10, Q11, Q1. -/

theorem test_qput : after (exec (.qput 0 0x41#8) State.reset) (fun t =>
    decide (t.bufByte? 0 0 = some 0x41#8) && decide (t.wrOf 0 = 1) &&
      responds t .main 0x0400000000000041#64 0#32) = true := by decide
theorem test_qput_full : after (exec (.qput 0 0x45#8) { State.reset with wr := [(0, 4)] }) (fun t =>
    decide (t.faults = [.queueOverflow 0]) && decide (t.wrOf 0 = 4) && decide (t.buf = [])) = true := by decide
theorem test_qget_wraps :
    after (exec (.qget 0) { State.reset with rd := [(0, 7)], buf := [(0, [(3, 0x99#8)])] }) (fun t =>
      decide (t.rdOf 0 = 0) && responds t .main 0x0800000000000000#64 0x99#32) = true := by decide
theorem test_qget_empty :
    after (exec (.qget 0) State.reset) (fun t => decide (t.hold = some 0) && decide (t.hist = [])) = true ∧
    after (exec (.qget 2) (inIrq 65 0x30)) (fun t => decide (t.faults = [.blockInInterrupt 2 (.irq 65)])) = true := by decide
theorem test_qlen : after (exec (.qlen 0) { State.reset with rd := [(0, 6)], wr := [(0, 1)] }) (fun t =>
    responds t .main 0x0C00000000000000#64 3#32) = true := by decide
theorem test_qcap : after (exec (.qcap 0) State.reset) (fun t => responds t .main 0x1000000000000000#64 4#32) = true := by
  decide

/-! Tables: vectors T1, T3, T19, T14, T11, T2, T16, T15. -/

theorem test_settask : after (exec (.settask 0x100 64 0x10#32) State.reset) (fun t =>
    decide (t.rawSlot 64 = .handler 0x10) && responds t .main 0x2100400000000010#64 1#32) = true ∧
    after (exec (.settask 112 22 1#32) State.reset) (fun t =>
      decide (t.gt = []) && responds t .main 0x2070160000000001#64 0#32) = true := by decide
theorem test_settask_blocked : after (exec (.settask 0x100 110 5#32) (inIrq 110 0x20)) (fun t =>
    decide (t.faults = [.tableWriteDuringDispatch 0x100 110]) && decide (t.raw = [])) = true := by decide
theorem test_runtask : after (exec (.runtask 0x100 66) { inIrq 70 0x30 with raw := [(66, .handler 0x12)] }) (fun t =>
    decide (t.hist = [.invoke (.irq 70) 0x12]) && decide (t.acts =
      [.body 0x12 [0x3000000000000000#64] .nothing, .body 0x30 [] (.runtask 0x100 66)])) = true := by decide
theorem test_runtask_bad : after (exec (.runtask 112 22) (inIrq 70 0x30)) (fun t =>
    decide (t.faults = [.runTaskBadIndex 112 22])) = true := by decide
theorem test_getmask : after (exec (.getmask 0x100 2) { State.reset with raw := [(64, .handler 0x10)] }) (fun t =>
    responds t .main 0x2900020000000000#64 1#32) = true := by decide
theorem test_tsize : after (exec (.tsize 112) State.reset) (fun t =>
    responds t .main 0x2C70000000000000#64 22#32) = true := by decide
theorem test_tret : after (exec .tret (inIrq 64 0x10)) (fun t =>
    decide (t.cs = []) && decide (t.hist = [.ret (.irq 64) 0x10, .intReturn 64])) = true := by decide
theorem test_tret_stray : after (exec .tret State.reset) (fun t => decide (t.faults = [.strayReturn .main])) = true := by
  decide

/-! Levels: vectors L1, L4, L7, L2, L6, L12. -/

theorem test_setlvlv : after (exec (.setlvlv 110 5) State.reset) (fun t =>
    t.ienBit 110 && decide (t.iprField 110 = 5#8)) = true ∧
    after (exec (.setlvlv 64 16) State.reset) (fun t =>
      decide (t.ien = []) && decide (t.ipr = []) && responds t .main 0x4040100000000000#64 0#32) = true := by decide
theorem test_setlvlp : after (exec (.setlvlp 7 3) State.reset) (fun t =>
    t.ienBit 58 && t.ienBit 59 && t.ienBit 60 && decide (t.iprField 58 = 3#8)) = true := by decide
theorem test_rdlvl :
    after (exec (.rdlvl 110) { State.reset with ien := [(110, true)], ipr := [(110, 5#8)] }) (fun t =>
      responds t .main 0x486E000000000000#64 0x80000501#32) = true ∧
    after (exec (.rdlvl 200) { State.reset with ir := [(200, true)] }) (fun t =>
      responds t .main 0x48C8000000000000#64 0x80000002#32) = true := by decide
theorem test_setdmac : after (exec (.setdmac 0 64) State.reset) (fun t =>
    t.refused && decide (t.hist = [.refuse .unmodelledSetdmac])) = true := by decide

/-! Groups and the engine: vectors G1, G2, G16, G13, G7, G10, G11, G22. -/

theorem test_instgt : after (exec (.instgt 110 3 0x20#32) State.reset) (fun t =>
    decide (t.gtSlot 110 3 = .handler 0x20) && decide (t.rawSlot 110 = .demux 110) &&
      decide (t.genValue 110 = 8#32) && !t.ienBit 110) = true := by decide
theorem test_instgt_null : after (exec (.instgt 110 3 0#32) (withTask 0#32 State.reset)) (fun t =>
    decide (t.gtSlot 110 3 = .null) && decide (t.rawSlot 110 = .demux 110) && decide (t.genValue 110 = 0#32)) = true := by
  decide
theorem test_gdemux : after (exec (.gdemux 110) (withTask 0x88#32 (inIrq 70 0x30))) (fun t =>
    decide (t.acts = [.demux 110 8#32 0 .scan, .body 0x30 [] (.gdemux 110)]) && decide (t.dactOf 110 = .active)) = true := by
  decide
theorem test_gdemux_main : after (exec (.gdemux 110) State.reset) (fun t =>
    decide (t.faults = [.dispatchInMainline 0x646E000000000000#64])) = true := by decide
theorem test_rdgrp : after (exec (.rdgrp 110) { State.reset with grp := [(110, 0x80#32)] }) (fun t =>
    responds t .main 0x686E000000000000#64 0x80#32) = true := by decide
theorem test_clrgrp : after (exec (.clrgrp 110 7) { State.reset with grp := [(110, 0x80#32)] }) (fun t =>
    decide (t.grpValue 110 = 0#32)) = true ∧
    after (exec (.clrgrp 112 0) { State.reset with src := [(112, 1#32)] }) (fun t =>
      decide (t.grpValue 112 = 1#32) && responds t .main 0x6C70000000000000#64 0#32) = true := by decide
theorem test_rdgen : after (exec (.rdgen 110) (withTask 0#32 State.reset)) (fun t =>
    responds t .main 0x706E000000000000#64 8#32) = true := by decide
/-- Program P2's rows 6, 8 and 9 in GDEMUX's form (vector G16): invoke, clear after the call, finish with response 1. -/
theorem test_engine :
    after (step (engine 8#32 0 .scan)) (fun t => decide (t.hist = [.invoke (.irq 70) 0x20])) = true ∧
    after (step (engine 8#32 0 (.called 3))) (fun t => decide (t.grpValue 110 = 0#32)) = true ∧
    after (step (engine 8#32 4 .scan)) (fun t =>
      responds t (.irq 70) 0x646E000000000000#64 1#32 && decide (t.dactOf 110 = .idle)) = true := by decide

/-! Steps, delivery and sources: vectors X1, X2, X4, X6, G8, Q9, and the end of a run. -/

theorem test_deliver : after (step (requested (.handler 0x12))) (fun t =>
    decide (t.cs = [⟨64, 3#8, [.body 0x12 [0x3000000000000000#64] .nothing]⟩]) && !t.irBit 64 &&
      decide (t.hist = [.deliver 64 3#8, .invoke (.irq 64) 0x12])) = true := by decide +kernel
theorem test_deliver_spurious : after (step (requested .null)) (fun t =>
    decide (t.cs = []) && !t.irBit 64 && decide (t.hist = [.deliver 64 3#8, .intReturn 64])) = true := by decide +kernel
theorem test_select_tie : { State.reset with
    ien := [(64, true), (65, true), (66, true)], ipr := [(64, 3#8), (65, 3#8), (66, 2#8)],
    ir := [(64, true), (65, true), (66, true)] }.selected = some 64 := by decide +kernel
theorem test_source_edge :
    after (step { State.reset with inputs := [.source (.edge 110 7)] }) (fun t => decide (t.grpValue 110 = 0x80#32)) = true ∧
    after (step { State.reset with inputs := [.source (.edge 110 40)] }) (fun t => decide (t.grp = [])) = true := by decide
theorem test_step_illegal : after (step (State.reset.withFetchWord 64 0x1400000000000000)) (fun t =>
    decide (t.faults = [.illegalCommand 0x1400000000000000#64])) = true := by decide
/-- The outcomes with no next state: an ended run, a hold that nothing lifts, a stopped block, a refused configuration. -/
theorem test_step_ends :
    (match step State.reset with | .fault .runEnded => true | _ => false) = true ∧
    (match step { State.reset with hold := some 0 } with | .fault (.heldForEver 0) => true | _ => false) = true ∧
    (match step { State.reset with faults := [.badQueue 9] } with
      | .fault (.stopped (.badQueue 9)) => true | _ => false) = true ∧
    (match step { State.reset with refused := true } with | .refused .stoppedByRefusal => true | _ => false) = true ∧
    (match step { State.reset with cfg := { Config.cfgT with nv := 0 } } with
      | .refused .illFormedConfig => true | _ => false) = true := by decide +kernel
/-- R20: a word that a body issues after the end is none of the mainline's; a held QGET, a word left to the mainline and an
activation of `M` are. -/
theorem test_ended :
    State.reset.ended = true ∧ { State.reset with hold := some 0 }.ended = false ∧
    { State.reset with mact := [.body 0x30 [] .nothing] }.ended = false ∧
    (State.reset.placeWord 0x3000000000000000#64).ended = false ∧
    { requested (.handler 0x99) with
      ir := [], inputs := [.source (.vreq 64), .deliver, .issue 0x3000000000000000#64] }.ended = true ∧
    { requested (.handler 0x12) with
      ir := [], inputs := [.source (.vreq 64), .deliver, .run, .issue 0x3000000000000000#64] }.ended = false := by
  decide +kernel
/-- R292 in R336's state, a group delivered for ever to an empty slot: after a delivery the mainline has its turn. -/
theorem test_turn :
    after (step { withTask 8#32 State.reset with
      raw := [], ien := [(110, true)], ipr := [(110, 5#8)], main := [0x1000000000000000#64] }) (fun t =>
        decide (t.hist = [.deliver 110 5#8, .intReturn 110]) && decide (t.selected = some 110) &&
          after (step t) fun u => responds u .main 0x1000000000000000#64 4#32 && decide (u.turn = .delivery)) = true := by
  decide +kernel
/-- R335 (program P4 without its event 6) and R342: at the return of a group whose source is not served, or whose flagged
slot a SETTASK has emptied, the group is delivered again and the mainline does not step. -/
theorem test_redelivered :
    after (step { State.reset with
      gt := [(112, [(0, .handler 0x30)])], raw := [(112, .demux 112)], gen := [(112, 1#32)], src := [(112, 1#32)]
      ien := [(112, true)], ipr := [(112, 4#8)], main := [0x6870000000000000#64]
      cs := [⟨112, 4#8, [.demux 112 1#32 1 .scan]⟩], dact := [(112, .active)] }) (fun t =>
        decide (t.hist = [.intReturn 112]) && after (step t) fun u =>
          decide (u.hist = [.intReturn 112, .deliver 112 4#8]) && decide (u.main = t.main)) = true ∧
    after (step { withTask 8#32 State.reset with
      gt := [], ien := [(110, true)], ipr := [(110, 5#8)], main := [0x686E000000000000#64]
      cs := [⟨110, 5#8, [.demux 110 0#32 0 .scan]⟩], dact := [(110, .active)] }) (fun t =>
        decide (t.hist = [.intReturn 110]) && decide (t.grpValue 110 = 8#32) && after (step t) fun u =>
          decide (u.hist = [.intReturn 110, .deliver 110 5#8]) && decide (u.main = t.main)) = true := by
  decide +kernel

/-! The API (R133) and assembler text (R130). -/

theorem test_api :
    expandApi Config.cfgT (.installGroupTask 110 3 (.handler 0x20)) = [.instgt 110 3 0x20#32] ∧
    (expandApi Config.cfgT (.getMask rawSel)).length = 8 ∧ putchWaits 896 1024 = true ∧ putchWaits 895 1024 = false ∧
    putchBytes true 0x0A#8 = [0x0D#8, 0x0A#8] := by decide

/-! Witnesses: for each statement with hypotheses, a state and operands that meet them, clause by clause. -/

theorem of_after {r : Result} {p : State → Bool} (h : after r p = true) : ∃ t, r = .next t ∧ p t = true := by
  cases r with
  | next t => exact ⟨t, rfl, h⟩
  | fault _ => cases h
  | refused _ => cases h

theorem next_of {r : Result} (h : after r (fun _ => true) = true) : ∃ t, r = .next t :=
  (of_after h).imp fun _ h => h.1

/-- The queue rows of the test configuration. -/
theorem queue_rows {q : Nat} {c : QueueRow} (h : queueOf Config.cfgT q = some c) :
    c.id = q ∧ (c = ⟨0, 4, .main, .main⟩ ∨ c = ⟨1, 8, .irq 64, .main⟩ ∨ c = ⟨2, 1024, .main, .irq 65⟩ ∨
      c = ⟨3, 16, .main, .main⟩) := by
  have hm := List.mem_of_find?_eq_some h
  have hq := List.find?_some h
  exact ⟨by simpa using hq, by simpa [Config.cfgT] using hm⟩

/-- Group 110's pass runs the body of source 3; a byte was put on queue 0. -/
def busy : State :=
  { withTask 8#32 State.reset with
    ien := [(110, true)], ipr := [(110, 5#8)], buf := [(0, [(0, 0x41#8)])], wr := [(0, 1)]
    hist := [.cmd .main (encode (.qput 0 0x41#8)) 0#32]
    cs := [⟨110, 5#8, [.body 0x20 [0x3000000000000000#64] .nothing, .demux 110 8#32 0 (.called 3)]⟩]
    dact := [(110, .active)], inputs := [.run] }

/-- Group 110's source 3 has a task, and its demux is active (a state of SETTASK and INSTGT alone). -/
def demuxing : State := { withTask 0#32 State.reset with dact := [(110, .active)] }

theorem witness_DecodeOfEncode :
    Instr.wf (.settask 1023 255 0xFFFFFFFF#32) = true ∧ Instr.wf (.qput 0 0xFF#8) = true ∧ Instr.wf .tret = true := by decide
theorem witness_EncodeOfDecode :
    decode 0x23FFFF00FFFFFFFF#64 = .ok (.settask 1023 255 0xFFFFFFFF#32) ∧
    decode 0x07FF0000000000FF#64 = .ok (.qput 1023 0xFF#8) := by decide
theorem witness_IllegalWordsRaise :
    illegalWord 0x0000000000000000#64 = true ∧ illegalWord 0x1400000000000000#64 = true ∧
    illegalWord 0xFC00000000000000#64 = true ∧ illegalWord 0x0803000100000000#64 = true ∧
    illegalWord 0x3001000000000000#64 = true ∧ illegalWord 0x0403000000000141#64 = true ∧
    illegalWord 0x0403000000000041#64 = false := by decide
theorem witness_HandleDecoding :
    (0x00000001#32).toNat ≠ 0 ∧ (0x00000001#32).toNat < 2 ^ 31 ∧ (0x7FFFFFFF#32).toNat < 2 ^ 31 ∧
    (0x80000000#32).toNat = 2 ^ 31 + 0 ∧ (0x800000FF#32).toNat = 2 ^ 31 + 255 ∧
    2 ^ 31 + 256 ≤ (0x80000100#32).toNat ∧ 2 ^ 31 + 256 ≤ (0xFFFFFFFF#32).toNat := by decide

theorem witness_StepIssuesScheduledWord :
    cfgOk (State.reset.withFetchWord 64 0x3000000000000000).cfg = true ∧
    (State.reset.withFetchWord 64 0x3000000000000000).clean = true ∧
    (State.reset.withFetchWord 64 0x3000000000000000).inputs = .issue 0x3000000000000000#64 :: [] ∧
    (State.reset.withFetchWord 64 0x3000000000000000).hostReady = true ∧
    decode 0x3000000000000000#64 = .ok .tret := by decide
theorem witness_StepIssuesProgramWord :
    { State.reset with main := [0x1000000000000000#64] }.selected = none ∧ cfgOk State.reset.cfg = true ∧
    { State.reset with main := [0x1000000000000000#64] }.clean = true ∧
    { inIrq 64 0x10 with cs := [⟨64, 5#8, [.body 0x10 [0x3000000000000000#64] .nothing]⟩] }.selected = none ∧
    { inIrq 64 0x10 with cs := [⟨64, 5#8, [.body 0x10 [0x3000000000000000#64] .nothing]⟩] }.inputs = [] ∧
    decode 0x1000000000000000#64 = .ok (.qcap 0) := by decide +kernel
theorem witness_StepRaisesOnIllegalWord :
    (State.reset.placeWord 0#64).hostReady = true ∧ decode 0#64 = .error .unknownOpcode ∧
    (State.reset.placeWord 0#64).inputs = [.issue 0#64] ∧ cfgOk (State.reset.placeWord 0#64).cfg = true ∧
    (State.reset.placeWord 0#64).clean = true := by decide
theorem witness_StoppedBlockTakesNoStep :
    (∃ t, step busy = .next t) ∧ cfgOk State.reset.cfg = true ∧
    { State.reset with faults := [.badQueue 9] }.faults = .badQueue 9 :: [] ∧
    { State.reset with refused := true }.faults = [] ∧ { State.reset with refused := true }.refused = true :=
  ⟨next_of (by decide), by decide⟩
/-- R9: a configuration for each of the four conditions, breaking it. -/
theorem witness_IllFormedConfigRefused :
    (¬ ∀ r ∈ { Config.cfgT with vectors := [⟨256, 0, true⟩] }.vectors, r.inLvec = true → r.vec < 256) ∧
    (¬ ∀ r ∈ { Config.cfgT with periphs := [⟨7, [58, 110], 58⟩] }.periphs, ∀ v ∈ r.env,
      v < 256 ∧ fieldOf Config.cfgT v = some r.field ∧ groupOf Config.cfgT v = none) ∧
    (¬ ∀ r ∈ { Config.cfgT with groups := [⟨256, 4, .edge⟩] }.groups, r.vec < 256) ∧
    (¬ ∀ r ∈ { Config.cfgT with queues := [⟨0, 4, .main, .irq 256⟩] }.queues,
      (∀ v, r.prod = .irq v → v < 256) ∧ (∀ v, r.cons = .irq v → v < 256)) := by
  refine ⟨by decide, by decide, by decide, fun h => ?_⟩
  have := (h ⟨0, 4, .main, .irq 256⟩ (by simp)).2 256 rfl
  omega
theorem witness_SourceEventEffects :
    { State.reset with inputs := [.source (.edge 110 31)] }.inputs = .source (.edge 110 31) :: [] ∧
    groupOf State.reset.cfg 110 = some ⟨110, 32, .edge⟩ ∧ groupOf State.reset.cfg 112 = some ⟨112, 22, .level⟩ ∧
    groupOf State.reset.cfg 255 = none ∧ cfgOk State.reset.cfg = true ∧ State.reset.clean = true := by decide
theorem witness_AcceptanceEntersFrame :
    (requested .null).selected = some 64 ∧ (requested .null).inputs = [.deliver] ∧
    (requested (.handler 0x12)).rawSlot 64 = .handler 0x12 ∧ (requested (.handler 0x12)).selected = some 64 ∧
    (requested (.demux 110)).rawSlot 64 = .demux 110 ∧ (requested (.demux 110)).selected = some 64 ∧
    (requested (.demux 110)).dactOf 110 = .idle ∧ cfgOk (requested .null).cfg = true := by decide +kernel
theorem witness_AcceptanceIntoActiveDemuxFaults :
    { requested (.demux 110) with dact := [(110, .active)] }.selected = some 64 ∧
    { requested (.demux 110) with dact := [(110, .active)] }.rawSlot 64 = .demux 110 ∧
    { requested (.demux 110) with dact := [(110, .active)] }.dactOf 110 = .active := by decide +kernel
theorem witness_MainlineHold :
    { State.reset with hold := some 1, inputs := [.run] }.clean = true ∧
    { State.reset with hold := some 1, inputs := [.run] }.len ⟨1, 8, .irq 64, .main⟩ = 0 ∧
    0 < { State.reset with hold := some 1, wr := [(1, 1)], inputs := [.run] }.len ⟨1, 8, .irq 64, .main⟩ ∧
    queueOf State.reset.cfg 1 = some ⟨1, 8, .irq 64, .main⟩ := by decide

theorem witness_QputRule :
    queueOf State.reset.cfg 1023 = none ∧ queueOf State.reset.cfg 1 = some ⟨1, 8, .irq 64, .main⟩ ∧
    State.reset.ctx ≠ .irq 64 ∧ queueOf State.reset.cfg 0 = some ⟨0, 4, .main, .main⟩ ∧ State.reset.ctx = .main ∧
    { State.reset with wr := [(0, 4)] }.len ⟨0, 4, .main, .main⟩ = 4 ∧
    { State.reset with wr := [(0, 3)] }.len ⟨0, 4, .main, .main⟩ = 3 := by decide
theorem witness_QgetRule :
    queueOf State.reset.cfg 4 = none ∧ queueOf State.reset.cfg 1 = some ⟨1, 8, .irq 64, .main⟩ ∧
    (inIrq 64 0x10).ctx ≠ .main ∧ State.reset.len ⟨1, 8, .irq 64, .main⟩ = 0 ∧ State.reset.ctx = .main ∧
    queueOf State.reset.cfg 2 = some ⟨2, 1024, .main, .irq 65⟩ ∧ (inIrq 65 0x11).ctx = .irq 65 ∧
    (inIrq 65 0x11).len ⟨2, 1024, .main, .irq 65⟩ = 0 ∧
    { State.reset with wr := [(1, 1)] }.len ⟨1, 8, .irq 64, .main⟩ = 1 := by decide
theorem witness_QlenRule : queueOf State.reset.cfg 4 = none ∧
    queueOf State.reset.cfg 2 = some ⟨2, 1024, .main, .irq 65⟩ := by decide
theorem witness_QcapRule : queueOf State.reset.cfg 1023 = none ∧
    queueOf State.reset.cfg 3 = some ⟨3, 16, .main, .main⟩ := by decide
theorem witness_PutAndGetMoveLength :
    { State.reset with wr := [(0, 7)], rd := [(0, 4)] }.len ⟨0, 4, .main, .main⟩ = 3 ∧
    { State.reset with wr := [(0, 7)], rd := [(0, 4)] }.wrOf 0 < 2 * 4 ∧
    { State.reset with wr := [(0, 7)], rd := [(0, 4)] }.rdOf 0 < 2 * 4 := by decide
theorem witness_QueuesAreIndependent : ∃ t, exec (.qput 0 0x41#8) State.reset = .next t := next_of (by decide)

theorem witness_SettaskRule :
    settaskFails State.reset.cfg 111 0 0#32 ∧ settaskFails State.reset.cfg 112 22 1#32 ∧
    settaskFails State.reset.cfg 0x100 5 0x80000100#32 ∧ settaskFails State.reset.cfg 110 3 0x8000006E#32 ∧
    tableOf State.reset.cfg 0x100 = some .raw ∧ tableOf State.reset.cfg 110 = some (.group 110) ∧
    decodeHandle State.reset.cfg 5#32 = some (.handler 5) ∧ slotLegal (.group 110) (.handler 5) = true ∧
    (inIrq 110 0x20).DispatchInProgress .raw 110 ∧ ¬ (inIrq 110 0x20).DispatchInProgress .raw 255 ∧
    demuxing.DispatchInProgress (.group 110) 31 ∧ ¬ State.reset.DispatchInProgress (.group 110) 31 := by
  have none_fails : ∀ {t i val}, tableOf State.reset.cfg t = none → settaskFails State.reset.cfg t i val :=
    fun h T x hT => by rw [h] at hT; cases hT
  refine ⟨none_fails (by decide), fun T x hT _ _ => ?_, fun T x _ hx => ?_, fun T x hT hx hl => ?_, by decide, by decide,
    by decide, by decide, ⟨_, List.mem_singleton.2 rfl, rfl⟩, fun h => ?_, rfl, fun h => ?_⟩
  · rw [show tableOf State.reset.cfg 112 = some (.group 112) by decide] at hT
    cases hT; decide
  · rw [show decodeHandle State.reset.cfg 0x80000100#32 = none by decide] at hx
    cases hx
  · rw [show tableOf State.reset.cfg 110 = some (.group 110) by decide] at hT
    rw [show decodeHandle State.reset.cfg 0x8000006E#32 = some (.demux 110) by decide] at hx
    cases hT; cases hx; cases hl
  · obtain ⟨f, hf, hv⟩ := h
    rw [List.mem_singleton.1 hf] at hv
    cases hv
  · exact absurd h (by decide : State.reset.dactOf 110 ≠ .active)
theorem witness_RuntaskRule :
    State.reset.ctx = .main ∧ (inIrq 70 0x30).ctx ≠ .main ∧ tableOf State.reset.cfg 111 = none ∧
    tableOf State.reset.cfg 112 = some (.group 112) ∧ tableSize State.reset.cfg (.group 112) ≤ 22 ∧
    21 < tableSize State.reset.cfg (.group 112) ∧ (inIrq 70 0x30).slot (.group 112) 21 = .null ∧
    (withTask 0#32 (inIrq 70 0x30)).slot (.group 110) 3 = .handler 0x20 ∧
    (withTask 0#32 (inIrq 70 0x30)).slot .raw 110 = .demux 110 ∧
    (withTask 0#32 (inIrq 70 0x30)).cs = [⟨70, 5#8, [.body 0x30 [] .nothing]⟩] ∧
    (withTask 0#32 (inIrq 70 0x30)).dactOf 110 = .idle ∧
    { withTask 0#32 (inIrq 70 0x30) with dact := [(110, .active)] }.dactOf 110 = .active := by decide
theorem witness_GetmaskRule :
    tableOf State.reset.cfg 0x101 = none ∧ tableOf State.reset.cfg 0x100 = some .raw ∧
    tableOf State.reset.cfg 112 = some (.group 112) := by decide
theorem witness_TsizeRule :
    groupOf State.reset.cfg 112 = some ⟨112, 22, .level⟩ ∧ groupOf State.reset.cfg 255 = none ∧ (255 : Nat) ≠ 0x100 ∧
    (0x101 : Nat) ≠ 0x100 ∧ ¬ (0x101 : Nat) < 0x100 := by decide
theorem witness_TretRule :
    (inIrq 64 0x10).cs = ⟨64, 5#8, [.body 0x10 [] .nothing]⟩ :: [] ∧
    busy.cs = ⟨110, 5#8, .body 0x20 [0x3000000000000000#64] .nothing :: .demux 110 8#32 0 (.called 3) :: []⟩ :: [] ∧
    { inIrq 70 0x30 with cs := [⟨70, 5#8, [.body 0x12 [] .nothing, .body 0x30 [] (.runtask 0x100 66)]⟩] }.cs =
      ⟨70, 5#8, .body 0x12 [] .nothing :: .body 0x30 [] (.runtask 0x100 66) :: []⟩ :: [] ∧
    (∀ h r w as, State.reset.acts ≠ .body h r w :: as) := by
  refine ⟨rfl, rfl, rfl, fun h r w as hf => ?_⟩
  cases hf

theorem witness_SetlvlvRule :
    lvecField State.reset.cfg 200 = none ∧ lvecField State.reset.cfg 199 = some 199 ∧
    lvecField State.reset.cfg 59 = some 58 ∧ State.reset.cfg.prioMax < 16 ∧ 15 ≤ State.reset.cfg.prioMax := by
  decide +kernel
theorem witness_SetlvlpRule :
    periphOf State.reset.cfg 8 = none ∧ periphOf State.reset.cfg 7 = some ⟨7, [58, 59, 60], 58⟩ ∧
    State.reset.cfg.prioMax < 16 ∧ 15 ≤ State.reset.cfg.prioMax := by decide
theorem witness_RdlvlRule :
    State.reset.cfg.nv ≤ 256 ∧ 255 < State.reset.cfg.nv ∧ fieldOf State.reset.cfg 255 = none ∧
    fieldOf State.reset.cfg 199 = some 199 := by decide +kernel

theorem witness_InstgtRule :
    instgtFails State.reset.cfg 111 0 1#32 ∧ instgtFails State.reset.cfg 110 32 1#32 ∧
    instgtFails State.reset.cfg 110 0 0x80000005#32 ∧ instgtFails State.reset.cfg 110 0 0x8000006E#32 ∧
    ¬ instgtFails State.reset.cfg 110 31 0x20#32 ∧ ¬ instgtFails State.reset.cfg 110 31 0#32 ∧
    demuxing.dactOf 110 = .active ∧ (inIrq 110 0x20).dactOf 110 = .idle ∧ (∃ f ∈ (inIrq 110 0x20).cs, f.vec = 110) ∧
    State.reset.dactOf 110 = .idle ∧ (∀ f ∈ State.reset.cs, f.vec ≠ 110) ∧
    decodeHandle State.reset.cfg 0x20#32 = some (.handler 0x20) := by
  have not_fails : ∀ {val x}, decodeHandle State.reset.cfg val = some x → (∀ y, x ≠ .demux y) →
      ¬ instgtFails State.reset.cfg 110 31 val := by
    rintro val x hx hy (h | h | h | ⟨y, h⟩)
    · exact absurd h (by decide)
    · exact absurd h (by decide)
    · rw [hx] at h; cases h
    · rw [hx] at h; exact hy y (Option.some.inj h)
  exact ⟨.inl (by decide), .inr (.inl (by decide)), .inr (.inr (.inl (by decide))), .inr (.inr (.inr ⟨110, by decide⟩)),
    not_fails (x := .handler 0x20) (by decide) (by simp), not_fails (x := .null) (by decide) (by simp), by decide,
    by decide, ⟨_, List.mem_singleton.2 rfl, rfl⟩, by decide, by decide, by decide⟩
theorem witness_InstgtIsIdempotent : ∃ t, exec (.instgt 110 3 0x20#32) State.reset = .next t ∧
    t.faults = State.reset.faults ∧ ∃ u, exec (.instgt 110 3 0x20#32) t = .next u :=
  ⟨_, rfl, by decide, next_of (by decide)⟩
theorem witness_GdemuxRule :
    State.reset.ctx = .main ∧ (inIrq 70 0x30).ctx ≠ .main ∧ groupOf State.reset.cfg 111 = none ∧
    groupOf State.reset.cfg 110 = some ⟨110, 32, .edge⟩ ∧ (inIrq 70 0x30).dactOf 110 = .idle ∧
    (inIrq 70 0x30).cs = ⟨70, 5#8, .body 0x30 [] .nothing :: []⟩ :: [] ∧
    { inIrq 70 0x30 with dact := [(110, .active)] }.dactOf 110 = .active := by decide
theorem witness_RdgrpRule : groupOf State.reset.cfg 111 = none ∧
    groupOf State.reset.cfg 110 = some ⟨110, 32, .edge⟩ ∧ groupOf State.reset.cfg 112 = some ⟨112, 22, .level⟩ := by decide
theorem witness_ClrgrpRule :
    (∀ r, groupOf State.reset.cfg 111 = some r → r.n ≤ 0 ∨ r.trig = .level) ∧
    (∀ r, groupOf State.reset.cfg 110 = some r → r.n ≤ 32 ∨ r.trig = .level) ∧
    (∀ r, groupOf State.reset.cfg 112 = some r → r.n ≤ 21 ∨ r.trig = .level) ∧
    groupOf State.reset.cfg 110 = some ⟨110, 32, .edge⟩ := by
  refine ⟨fun r h => ?_, fun r h => ?_, fun r h => ?_, by decide⟩
  · rw [show groupOf State.reset.cfg 111 = none by decide] at h; cases h
  · rw [show groupOf State.reset.cfg 110 = some ⟨110, 32, .edge⟩ by decide] at h; cases h; decide
  · rw [show groupOf State.reset.cfg 112 = some ⟨112, 22, .level⟩ by decide] at h; cases h; decide
theorem witness_RdgenRule : groupOf State.reset.cfg 255 = none ∧
    groupOf State.reset.cfg 112 = some ⟨112, 22, .level⟩ := by decide

theorem witness_ScanInvokesLeastSource :
    (engine 0x80000008#32 0 .scan).cs =
      ⟨70, 5#8, .demux 110 0x80000008#32 0 .scan :: .body 0x30 [] (.gdemux 110) :: []⟩ :: [] ∧
    (engine 0x80000008#32 0 .scan).inputs = [.run] ∧ cfgOk (engine 0x80000008#32 0 .scan).cfg = true ∧
    (engine 0x80000008#32 0 .scan).clean = true ∧ 3 < groupSize Config.cfgT 110 ∧
    (0x80000008#32).getLsbD 3 = true ∧ (∀ j, j < 3 → (0x80000008#32).getLsbD j = false) ∧
    (engine 0x80000008#32 0 .scan).gtSlot 110 3 = .handler 0x20 := by decide
theorem witness_AfterCallClearsEdgeFlag :
    (engine 8#32 0 (.called 3)).cs =
      ⟨70, 5#8, .demux 110 8#32 0 (.called 3) :: .body 0x30 [] (.gdemux 110) :: []⟩ :: [] ∧
    groupOf (engine 8#32 0 (.called 3)).cfg 110 = some ⟨110, 32, .edge⟩ ∧
    { State.reset with cs := [⟨112, 5#8, [.demux 112 1#32 0 (.called 0)]⟩] }.cs =
      ⟨112, 5#8, .demux 112 1#32 0 (.called 0) :: []⟩ :: [] ∧
    groupOf State.reset.cfg 112 = some ⟨112, 22, .level⟩ ∧ cfgOk State.reset.cfg = true := by decide
theorem witness_FinishResumesStarter :
    (engine 8#32 4 .scan).cs = ⟨70, 5#8, .demux 110 8#32 4 .scan :: .body 0x30 [] (.gdemux 110) :: []⟩ :: [] ∧
    (∀ j, j < groupSize Config.cfgT 110 → 4 ≤ j → (8#32).getLsbD j = false) ∧
    { engine 8#32 4 .scan with cs := [⟨110, 5#8, [.demux 110 8#32 4 .scan]⟩] }.acts = .demux 110 8#32 4 .scan :: [] ∧
    { engine 8#32 4 .scan with cs := [⟨70, 5#8, [.demux 110 8#32 4 .scan, .body 0x30 [] (.runtask 0x100 110)]⟩] }.acts =
      .demux 110 8#32 4 .scan :: .body 0x30 [] (.runtask 0x100 110) :: [] ∧
    cfgOk Config.cfgT = true ∧ (engine 8#32 4 .scan).clean = true := by decide
theorem witness_EmptySlotNeverInvoked :
    31 < groupSize State.reset.cfg 110 ∧ isGroup State.reset.cfg 110 = true ∧ State.reset.dactOf 110 = .idle ∧
    State.reset.frameOn 110 = false ∧ ∃ t, exec (.instgt 110 31 0#32) State.reset = .next t :=
  ⟨by decide, by decide, by decide, by decide, next_of (by decide)⟩

theorem witness_ResetMeetsInvariants : cfgOk Config.cfgT = true := by decide

/-! Every invariant at `busy`, a state in the middle of a pass, which takes a step. -/

theorem busy_steps : ∃ t, step busy = .next t := next_of (by decide)

theorem witness_StepKeepsCanonicalForm : CanonicalInv busy ∧ ∃ t, step busy = .next t := by
  refine ⟨?_, busy_steps⟩
  unfold CanonicalInv
  decide
theorem busy_queueInv : QueueInv busy := by
  intro q c h
  obtain ⟨rfl, rfl | rfl | rfl | rfl⟩ := queue_rows h <;> decide
theorem witness_StepKeepsQueueBounds : QueueInv busy ∧ ∃ t, step busy = .next t := ⟨busy_queueInv, busy_steps⟩
theorem witness_StepKeepsWrittenBytes : WrittenInv busy ∧ ∃ t, step busy = .next t := by
  refine ⟨⟨busy_queueInv, fun q c h => ?_⟩, busy_steps⟩
  obtain ⟨rfl, rfl | rfl | rfl | rfl⟩ := queue_rows h <;> decide
theorem busy_fifoInv : FifoInv busy := by
  refine ⟨busy_queueInv, fun q c h => ?_⟩
  obtain ⟨rfl, rfl | rfl | rfl | rfl⟩ := queue_rows h <;> decide
theorem witness_StepKeepsFifo : FifoInv busy ∧ ∃ t, step busy = .next t := ⟨busy_fifoInv, busy_steps⟩
theorem witness_LengthIsPutsLessGets : FifoInv busy ∧ queueOf busy.cfg 0 = some ⟨0, 4, .main, .main⟩ :=
  ⟨busy_fifoInv, by decide⟩
theorem busy_nestingInv : NestingInv busy := by
  refine ⟨fun f => ?_, by decide, by decide⟩
  by_cases h : 110 = f
  · subst h; decide
  · simp [State.iprField, busy, withTask, Sparse.get, Sparse.lookup, h]
theorem witness_StepKeepsNesting : NestingInv busy ∧ ∃ t, step busy = .next t := ⟨busy_nestingInv, busy_steps⟩
theorem witness_NestingBoundsDepth : NestingInv busy := busy_nestingInv
theorem witness_StepKeepsMainlineEmpty : MainlineInv busy ∧ ∃ t, step busy = .next t := ⟨rfl, busy_steps⟩
theorem witness_StepKeepsDemuxDiscipline : DemuxInv busy ∧ ∃ t, step busy = .next t := by
  refine ⟨⟨by decide, fun g => ?_, fun g i x => ?_, fun g snap pos phase h j hj => ?_⟩, busy_steps⟩
  · rw [show busy.demuxGroups = [110] by decide]
    by_cases h : 110 = g
    · subst h; decide
    · simp [State.dactOf, busy, Sparse.get, Sparse.lookup, h, Ne.symm h]
  · by_cases h : 110 = g
    · by_cases h' : 3 = i <;>
        simp [State.gtSlot, busy, withTask, Sparse.get, Sparse.lookup, h, h']
    · simp [State.gtSlot, busy, withTask, Sparse.get, Sparse.lookup, h]
  · have : g = 110 ∧ snap = 8#32 := by
      simp [State.allActs, busy, withTask, State.reset, State.resetOf] at h
      exact ⟨h.1, h.2.1⟩
    obtain ⟨rfl, rfl⟩ := this
    have hlt := BitVec.lt_of_getLsbD hj
    have : j = 3 := by
      revert hj
      revert j
      decide
    subst this
    exact ⟨by decide, 0x20, by decide⟩
theorem witness_StepKeepsCallChains : StackInv busy ∧ ∃ t, step busy = .next t := by
  refine ⟨fun _ => ⟨rfl, fun f hf => ?_⟩, busy_steps⟩
  rw [List.mem_singleton.1 hf]
  exact ⟨rfl, ⟨3, rfl⟩, trivial⟩
theorem witness_StepKeepsGroupBits : GroupBitsInv busy ∧ ∃ t, step busy = .next t := by
  refine ⟨fun g j h => ?_, busy_steps⟩
  by_cases hg : 110 = g
  · subst hg
    have hn : groupSize busy.cfg 110 = 32 := by decide
    rw [hn]
    rcases h with h | h | h <;> exact BitVec.lt_of_getLsbD h
  · simp [busy, withTask, State.reset, State.resetOf, Sparse.get, Sparse.lookup, hg] at h
theorem witness_StepAppendsHistory : ∃ t, step busy = .next t := busy_steps

/-! Writers: a step that makes each change. -/

theorem witness_OnlySetLevelChangesLevels : ∃ t, step (State.reset.withFetchWord 64 0x406E050000000000) = .next t ∧
    decide (t.ien ≠ State.reset.ien) && decide (t.ipr ≠ State.reset.ipr) = true := of_after (by decide)
theorem witness_OnlyRequestsAndAcceptanceChangeIr :
    (∃ t, step { State.reset with inputs := [.source (.vreq 255)] } = .next t ∧ decide (t.irBit 255 = true) = true) ∧
    (∃ t, step (requested .null) = .next t ∧ decide (t.irBit 64 ≠ (requested .null).irBit 64) = true) ∧
    ∃ t, exec (.rdlvl 0) State.reset = .next t :=
  ⟨of_after (by decide), of_after (by decide +kernel), next_of (by decide)⟩
theorem witness_OnlyInstallsChangeTables :
    (∃ t, step (State.reset.withFetchWord 64 0x2100400000000010) = .next t ∧ decide (t.raw ≠ []) = true) ∧
    ∃ t, step (State.reset.withFetchWord 64 0x606E030000000020) = .next t ∧
      (decide (t.gt ≠ []) && decide (t.gen ≠ [])) = true :=
  ⟨of_after (by decide), of_after (by decide)⟩
theorem witness_OnlySourcesChangeInputs :
    ∃ t, step { State.reset with inputs := [.source (.level 112 21 true)] } = .next t ∧ decide (t.src ≠ []) = true :=
  of_after (by decide)

end Sys2Proof.Tests
end

section
/-! The scope rules (00_scope.md): what a well-formed configuration guarantees, and the refusal of any other (R9). -/

namespace Sys2Proof.Machine

variable {c : Cfg}

/-- The tables of a well-formed configuration each pass their own check. -/
theorem tablesOk_of_cfgOk (h : cfgOk c = true) :
    vectorsOk c = true ∧ groupsOk c = true ∧ periphsOk c = true ∧ queuesOk c = true := by
  simp only [cfgOk, Bool.and_eq_true] at h
  obtain ⟨⟨⟨⟨⟨-, hvectors⟩, hgroups⟩, hperiphs⟩, hqueues⟩, -⟩ := h
  exact ⟨hvectors, hgroups, hperiphs, hqueues⟩

theorem vectorRow_lt_nv (h : vectorsOk c = true) {r : VectorRow} (hr : r ∈ c.vectors) : r.vec < c.nv := by
  simp only [vectorsOk, Bool.and_eq_true, List.all_eq_true, decide_eq_true_eq] at h
  exact (h.2 r hr).1

theorem groupRow_lt_nv (h : groupsOk c = true) {r : GroupRow} (hr : r ∈ c.groups) : r.vec < c.nv := by
  simp only [groupsOk, Bool.and_eq_true, List.all_eq_true, decide_eq_true_eq] at h
  exact (h.2 r hr).1

theorem isGroup_eq_false {g : Nat} : isGroup c g = false ↔ groupOf c g = none := by
  simp [isGroup]

/-- R9 items 1, 2 and 4 for a vector that a peripheral uses. -/
theorem periphRow_env (h : periphsOk c = true) {r : PeriphRow} (hr : r ∈ c.periphs) {v : Nat} (hv : v ∈ r.env) :
    v < c.nv ∧ fieldOf c v = some r.field ∧ groupOf c v = none := by
  simp only [periphsOk, Bool.and_eq_true, List.all_eq_true, decide_eq_true_eq, beq_iff_eq, Bool.not_eq_true',
    isGroup_eq_false] at h
  obtain ⟨-, hrows⟩ := h
  obtain ⟨-, henv⟩ := hrows r hr
  exact henv v hv

/-- A context of the configuration that is an interrupt is one of a vector below `NV` (R9 item 3). -/
theorem ctxOk_irq {v : Nat} : ctxOk c (.irq v) = true ↔ v < c.nv := decide_eq_true_iff

theorem queueRow_ctxOk (h : queuesOk c = true) {r : QueueRow} (hr : r ∈ c.queues) :
    ctxOk c r.prod = true ∧ ctxOk c r.cons = true := by
  simp only [queuesOk, Bool.and_eq_true, List.all_eq_true] at h
  obtain ⟨-, -, hctxs⟩ := h.2 r hr
  exact hctxs

theorem step_of_not_cfgOk {s : State} (h : ¬ cfgOk s.cfg = true) : step s = .refused .illFormedConfig :=
  if_pos (Bool.eq_false_of_not_eq_true h)

/-- Settles O10: the check that `step` makes first implies each of R9's four conditions, so a configuration that breaks one
fails the check. -/
theorem illFormedConfigRefused : Obligations.IllFormedConfigRefused := by
  intro s hbroken
  refine step_of_not_cfgOk fun hok => hbroken ?_
  obtain ⟨hvectors, hgroups, hperiphs, hqueues⟩ := tablesOk_of_cfgOk hok
  refine ⟨fun r hr _ => vectorRow_lt_nv hvectors hr, fun r hr v hv => periphRow_env hperiphs hr hv,
    fun r hr => groupRow_lt_nv hgroups hr, fun r hr => ?_⟩
  obtain ⟨hprod, hcons⟩ := queueRow_ctxOk hqueues hr
  exact ⟨fun v hv => ctxOk_irq.mp (hv ▸ hprod), fun v hv => ctxOk_irq.mp (hv ▸ hcons)⟩

end Sys2Proof.Machine
end

section
/-! What a step writes in the stored elements of the state (10_state.md R32 to R43, R46), and what it never writes (R31, R48). -/

namespace Sys2Proof.Machine

variable {s s' t u : State}

/-- A resumption returns from an interrupt, hands the body below its response, or does nothing. -/
theorem State.resume_trichotomy (s : State) :
    (s.acts = [] ∧ s.resume = s.interruptReturn) ∨
    (∃ n rest w as i v, s.acts = .body n rest w :: as ∧
      s.resume = (s.setActs (.body n rest .nothing :: as)).respond i v) ∨
    s.resume = s := by
  rcases s.resume_cases with
    h | ⟨_, _, _, _, _, ha, h⟩ | ⟨_, _, _, _, ha, h⟩ | ⟨_, _, _, -, h⟩ | ⟨_, _, _, _, _, -, h⟩
  · exact .inl h
  · exact .inr (.inl ⟨_, _, _, _, _, _, ha, h⟩)
  · exact .inr (.inl ⟨_, _, _, _, _, _, ha, h⟩)
  · exact .inr (.inr h)
  · exact .inr (.inr h)

/-- `t` is `u` but for the activations, the hold, the stop, the host programs, the schedule and events appended to the
history: what is stored per vector, field, group or queue is as in `u`. -/
def KeepsStorage (u t : State) : Prop :=
  t = { u with
    cs := t.cs, mact := t.mact, hold := t.hold, faults := t.faults, refused := t.refused, hist := t.hist,
    main := t.main, inputs := t.inputs, turn := t.turn } ∧ u.hist <+: t.hist

namespace KeepsStorage

theorem refl (s : State) : KeepsStorage s s := ⟨rfl, List.prefix_rfl⟩

theorem trans (h : KeepsStorage s u) (h' : KeepsStorage u t) : KeepsStorage s t := by
  refine ⟨?_, h.2.trans h'.2⟩
  rw [h'.1, h.1]

theorem of_record (s : State) (e : Event) : KeepsStorage s (s.record e) := ⟨rfl, List.prefix_append _ _⟩

theorem of_respond (s : State) (i : Instr) (v : Word) : KeepsStorage s (s.respond i v) := of_record s _

theorem of_raise (s : State) (f : FaultRec) : KeepsStorage s (s.raise f) := ⟨rfl, List.prefix_append _ _⟩

theorem of_refuse (s : State) (r : RefuseReason) : KeepsStorage s (s.refuse r) := ⟨rfl, List.prefix_append _ _⟩

theorem of_setActs (s : State) (as : List Act) : KeepsStorage s (s.setActs as) := ⟨rfl, List.prefix_rfl⟩

theorem of_setWait (s : State) (w : Wait) : KeepsStorage s (s.setWait w) := of_setActs s _

theorem of_invoke (s : State) (h : Nat) : KeepsStorage s (s.invoke h) := (of_setActs s _).trans (of_record _ _)

theorem of_interruptReturn (s : State) : KeepsStorage s s.interruptReturn := by
  cases h : s.cs with
  | nil => rw [State.interruptReturn, h]; exact refl s
  | cons f fs => rw [State.interruptReturn_cons s h]; exact ⟨rfl, List.prefix_append _ _⟩

theorem of_resume (s : State) : KeepsStorage s s.resume := by
  rcases s.resume_trichotomy with ⟨-, h⟩ | ⟨_, _, _, _, _, _, -, h⟩ | h <;> rw [h]
  · exact of_interruptReturn s
  · exact (of_setActs s _).trans (of_respond _ _ _)
  · exact refl s

theorem of_demuxPush (s : State) (w : Wait) (g : Nat) : KeepsStorage (s.setDact g .active) (s.demuxPush w g) :=
  ⟨rfl, List.prefix_rfl⟩

theorem of_demuxFinish (s : State) (g : Nat) (as : List Act) :
    KeepsStorage (s.setDact g .idle) (s.demuxFinish g as) :=
  trans ⟨rfl, List.prefix_rfl⟩ (of_resume ((s.setActs as).setDact g .idle))

end KeepsStorage

/-- What a step writes in the stored elements, with the conditions under which it does and, where a rule speaks of it, the
event that it leaves. Every step is one of these (`step_storage`). -/
inductive StorageWrite (s t : State) : Prop where
  | nothing (h : KeepsStorage s t)
  | put (q : Nat) (c : QueueRow) (b : Byte) (hq : queueOf s.cfg q = some c) (hl : s.len c ≠ c.cap)
      (h : KeepsStorage (s.queuePut c b) t)
  | got (q : Nat) (c : QueueRow) (hq : queueOf s.cfg q = some c) (hl : s.len c ≠ 0) (h : KeepsStorage (s.queueAdvance c) t)
  | rawSlot (n v : Nat) (val : Word) (x : Slot)
      (hh : t.hist = s.hist ++ [.cmd s.ctx (encode (.settask n v val)) 1#32]) (h : KeepsStorage (s.setRaw v x) t)
  | groupSlot (n g i : Nat) (val : Word) (x : Slot)
      (hh : t.hist = s.hist ++ [.cmd s.ctx (encode (.settask n i val)) 1#32]) (h : KeepsStorage (s.setGt g i x) t)
  | level (k p f : Nat) (vs : List Nat) (hp : p ≤ s.cfg.prioMax)
      (hh : t.hist = s.hist ++ [.cmd s.ctx (encode (.setlvlv k p)) 1#32] ∨
        t.hist = s.hist ++ [.cmd s.ctx (encode (.setlvlp k p)) 1#32])
      (h : KeepsStorage (((s.setIens vs false).setIpr f (BitVec.ofNat 8 p)).setIens (if 0 < p then vs else []) true) t)
  | installed (g i : Nat) (val : Word) (x : Slot) (hi : i < groupSize s.cfg g)
      (hh : t.hist = s.hist ++ [.cmd s.ctx (encode (.instgt g i val)) 1#32]) (h : KeepsStorage (s.installTask g i x) t)
  | latched (g i : Nat) (hi : i < groupSize s.cfg g) (h : KeepsStorage (s.setGrpBit g i true) t)
  | cleared (g i : Nat) (h : KeepsStorage (s.setGrpBit g i false) t)
  | input (g i : Nat) (b : Bool) (hi : i < groupSize s.cfg g) (hh : t.hist = s.hist ++ [.src (.level g i b)])
      (h : KeepsStorage (s.setSrcBit g i b) t)
  | requested (v : Nat) (hh : t.hist = s.hist ++ [.src (.vreq v)]) (h : KeepsStorage (s.setIr v true) t)
  | accepted (v : Nat) (latches : List (Nat × Bool)) (dact : List (Nat × DemuxStatus))
      (hl : latches = (s.consumeRequest v).ir) (hd : dact = s.dact ∨ ∃ g, dact = (s.setDact g .active).dact)
      (hh : s.hist ++ [.deliver v (s.prioOf v)] <+: t.hist) (h : KeepsStorage { s with ir := latches, dact := dact } t)
  | demux (g : Nat) (d : DemuxStatus) (h : KeepsStorage (s.setDact g d) t)

theorem groupSize_of_groupOf {c : Cfg} {g : Nat} {r : GroupRow} (h : groupOf c g = some r) : groupSize c g = r.n := by
  simp [groupSize, h]

/-- The programs' words are all that taking one writes, and the context stays (R31). -/
theorem IssuedFrom.exists_frame (h : IssuedFrom s s') :
    ∃ m c a, s' = { s with main := m, cs := c, mact := a } ∧ State.ctx { s with main := m, cs := c, mact := a } = s.ctx :=
  ⟨s'.main, s'.cs, s'.mact, h.frame, by rw [← h.frame]; exact h.ctx⟩

theorem IssuedFrom.keepsStorage (h : IssuedFrom s s') : KeepsStorage s s' := by
  obtain ⟨m, c, a, rfl, -⟩ := h.exists_frame
  exact ⟨rfl, List.prefix_rfl⟩

/-- What a command writes, told of the state from which its word was taken. -/
theorem ExecCase.storage {i : Instr} (hs : IssuedFrom s s') (h : ExecCase s' i t) : StorageWrite s t := by
  obtain ⟨m, c, a, rfl, hctx⟩ := hs.exists_frame
  have cmd (i : Instr) (v : Word) : s.hist ++ [.cmd (State.ctx { s with main := m, cs := c, mact := a }) (encode i) v] =
      s.hist ++ [.cmd s.ctx (encode i) v] := by rw [hctx]
  have word (u : State) (i : Instr) (v : Word) : KeepsStorage u ({ u with main := m, cs := c, mact := a }.respond i v) :=
    ⟨rfl, List.prefix_append _ _⟩
  have base := hs.keepsStorage
  cases h with
  | raised i f => exact .nothing (base.trans (.of_raise _ f))
  | responded i v => exact .nothing (word s i v)
  | held q => exact .nothing ⟨rfl, List.prefix_rfl⟩
  | put q b r hq _ hl => exact .put q r b hq hl (word (s.queuePut r b) _ _)
  | got q r hq _ hl => exact .got q r hq hl ⟨rfl, List.prefix_append _ _⟩
  | slotSet n i val T x =>
    cases T with
    | raw => exact .rawSlot n i val x (cmd _ _) (word (s.setRaw i x) _ _)
    | group g => exact .groupSlot n g i val x (cmd _ _) (word (s.setGt g i x) _ _)
  | invoked => exact .nothing ((base.trans (.of_setWait _ _)).trans (.of_invoke _ _))
  | demuxRun n i T g => exact .demux g .active ⟨rfl, List.prefix_rfl⟩
  | demuxed g => exact .demux g .active ⟨rfl, List.prefix_rfl⟩
  | returned =>
    exact .nothing (((base.trans (.of_setActs _ _)).trans (.of_record _ _)).trans (.of_resume _))
  | vectorLevel v p f _ hp =>
    refine .level v p f [v] hp (.inl (by split <;> exact cmd _ _)) ?_
    split
    · exact word (((s.setIens [v] false).setIpr f (BitVec.ofNat 8 p)).setIens [v] true) _ _
    · exact word ((s.setIens [v] false).setIpr f (BitVec.ofNat 8 p)) _ _
  | periphLevel pid p r _ hp =>
    refine .level pid p r.field r.env hp (.inr (by split <;> exact cmd _ _)) ?_
    split
    · exact word (((s.setIens r.env false).setIpr r.field (BitVec.ofNat 8 p)).setIens r.env true) _ _
    · exact word ((s.setIens r.env false).setIpr r.field (BitVec.ofNat 8 p)) _ _
  | refused => exact .nothing (base.trans (.of_refuse _ _))
  | installed g i val x _ hi => exact .installed g i val x hi (cmd _ _) (word (s.installTask g i x) _ _)
  | cleared g i => exact .cleared g i (word (s.setGrpBit g i false) _ _)

/-- What an engine step writes: the clear of a flag after its call, or `DACT` at the end of the pass (R244, R247, R248). -/
theorem State.demuxStep_storage (s : State) (g : Nat) (snap : Word) (pos : Nat) (phase : Phase) (as : List Act) :
    StorageWrite s (s.demuxStep g snap pos phase as) := by
  cases phase with
  | scan =>
    simp only [State.demuxStep, State.demuxScan]
    split
    · exact .demux g .idle (.of_demuxFinish s g as)
    · split
      · exact .nothing ((KeepsStorage.of_setActs _ _).trans (.of_invoke _ _))
      · exact .nothing (.of_setActs _ _)
      · exact .nothing (.of_setActs _ _)
  | called i =>
    simp only [State.demuxStep, State.demuxAfter, State.clearServiced]
    split
    · split
      · exact .cleared g i (.of_setActs _ _)
      · exact .nothing (.of_setActs _ _)
    · exact .nothing (.of_setActs _ _)

/-- A frame's work writes nothing stored, or opens a demux pass (R288). -/
theorem State.startWork_storage (u : State) (x : Slot) :
    KeepsStorage u (u.startWork x) ∨ ∃ g, KeepsStorage (u.setDact g .active) (u.startWork x) := by
  cases x with
  | null => exact .inl (.of_interruptReturn u)
  | handler h => exact .inl (.of_invoke u h)
  | demux g =>
    simp only [State.startWork]
    rcases u.demuxStart_cases .nothing g with ⟨-, h⟩ | ⟨-, h⟩ <;> rw [h]
    · exact .inl (.of_raise u _)
    · exact .inr ⟨g, .of_demuxPush u _ g⟩

/-- The consumption of a request writes a latch alone (R287). -/
theorem State.consumeRequest_frame (s : State) (v : Nat) :
    s.consumeRequest v = { s with ir := (s.consumeRequest v).ir } := by
  unfold State.consumeRequest; split <;> rfl

/-- What an acceptance writes: the latch it consumes, and `DACT` where it opens a demux pass (R287, R288). -/
theorem State.deliver_storage (s : State) (v : Nat) : StorageWrite s (s.deliver v) := by
  have pushed : ((s.consumeRequest v).pushFrame v).hist = s.hist ++ [.deliver v (s.prioOf v)] := by
    rw [State.consumeRequest_frame]; rfl
  have kept : KeepsStorage { s with ir := (s.consumeRequest v).ir } ((s.consumeRequest v).pushFrame v) := by
    rw [← State.consumeRequest_frame]; exact ⟨rfl, List.prefix_append _ _⟩
  unfold State.deliver
  rcases ((s.consumeRequest v).pushFrame v).startWork_storage (s.rawSlot v) with h | ⟨g, h⟩
  · exact .accepted v _ _ rfl (.inl rfl) (pushed ▸ h.2) (kept.trans h)
  · refine .accepted v _ _ rfl (.inr ⟨g, rfl⟩) (pushed ▸ h.2) (KeepsStorage.trans ?_ h)
    rw [State.consumeRequest_frame]
    exact ⟨rfl, List.prefix_append _ _⟩

/-- What a source event writes: one latch, level input or request latch, if it has an effect at all (R280). -/
theorem State.sourceStep_storage (s : State) (e : SrcEvent) : StorageWrite s (s.sourceStep e) := by
  cases e with
  | edge g i =>
    simp only [State.sourceStep, State.srcEffect]
    split
    · next r hr =>
      split
      · next h => exact .latched g i (groupSize_of_groupOf hr ▸ h.2) (.of_record _ _)
      · exact .nothing (.of_record _ _)
    · exact .nothing (.of_record _ _)
  | level g i b =>
    simp only [State.sourceStep, State.srcEffect]
    split
    · next r hr =>
      split
      · next h => exact .input g i b (groupSize_of_groupOf hr ▸ h.2) rfl (.of_record _ _)
      · exact .nothing (.of_record _ _)
    · exact .nothing (.of_record _ _)
  | vreq v =>
    simp only [State.sourceStep, State.srcEffect]
    split
    · exact .requested v rfl (.of_record _ _)
    · exact .nothing (.of_record _ _)

theorem StepCase.storage (h : StepCase s t) : StorageWrite s t := by
  cases h with
  | source e h => exact h ▸ s.sourceStep_storage e
  | deliver v _ h => exact h ▸ s.deliver_storage v
  | engine g snap pos phase as _ h => exact h ▸ s.demuxStep_storage g snap pos phase as
  | command i s' hs h => exact (exec_cases h).storage hs
  | illegal w s' hs h => exact .nothing (h ▸ hs.keepsStorage.trans (.of_raise _ _))

/-- The inversion of a step for what it stores: whatever agent takes it, it writes one of the few things of `StorageWrite`. -/
theorem step_storage (h : step s = .next t) :
    ∃ is d, StorageWrite { s with inputs := is, turn := d } t := by
  obtain ⟨-, -, is, d, hcase⟩ := step_cases h
  exact ⟨is, d, hcase.storage⟩

end Sys2Proof.Machine
end

section
/-! Who writes what: which state each step leaves as it was (10_state.md R31 to R41, R47, R48). -/

namespace Sys2Proof.Machine

variable {s t u : State}

/-- Nothing is recorded against the block (R47). -/
theorem State.clean_iff : s.clean = true ↔ s.faults = [] ∧ s.refused = false := by
  simp [State.clean]

/-- Settles O9, by the inversion of a step and by the checks `advance` makes in R271's and R272's order. -/
theorem stoppedBlockTakesNoStep : Obligations.StoppedBlockTakesNoStep := by
  refine ⟨fun s t h => ?_, fun s f fs hc hf => ?_, fun s hc hf hr => ?_⟩
  · obtain ⟨-, hclean, -⟩ := step_next h
    exact State.clean_iff.1 hclean
  · simp [step, advance, hc, hf]
  · simp [step, advance, hc, hf, hr]

namespace KeepsStorage

theorem ien (h : KeepsStorage u t) : t.ien = u.ien := by rw [h.1]
theorem ipr (h : KeepsStorage u t) : t.ipr = u.ipr := by rw [h.1]
theorem ir (h : KeepsStorage u t) : t.ir = u.ir := by rw [h.1]
theorem raw (h : KeepsStorage u t) : t.raw = u.raw := by rw [h.1]
theorem gt (h : KeepsStorage u t) : t.gt = u.gt := by rw [h.1]
theorem gen (h : KeepsStorage u t) : t.gen = u.gen := by rw [h.1]
theorem src (h : KeepsStorage u t) : t.src = u.src := by rw [h.1]
theorem cfg (h : KeepsStorage u t) : t.cfg = u.cfg := by rw [h.1]
theorem irBit (h : KeepsStorage u t) (v : Nat) : t.irBit v = u.irBit v := by rw [h.1]; rfl

end KeepsStorage

/-- Every step keeps what the history holds, and the configuration. -/
theorem StorageWrite.hist_cfg (h : StorageWrite s t) : s.hist <+: t.hist ∧ t.cfg = s.cfg := by
  cases h <;> rename_i h <;> exact ⟨h.2, h.cfg⟩

/-- Settles O56. -/
theorem stepAppendsHistory : Obligations.StepAppendsHistory := by
  intro s t h
  obtain ⟨is, d, hw⟩ := step_storage h
  obtain ⟨⟨es, hes⟩, hcfg⟩ := hw.hist_cfg
  exact ⟨⟨es, hes.symm⟩, hcfg⟩

/-- Settles O57: of the things a step writes, only the two level commands touch an enable bit or a priority. -/
theorem onlySetLevelChangesLevels : Obligations.OnlySetLevelChangesLevels := by
  intro s t h hne
  obtain ⟨is, d, hw⟩ := step_storage h
  cases hw with
  | level k p _ _ _ hh => exact ⟨k, p, hh⟩
  | _ => rename_i h; exact absurd hne (not_or.2 ⟨not_not.2 h.ien, not_not.2 h.ipr⟩)

/-- Settles O59: of the things a step writes, only SETTASK and INSTGT touch a table, and only INSTGT a group enable. -/
theorem onlyInstallsChangeTables : Obligations.OnlyInstallsChangeTables := by
  intro s t h
  obtain ⟨is, d, hw⟩ := step_storage h
  cases hw with
  | rawSlot n v val _ hh h => exact ⟨fun _ => ⟨n, v, val, .inl hh⟩, absurd h.gen⟩
  | groupSlot n _ i val _ hh h => exact ⟨fun _ => ⟨n, i, val, .inl hh⟩, absurd h.gen⟩
  | installed g i val _ _ hh => exact ⟨fun _ => ⟨g, i, val, .inr hh⟩, fun _ => ⟨g, i, val, hh⟩⟩
  | _ => rename_i h; exact ⟨fun hne => absurd hne (not_or.2 ⟨not_not.2 h.raw, not_not.2 h.gt⟩), absurd h.gen⟩

/-- Settles O60: of the things a step writes, only a LEVEL event touches a level input. -/
theorem onlySourcesChangeInputs : Obligations.OnlySourcesChangeInputs := by
  intro s t h hne
  obtain ⟨is, d, hw⟩ := step_storage h
  cases hw with
  | input g i b _ hh => exact ⟨g, i, b, hh⟩
  | _ => rename_i h; exact absurd h.src hne

/-- No command writes a request latch (R34). -/
theorem exec_ir {i : Instr} (h : exec i s = .next t) : t.ir = s.ir := by
  cases exec_cases h with
  | returned => exact (KeepsStorage.of_resume _).ir
  | slotSet _ _ _ T => cases T <;> rfl
  | vectorLevel => split <;> rfl
  | periphLevel => split <;> rfl
  | _ => rfl

/-- Acceptance clears the latch of its own vector alone, if it is no group vector (R287). -/
theorem State.irBit_consumeRequest (s : State) (v v' : Nat) :
    (s.consumeRequest v).irBit v' = if isGroup s.cfg v = false ∧ v = v' then false else s.irBit v' := by
  unfold State.consumeRequest
  cases isGroup s.cfg v <;> simp

/-- A step that changes a latch is the request that sets it or the acceptance that clears it. -/
theorem StorageWrite.irBit_cases (h : StorageWrite s t) (v : Nat) : t.irBit v = s.irBit v ∨
    (t.irBit v = true ∧ t.hist = s.hist ++ [.src (.vreq v)]) ∨
    (t.irBit v = false ∧ ∃ l es, t.hist = s.hist ++ .deliver v l :: es) := by
  cases h with
  | requested v' hh h =>
    have hv := h.irBit v
    rw [State.irBit_setIr] at hv
    split at hv
    · next heq => exact .inr (.inl ⟨hv, heq ▸ hh⟩)
    · exact .inl hv
  | accepted v' latches dact hl _ hh h =>
    have hv : t.irBit v = (s.consumeRequest v').irBit v := by rw [h.irBit, hl]; rfl
    rw [State.irBit_consumeRequest] at hv
    split at hv
    · next heq =>
      obtain ⟨es, hes⟩ := hh
      exact .inr (.inr ⟨hv, s.prioOf v', es, by simp [← hes, heq.2]⟩)
    · exact .inl hv
  | _ => rename_i h; exact .inl (h.irBit v)

/-- Settles O58. -/
theorem onlyRequestsAndAcceptanceChangeIr : Obligations.OnlyRequestsAndAcceptanceChangeIr := by
  refine ⟨fun s t v h hne => ?_, fun i s t h => exec_ir h⟩
  obtain ⟨is, d, hw⟩ := step_storage h
  exact (hw.irBit_cases v).resolve_left hne

end Sys2Proof.Machine
end

section
/-! What every step keeps of the stored elements: canonical form, queue bounds, group bits (10_state.md R30, R39 to R43). -/

namespace Sys2Proof.Machine

variable {s t u : State}

/-- `CanonicalInv` with a name for each element. -/
structure CanonicalForm (s : State) : Prop where
  ien : Sparse.canonical false s.ien = true
  ipr : Sparse.canonical 0#8 s.ipr = true
  ir : Sparse.canonical false s.ir = true
  raw : Sparse.canonical Slot.null s.raw = true
  gt : Sparse.canonical2 (Sparse.canonical Slot.null) s.gt = true
  gen : Sparse.canonical 0#32 s.gen = true
  grp : Sparse.canonical 0#32 s.grp = true
  src : Sparse.canonical 0#32 s.src = true
  buf : Memory.wf s.buf = true
  rd : Sparse.canonical 0 s.rd = true
  wr : Sparse.canonical 0 s.wr = true
  dact : Sparse.canonical DemuxStatus.idle s.dact = true

theorem canonicalForm_iff : CanonicalForm s ↔ CanonicalInv s :=
  ⟨fun h => ⟨h.ien, h.ipr, h.ir, h.raw, h.gt, h.gen, h.grp, h.src, h.buf, h.rd, h.wr, h.dact⟩,
    fun ⟨ien, ipr, ir, raw, gt, gen, grp, src, buf, rd, wr, dact⟩ =>
      ⟨ien, ipr, ir, raw, gt, gen, grp, src, buf, rd, wr, dact⟩⟩

theorem KeepsStorage.canonicalForm (h : KeepsStorage u t) (hu : CanonicalForm u) : CanonicalForm t := by
  rw [h.1]; exact { hu with }

theorem Sparse.canonical_foldl_set {α : Type} [DecidableEq α] {d : α} {m : List (Nat × α)} (ks : List Nat) (v : α)
    (h : Sparse.canonical d m = true) :
    Sparse.canonical d (ks.foldl (fun m k => Sparse.set d m k v) m) = true := by
  induction ks generalizing m with
  | nil => exact h
  | cons k ks ih => exact ih (Sparse.canonical_set h)

theorem CanonicalForm.setGt (h : CanonicalForm s) (g i : Nat) (x : Slot) : CanonicalForm (s.setGt g i x) :=
  have hinner : Sparse.canonical Slot.null (Sparse.get [] s.gt g) = true :=
    Sparse.canonical2_get (inner := Sparse.canonical Slot.null) rfl h.gt
  { h with gt := Sparse.canonical2_set (Sparse.canonical_set hinner) h.gt }

theorem CanonicalForm.consumeRequest_ir (h : CanonicalForm s) (v : Nat) :
    Sparse.canonical false (s.consumeRequest v).ir = true := by
  unfold State.consumeRequest
  split
  · exact h.ir
  · exact Sparse.canonical_set (v := false) h.ir

/-- Each thing a step writes is written in canonical form. -/
theorem StorageWrite.canonicalForm (hw : StorageWrite s t) (hs : CanonicalForm s) : CanonicalForm t := by
  cases hw with
  | nothing h => exact h.canonicalForm hs
  | put q c b _ _ h =>
    exact h.canonicalForm { hs with buf := Memory.wf_queuePut s c b hs.buf, wr := Sparse.canonical_set hs.wr }
  | got q c _ _ h => exact h.canonicalForm { hs with rd := Sparse.canonical_set hs.rd }
  | rawSlot n v val x _ h => exact h.canonicalForm { hs with raw := Sparse.canonical_set hs.raw }
  | groupSlot n g i val x _ h => exact h.canonicalForm (hs.setGt g i x)
  | level k p f vs _ _ h =>
    exact h.canonicalForm { hs with
      ien := Sparse.canonical_foldl_set _ _ (Sparse.canonical_foldl_set _ _ hs.ien)
      ipr := Sparse.canonical_set hs.ipr }
  | installed g i val x _ _ h =>
    exact h.canonicalForm { hs.setGt g i x with
      raw := Sparse.canonical_set (v := Slot.demux g) hs.raw, gen := Sparse.canonical_set hs.gen }
  | latched g i _ h => exact h.canonicalForm { hs with grp := Sparse.canonical_set hs.grp }
  | cleared g i h => exact h.canonicalForm { hs with grp := Sparse.canonical_set hs.grp }
  | input g i b _ _ h => exact h.canonicalForm { hs with src := Sparse.canonical_set hs.src }
  | requested v _ h => exact h.canonicalForm { hs with ir := Sparse.canonical_set (v := true) hs.ir }
  | accepted v latches dact hl hd _ h =>
    refine h.canonicalForm { hs with ir := hl ▸ hs.consumeRequest_ir v, dact := ?_ }
    obtain rfl | ⟨g, rfl⟩ := hd
    · exact hs.dact
    · exact Sparse.canonical_set (v := DemuxStatus.active) hs.dact
  | demux g d h => exact h.canonicalForm { hs with dact := Sparse.canonical_set hs.dact }

/-- Settles O45. -/
theorem stepKeepsCanonicalForm : Obligations.StepKeepsCanonicalForm := by
  intro s t hs h
  obtain ⟨is, d, hw⟩ := step_storage h
  exact canonicalForm_iff.1 (hw.canonicalForm { canonicalForm_iff.2 hs with })

/-- Registers `g` whose set bits lie below `n g` stay so when a bit below `n g` is set, or any bit cleared. -/
theorem getLsbD_set_setBit {m : List (Nat × Word)} {n : Nat → Nat} {g i : Nat} {b : Bool}
    (hm : ∀ g j, (Sparse.get 0#32 m g).getLsbD j = true → j < n g) (hi : b = true → i < n g) (g' j : Nat)
    (h : (Sparse.get 0#32 (Sparse.set 0#32 m g (setBit (Sparse.get 0#32 m g) i b)) g').getLsbD j = true) : j < n g' := by
  rw [Sparse.get_set] at h
  split at h
  · next hg =>
    subst hg
    rw [getLsbD_setBit] at h
    split at h
    · next hij => exact hij.1 ▸ hi h
    · exact hm g j h
  · exact hm g' j h

/-- `GroupBitsInv` with a name for each register. -/
structure GroupBits (s : State) : Prop where
  gen : ∀ g j, (Sparse.get 0#32 s.gen g).getLsbD j = true → j < groupSize s.cfg g
  grp : ∀ g j, (Sparse.get 0#32 s.grp g).getLsbD j = true → j < groupSize s.cfg g
  src : ∀ g j, (Sparse.get 0#32 s.src g).getLsbD j = true → j < groupSize s.cfg g

theorem groupBits_iff : GroupBits s ↔ GroupBitsInv s :=
  ⟨fun h g j hj => hj.elim (h.gen g j) (Or.elim · (h.grp g j) (h.src g j)),
    fun h => ⟨fun g j hj => h g j (.inl hj), fun g j hj => h g j (.inr (.inl hj)), fun g j hj => h g j (.inr (.inr hj))⟩⟩

theorem KeepsStorage.groupBits (h : KeepsStorage u t) (hu : GroupBits u) : GroupBits t := by
  rw [h.1]; exact { hu with }

/-- INSTGT, the EDGE and LEVEL events and the clears are all that writes a group register. -/
theorem StorageWrite.groupBits (hw : StorageWrite s t) (hs : GroupBits s) : GroupBits t := by
  cases hw with
  | installed g i val x hi _ h => exact h.groupBits { hs with gen := getLsbD_set_setBit hs.gen fun _ => hi }
  | latched g i hi h => exact h.groupBits { hs with grp := getLsbD_set_setBit hs.grp fun _ => hi }
  | cleared g i h => exact h.groupBits { hs with grp := getLsbD_set_setBit hs.grp nofun }
  | input g i b hi _ h => exact h.groupBits { hs with src := getLsbD_set_setBit hs.src fun _ => hi }
  | _ => rename_i h; exact h.groupBits { hs with }

/-- Settles O55. -/
theorem stepKeepsGroupBits : Obligations.StepKeepsGroupBits := by
  intro s t hs h
  obtain ⟨is, d, hw⟩ := step_storage h
  exact groupBits_iff.1 (hw.groupBits { groupBits_iff.2 hs with })

/-- A QPUT on a queue that is not full adds one to the fill level (R43, R141). -/
theorem State.len_queuePut (s : State) (c : QueueRow) (b : Byte) (h : s.len c < c.cap) :
    (s.queuePut c b).len c = s.len c + 1 := by
  unfold State.len at h ⊢
  rw [State.wrOf_queuePut, if_pos rfl, show (s.queuePut c b).rdOf c.id = s.rdOf c.id from rfl]
  have hstep : (((s.wrOf c.id + 1) % (2 * c.cap) : Nat) - (s.rdOf c.id : Int)) % (2 * (c.cap : Int)) =
      ((s.wrOf c.id - s.rdOf c.id : Int) % (2 * c.cap) + 1) % (2 * c.cap) := by
    push_cast
    rw [Int.emod_sub_emod, Int.emod_add_emod, add_sub_right_comm]
  have hnonneg := Int.emod_nonneg (s.wrOf c.id - s.rdOf c.id : Int) (b := 2 * (c.cap : Int)) (by omega)
  rw [hstep, Int.emod_eq_of_lt (by omega) (by omega)]
  omega

/-- A QGET on a queue that is not empty takes one from the fill level (R43, R145). -/
theorem State.len_queueAdvance (s : State) (c : QueueRow) (hcap : 1 ≤ c.cap) (h : s.len c ≠ 0) :
    (s.queueAdvance c).len c = s.len c - 1 := by
  unfold State.len at h ⊢
  rw [State.rdOf_queueAdvance, if_pos rfl, show (s.queueAdvance c).wrOf c.id = s.wrOf c.id from rfl]
  have hstep : ((s.wrOf c.id : Int) - ((s.rdOf c.id + 1) % (2 * c.cap) : Nat)) % (2 * (c.cap : Int)) =
      ((s.wrOf c.id - s.rdOf c.id : Int) % (2 * c.cap) - 1) % (2 * c.cap) := by
    push_cast
    rw [Int.sub_emod_emod, Int.emod_sub_emod, sub_add_eq_sub_sub]
  have hlt := Int.emod_lt_of_pos (s.wrOf c.id - s.rdOf c.id : Int) (b := 2 * (c.cap : Int)) (by omega)
  rw [hstep, Int.emod_eq_of_lt (by omega) (by omega)]
  omega

/-- `QueueInv` for one queue. -/
def State.QueueBounds (s : State) (c : QueueRow) : Prop :=
  s.rdOf c.id < 2 * c.cap ∧ s.wrOf c.id < 2 * c.cap ∧ s.len c ≤ c.cap

theorem queueInv_iff : QueueInv s ↔ ∀ q c, queueOf s.cfg q = some c → s.QueueBounds c :=
  forall₂_congr fun q c => forall_congr' fun hq => by rw [State.QueueBounds, queueOf_id hq]

theorem KeepsStorage.queueInv (h : KeepsStorage u t) (hu : QueueInv u) : QueueInv t := by
  rw [h.1]; exact hu

/-- A write of one queue's cursors leaves the bounds of every other queue. -/
theorem QueueInv.of_queue {q : Nat} {c : QueueRow} (hs : QueueInv s) (hq : queueOf s.cfg q = some c) (hcfg : u.cfg = s.cfg)
    (hother : ∀ q', c.id ≠ q' → u.rdOf q' = s.rdOf q' ∧ u.wrOf q' = s.wrOf q') (hc : u.QueueBounds c) : QueueInv u := by
  rw [queueInv_iff] at hs ⊢
  intro q' c' hq'
  rw [hcfg] at hq'
  by_cases hid : c.id = c'.id
  · obtain rfl : c = c' := by
      rw [← queueOf_id hq', ← hid, queueOf_id hq, hq] at hq'
      exact Option.some.inj hq'
    exact hc
  · obtain ⟨hrd, hwr⟩ := hother c'.id hid
    unfold State.QueueBounds State.len
    rw [hrd, hwr]
    exact hs q' c' hq'

/-- Only a QPUT on a queue that is not full and a QGET on one that is not empty move a cursor. -/
theorem StorageWrite.queueInv (hcfg : cfgOk s.cfg = true) (hw : StorageWrite s t) (hs : QueueInv s) : QueueInv t := by
  cases hw with
  | put q c b hq hl h =>
    obtain ⟨hrd, -, hlen⟩ := queueInv_iff.1 hs q c hq
    have hcap := (queueOf_cap hcfg hq).1
    refine h.queueInv (hs.of_queue hq rfl (fun q' hne => ⟨rfl, by simp [hne]⟩) ⟨hrd, ?_, ?_⟩)
    · rw [State.wrOf_queuePut, if_pos rfl]
      exact Nat.mod_lt _ (by omega)
    · rw [State.len_queuePut s c b (by omega)]
      omega
  | got q c hq hl h =>
    obtain ⟨-, hwr, hlen⟩ := queueInv_iff.1 hs q c hq
    have hcap := (queueOf_cap hcfg hq).1
    refine h.queueInv (hs.of_queue hq rfl (fun q' hne => ⟨by simp [hne], rfl⟩) ⟨?_, hwr, ?_⟩)
    · rw [State.rdOf_queueAdvance, if_pos rfl]
      exact Nat.mod_lt _ (by omega)
    · rw [State.len_queueAdvance s c hcap hl]
      omega
  | _ => rename_i h; exact h.queueInv hs

/-- Settles O46. -/
theorem stepKeepsQueueBounds : Obligations.StepKeepsQueueBounds := by
  intro s t hs h
  obtain ⟨hcfg, -, is, d, hcase⟩ := step_cases h
  exact hcase.storage.queueInv (s := { s with inputs := is, turn := d }) hcfg hs

end Sys2Proof.Machine
end

section
/-! What every step keeps of the contexts: priorities and levels, and a mainline without activations (10_state.md R33, R44;
60_exceptions.md R290). -/

namespace Sys2Proof.Machine

variable {s s' t u : State}

@[simp] theorem State.iprField_setIens (s : State) (vs : List Nat) (b : Bool) (f : Nat) :
    (s.setIens vs b).iprField f = s.iprField f := rfl

/-- Only the level commands write a priority, and none above `PRIO_MAX` (R33). -/
theorem StorageWrite.iprField_le (hw : StorageWrite s t) (hs : ∀ f, (s.iprField f).toNat ≤ s.cfg.prioMax) (f : Nat) :
    (t.iprField f).toNat ≤ t.cfg.prioMax := by
  have kept {u : State} (h : KeepsStorage u t) : t.iprField f = u.iprField f := by rw [h.1]; rfl
  rw [hw.hist_cfg.2]
  cases hw with
  | level k p f' vs hp _ h =>
    rw [kept h, State.iprField_setIens, State.iprField_setIpr]
    split
    · rw [BitVec.toNat_ofNat]
      exact (Nat.mod_le _ _).trans hp
    · exact hs f
  | _ => rename_i h; rw [kept h]; exact hs f

/-- The levels of the frames, newest first. -/
def State.levels (s : State) : List Nat := s.cs.map fun f => f.lvl.toNat

@[simp] theorem State.levels_setActs (s : State) (as : List Act) : (s.setActs as).levels = s.levels := by
  unfold State.levels State.setActs
  cases s.cs <;> rfl

theorem State.levels_interruptReturn (s : State) : s.interruptReturn.levels.Sublist s.levels := by
  unfold State.levels
  cases h : s.cs with
  | nil => simp [State.interruptReturn, h]
  | cons f fs => simp [State.interruptReturn_cons s h]

/-- A resumption returns from the newest frame or leaves the frames as they are. -/
theorem State.levels_resume (s : State) : s.resume.levels.Sublist s.levels := by
  rcases s.resume_trichotomy with ⟨-, h⟩ | ⟨_, _, _, _, _, _, -, h⟩ | h <;> rw [h]
  · exact s.levels_interruptReturn
  · exact s.levels_setActs _ ▸ .refl _

@[simp] theorem State.levels_invoke (s : State) (h : Nat) : (s.invoke h).levels = s.levels := s.levels_setActs _

@[simp] theorem State.levels_demuxPush (s : State) (w : Wait) (g : Nat) : (s.demuxPush w g).levels = s.levels :=
  ((s.setWait w).levels_setActs _).trans (s.levels_setActs _)

theorem IssuedFrom.levels (h : IssuedFrom s s') : s'.levels = s.levels := by
  cases h with
  | body => exact s.levels_setActs _
  | _ => rfl

/-- A command pushes no frame. -/
theorem exec_levels {i : Instr} (h : exec i s = .next t) : t.levels.Sublist s.levels := by
  cases exec_cases h with
  | returned _ _ _ as => exact s.levels_setActs as ▸ State.levels_resume _
  | slotSet _ _ _ T => cases T <;> exact .refl _
  | vectorLevel => split <;> exact .refl _
  | periphLevel => split <;> exact .refl _
  | invoked => rw [State.levels_invoke, State.setWait, State.levels_setActs]
  | demuxRun => rw [State.levels_demuxPush]
  | demuxed => rw [State.levels_demuxPush]
  | _ => exact .refl _

theorem State.levels_demuxStep (s : State) (g : Nat) (snap : Word) (pos : Nat) (phase : Phase) (as : List Act) :
    (s.demuxStep g snap pos phase as).levels.Sublist s.levels := by
  cases phase with
  | scan =>
    simp only [State.demuxStep, State.demuxScan]
    split
    · exact s.levels_setActs as ▸ State.levels_resume _
    · split
      · rw [State.levels_invoke, State.levels_setActs]
      · rw [State.levels_setActs]
      · rw [State.levels_setActs]
  | called i =>
    simp only [State.demuxStep, State.demuxAfter]
    rw [State.clearServiced_frame, State.levels_setActs]
    exact .refl _

theorem State.levels_startWork (u : State) (x : Slot) : (u.startWork x).levels.Sublist u.levels := by
  cases x with
  | null => exact u.levels_interruptReturn
  | handler h => exact u.levels_invoke h ▸ .refl _
  | demux g =>
    simp only [State.startWork]
    rcases u.demuxStart_cases .nothing g with ⟨-, h⟩ | ⟨-, h⟩ <;> rw [h]
    · exact .refl _
    · rw [State.levels_demuxPush]

/-- An acceptance pushes one frame, at the priority of its vector (R287). -/
theorem State.levels_deliver (s : State) (v : Nat) :
    (s.deliver v).levels.Sublist ((s.prioOf v).toNat :: s.levels) := by
  have pushed : ((s.consumeRequest v).pushFrame v).levels = (s.prioOf v).toNat :: s.levels := by
    rw [State.consumeRequest_frame]; rfl
  exact pushed ▸ State.levels_startWork _ _

/-- Only a delivery of the selected vector pushes a frame (R290). -/
theorem StepCase.levels (h : StepCase s t) : t.levels.Sublist s.levels ∨
    ∃ v, s.selected = some v ∧ t.levels.Sublist ((s.prioOf v).toNat :: s.levels) := by
  cases h with
  | source e h => subst h; rw [State.sourceStep_frame]; exact .inl (.refl _)
  | deliver v hv h => exact .inr ⟨v, hv, h ▸ s.levels_deliver v⟩
  | engine g snap pos phase as _ h => exact .inl (h ▸ s.levels_demuxStep g snap pos phase as)
  | command i s' hs h => exact .inl (hs.levels ▸ exec_levels h)
  | illegal w s' hs h => exact .inl (h ▸ hs.levels ▸ .refl _)

/-- Levels, newest first, that nest strictly within `1..max` (R290). -/
def NestedLevels (max : Nat) (ls : List Nat) : Prop := ls.Pairwise (· > ·) ∧ ∀ l ∈ ls, 1 ≤ l ∧ l ≤ max

theorem NestedLevels.sublist {max : Nat} {ls ls' : List Nat} (h : NestedLevels max ls) (hl : ls'.Sublist ls) :
    NestedLevels max ls' :=
  ⟨h.1.sublist hl, fun l hm => h.2 l (hl.subset hm)⟩

theorem nestingInv_iff : NestingInv s ↔
    (∀ f, (s.iprField f).toNat ≤ s.cfg.prioMax) ∧ NestedLevels s.cfg.prioMax s.levels := by
  simp [NestingInv, NestedLevels, State.levels]

/-- The current level is that of the newest frame, which is the highest (R45, R290). -/
theorem NestedLevels.le_curLvl {max : Nat} (h : NestedLevels max s.levels) : ∀ l ∈ s.levels, l ≤ s.curLvl := by
  unfold State.levels State.curLvl at *
  cases hcs : s.cs with
  | nil => simp
  | cons f fs =>
    rw [hcs] at h
    intro l hl
    rcases List.mem_cons.1 hl with rfl | hl
    · exact Nat.le_refl _
    · exact Nat.le_of_lt (List.rel_of_pairwise_cons h.1 hl)

/-- The vector a delivery takes has a priority above the current level and within `PRIO_MAX` (R285, R33). -/
theorem NestingInv.prioOf_selected (h : NestingInv s) {v : Nat} (hv : s.selected = some v) :
    s.curLvl < (s.prioOf v).toNat ∧ (s.prioOf v).toNat ≤ s.cfg.prioMax := by
  obtain ⟨-, heligible, -⟩ := selectBelow_some hv
  simp only [State.eligible, Bool.and_eq_true, decide_eq_true_eq] at heligible
  obtain ⟨-, -, -, -, hlvl, -⟩ := heligible
  refine ⟨hlvl, ?_⟩
  unfold State.prioOf
  split
  · exact h.1 _
  · exact Nat.zero_le _

/-- Settles O50: a priority is written within `PRIO_MAX`, and a frame is pushed only above the level of the newest. -/
theorem stepKeepsNesting : Obligations.StepKeepsNesting := by
  intro s t hs h
  obtain ⟨-, -, is, d, hcase⟩ := step_cases h
  obtain ⟨hprio, hnest⟩ := nestingInv_iff.1 hs
  refine nestingInv_iff.2 ⟨hcase.storage.iprField_le hprio, ?_⟩
  rw [hcase.storage.hist_cfg.2]
  rcases hcase.levels with hl | ⟨v, hv, hl⟩
  · exact hnest.sublist hl
  · rw [selected_schedule] at hv
    obtain ⟨hlow, hhigh⟩ := hs.prioOf_selected hv
    refine NestedLevels.sublist ⟨List.pairwise_cons.2 ⟨fun l hm => ?_, hnest.1⟩, fun l hm => ?_⟩ hl
    · exact Nat.lt_of_le_of_lt (hnest.le_curLvl l hm) hlow
    · rcases List.mem_cons.1 hm with rfl | hm
      · exact ⟨Nat.lt_of_le_of_lt (Nat.zero_le _) hlow, hhigh⟩
      · exact hnest.2 l hm

end Sys2Proof.Machine
end

section
/-! What every step keeps of the activations: the mainline has none (10_state.md R44), and those of demux passes agree with
`DACT` and with the group tables (R37, R46; 43_group_demux.md R244). -/

namespace Sys2Proof.Machine

variable {s s' t u : State}

/-! The mainline. -/

theorem State.cs_ne_nil_of_ctx (h : s.ctx ≠ .main) : s.cs ≠ [] := by
  intro hcs
  simp [State.ctx, hcs] at h

theorem State.setActs_cs_ne_nil (h : s.cs ≠ []) (as : List Act) : (s.setActs as).cs ≠ [] := by
  unfold State.setActs
  cases hcs : s.cs with
  | nil => exact absurd hcs h
  | cons f fs => simp [withTopActs]

namespace MainlineInv

/-- An activation of a block whose mainline has none is a frame's. -/
theorem cs_ne_nil (h : MainlineInv s) {a : Act} {as : List Act} (ha : s.acts = a :: as) : s.cs ≠ [] := by
  intro hcs
  rw [State.acts, hcs] at ha
  exact List.cons_ne_nil _ _ (ha.symm.trans h)

theorem setActs (h : MainlineInv s) (hcs : s.cs ≠ []) (as : List Act) : MainlineInv (s.setActs as) :=
  (if_neg hcs).trans h

theorem interruptReturn (h : MainlineInv s) : MainlineInv s.interruptReturn := by
  rw [State.interruptReturn_frame]; exact h

theorem resume (h : MainlineInv s) : MainlineInv s.resume := by
  rcases s.resume_trichotomy with ⟨-, hr⟩ | ⟨_, _, _, _, _, _, ha, hr⟩ | hr <;> rw [hr]
  · exact h.interruptReturn
  · exact h.setActs (h.cs_ne_nil ha) _
  · exact h

theorem invoke (h : MainlineInv s) (hcs : s.cs ≠ []) (n : Nat) : MainlineInv (s.invoke n) := h.setActs hcs _

theorem demuxPush (h : MainlineInv s) (hcs : s.cs ≠ []) (w : Wait) (g : Nat) : MainlineInv (s.demuxPush w g) :=
  (h.setActs hcs _).setActs (State.setActs_cs_ne_nil hcs _) _

theorem issuedFrom (h : MainlineInv s) (hs : IssuedFrom s s') : MainlineInv s' := by
  cases hs with
  | body _ _ _ _ _ _ ha => exact h.setActs (h.cs_ne_nil ha) _
  | _ => exact h

/-- Commands that push an activation need an interrupt context, and TRET needs an activation. -/
theorem exec (h : MainlineInv s) {i : Instr} (he : Machine.exec i s = .next t) : MainlineInv t := by
  cases exec_cases he with
  | invoked n i _ k hc =>
    have hcs := State.cs_ne_nil_of_ctx hc
    exact MainlineInv.invoke (h.setActs hcs _) (State.setActs_cs_ne_nil hcs _) k
  | demuxRun _ _ _ g hc => exact h.demuxPush (State.cs_ne_nil_of_ctx hc) _ g
  | demuxed g hc => exact h.demuxPush (State.cs_ne_nil_of_ctx hc) _ g
  | returned _ _ _ as ha => exact MainlineInv.resume (s := (s.setActs as).record _) (h.setActs (h.cs_ne_nil ha) as)
  | slotSet _ _ _ T => cases T <;> exact h
  | vectorLevel => split <;> exact h
  | periphLevel => split <;> exact h
  | _ => exact h

theorem demuxStep (h : MainlineInv s) (hcs : s.cs ≠ []) (g : Nat) (snap : Word) (pos : Nat) (phase : Phase)
    (as : List Act) : MainlineInv (s.demuxStep g snap pos phase as) := by
  cases phase with
  | scan =>
    simp only [State.demuxStep, State.demuxScan]
    split
    · exact MainlineInv.resume (s := (s.setActs as).setDact g .idle) (h.setActs hcs as)
    · split
      · exact (h.setActs hcs _).invoke (State.setActs_cs_ne_nil hcs _) _
      · exact h.setActs hcs _
      · exact h.setActs hcs _
  | called i =>
    simp only [State.demuxStep, State.demuxAfter]
    rw [State.clearServiced_frame]
    exact h.setActs hcs _

/-- A frame's work is pushed on the frame, which stands by then (R288). -/
theorem deliver (h : MainlineInv s) (v : Nat) : MainlineInv (s.deliver v) := by
  have hframe : ((s.consumeRequest v).pushFrame v).cs ≠ [] := List.cons_ne_nil _ _
  have hpushed : MainlineInv ((s.consumeRequest v).pushFrame v) := by
    rw [State.consumeRequest_frame]; exact h
  unfold State.deliver
  cases s.rawSlot v with
  | null => exact hpushed.interruptReturn
  | handler k => exact hpushed.invoke hframe k
  | demux g =>
    rcases State.demuxStart_cases ((s.consumeRequest v).pushFrame v) .nothing g with ⟨-, hd⟩ | ⟨-, hd⟩ <;>
      rw [State.startWork, hd]
    · exact hpushed
    · exact hpushed.demuxPush hframe _ g

end MainlineInv

/-- Settles O52: activations are pushed only where a frame stands, and then on the newest frame. -/
theorem stepKeepsMainlineEmpty : Obligations.StepKeepsMainlineEmpty := by
  intro s t hs h
  obtain ⟨-, -, is, d, hcase⟩ := step_cases h
  have hs : MainlineInv { s with inputs := is, turn := d } := hs
  cases hcase with
  | source e h => rw [h, State.sourceStep_frame]; exact hs
  | deliver v _ h => exact h ▸ hs.deliver v
  | engine g snap pos phase as ha h => exact h ▸ hs.demuxStep (hs.cs_ne_nil ha) g snap pos phase as
  | command i s' hi h => exact (hs.issuedFrom hi).exec h
  | illegal w s' hi h => rw [h]; exact (hs.issuedFrom hi :)

/-! Demux passes. -/

/-- The activations of the contexts that do not run. -/
def State.idleActs (s : State) : List Act :=
  match s.cs with
  | [] => []
  | _ :: fs => s.mact ++ fs.flatMap Frame.acts

/-- Every activation is one of the running context or of another. -/
theorem State.allActs_perm (s : State) : s.allActs.Perm (s.acts ++ s.idleActs) := by
  unfold State.allActs State.acts State.idleActs
  cases s.cs with
  | nil => simp
  | cons f fs =>
    rw [List.flatMap_cons, ← List.append_assoc, ← List.append_assoc]
    exact List.perm_append_comm.append_right _

@[simp] theorem State.idleActs_setActs (s : State) (as : List Act) : (s.setActs as).idleActs = s.idleActs := by
  unfold State.idleActs State.setActs
  cases s.cs <;> simp [withTopActs]

/-- `DemuxInv`, said of the activations `as`: it speaks of the tables, `DACT` and the configuration of `s` alone. -/
structure DemuxDiscipline (s : State) (as : List Act) : Prop where
  nodup : (as.filterMap demuxGroup).Nodup
  dact : ∀ g, s.dactOf g = .active ↔ g ∈ as.filterMap demuxGroup
  table : ∀ g i x, s.gtSlot g i ≠ .demux x
  snapshot : ∀ g snap pos phase, Act.demux g snap pos phase ∈ as →
    ∀ j, snap.getLsbD j = true → j < groupSize s.cfg g ∧ ∃ h, s.gtSlot g j = .handler h

namespace DemuxDiscipline

variable {as bs : List Act}

theorem perm (h : DemuxDiscipline s as) (hp : as.Perm bs) : DemuxDiscipline s bs where
  nodup := (hp.filterMap _).nodup_iff.1 h.nodup
  dact g := (h.dact g).trans (hp.filterMap _).mem_iff
  table := h.table
  snapshot g snap pos phase hm := h.snapshot g snap pos phase (hp.mem_iff.2 hm)

/-- A body takes no part in it. -/
@[simp] theorem cons_body {n : Nat} {rest : List CmdWord} {w : Wait} :
    DemuxDiscipline s (.body n rest w :: as) ↔ DemuxDiscipline s as :=
  ⟨fun ⟨hn, hd, ht, hs⟩ => ⟨hn, hd, ht, fun g snap pos phase hm => hs g snap pos phase (List.mem_cons_of_mem _ hm)⟩,
    fun ⟨hn, hd, ht, hs⟩ => ⟨hn, hd, ht, fun g snap pos phase hm => hs g snap pos phase (by simpa using hm)⟩⟩

@[simp] theorem withTopWait_append {w : Wait} :
    DemuxDiscipline s (withTopWait w as ++ bs) ↔ DemuxDiscipline s (as ++ bs) := by
  unfold withTopWait
  split <;> simp

/-- A pass moves on with its snapshot (R244, R247). -/
theorem move {g : Nat} {snap : Word} {pos pos' : Nat} {phase phase' : Phase}
    (h : DemuxDiscipline s (.demux g snap pos phase :: as)) : DemuxDiscipline s (.demux g snap pos' phase' :: as) where
  nodup := h.nodup
  dact := h.dact
  table := h.table
  snapshot g' snap' pos'' phase'' hm := by
    rcases List.mem_cons.1 hm with heq | hm
    · cases heq
      exact h.snapshot g snap pos phase List.mem_cons_self
    · exact h.snapshot g' snap' pos'' phase'' (List.mem_cons_of_mem _ hm)

/-- A pass opens with a snapshot of occupied slots, which hold handlers (R242, R37). -/
theorem open_pass (h : DemuxDiscipline s as) {g : Nat} (hd : s.dactOf g = .idle) :
    DemuxDiscipline (s.setDact g .active) (.demux g (s.snapshot g) 0 .scan :: as) where
  nodup := by
    refine List.nodup_cons.2 ⟨fun hm => ?_, h.nodup⟩
    rw [← h.dact, hd] at hm
    cases hm
  dact g' := by
    rw [State.dactOf_setDact]
    by_cases hg : g = g'
    · simp [hg, demuxGroup]
    · simp [hg, Ne.symm hg, demuxGroup, h.dact]
  table := h.table
  snapshot g' snap pos phase hm j hj := by
    rcases List.mem_cons.1 hm with heq | hm
    · cases heq
      simp only [State.snapshot, BitVec.getLsbD_and, getLsbD_maskWord, State.maskBit, tableSize, Bool.and_eq_true,
        decide_eq_true_eq, Nat.mul_zero, Nat.zero_add, State.slot] at hj
      obtain ⟨-, -, hlt, hne⟩ := hj
      refine ⟨hlt, ?_⟩
      show ∃ k, s.gtSlot g j = .handler k
      cases hslot : s.gtSlot g j with
      | null => exact absurd hslot hne
      | handler k => exact ⟨k, rfl⟩
      | demux x => exact absurd hslot (h.table g j x)
    · exact h.snapshot g' snap pos phase hm j hj

/-- A pass that ends takes its `DACT` mark with it (R248). -/
theorem close_pass {g : Nat} {snap : Word} {pos : Nat} {phase : Phase}
    (h : DemuxDiscipline s (.demux g snap pos phase :: as)) : DemuxDiscipline (s.setDact g .idle) as where
  nodup := (List.nodup_cons.1 h.nodup).2
  dact g' := by
    have hgone : g ∉ as.filterMap demuxGroup := (List.nodup_cons.1 h.nodup).1
    rw [State.dactOf_setDact]
    by_cases hg : g = g'
    · subst hg; simpa using hgone
    · have hd := h.dact g'
      simpa [hg, Ne.symm hg, demuxGroup] using hd
  table := h.table
  snapshot g' snap' pos' phase' hm := h.snapshot g' snap' pos' phase' (List.mem_cons_of_mem _ hm)

/-- A group table is written only while no pass of the group runs, and never with a Demux (R173, R171). -/
theorem setGt (h : DemuxDiscipline s as) {g i : Nat} {x : Slot} (hd : s.dactOf g ≠ .active)
    (hx : slotLegal (.group g) x = true) : DemuxDiscipline (s.setGt g i x) as where
  nodup := h.nodup
  dact := h.dact
  table g' i' y := by
    rw [State.gtSlot_setGt]
    split
    · rintro rfl
      cases hx
    · exact h.table g' i' y
  snapshot g' snap pos phase hm j hj := by
    have hg : g ≠ g' := by
      rintro rfl
      exact hd ((h.dact g).2 (List.mem_filterMap.2 ⟨_, hm, rfl⟩))
    rw [State.gtSlot_setGt, if_neg fun hgi => hg hgi.1]
    exact h.snapshot g' snap pos phase hm j hj

end DemuxDiscipline

theorem demuxInv_iff_allActs : DemuxInv s ↔ DemuxDiscipline s s.allActs :=
  ⟨fun ⟨hn, hd, ht, hs⟩ => ⟨hn, hd, ht, hs⟩, fun ⟨hn, hd, ht, hs⟩ => ⟨hn, hd, ht, hs⟩⟩

theorem demuxInv_iff : DemuxInv s ↔ DemuxDiscipline s (s.acts ++ s.idleActs) :=
  demuxInv_iff_allActs.trans ⟨(·.perm s.allActs_perm), (·.perm s.allActs_perm.symm)⟩

theorem demuxInv_setActs {as : List Act} : DemuxInv (s.setActs as) ↔ DemuxDiscipline s (as ++ s.idleActs) := by
  rw [demuxInv_iff, State.acts_setActs, State.idleActs_setActs]
  exact ⟨fun ⟨hn, hd, ht, hs⟩ => ⟨hn, hd, ht, hs⟩, fun ⟨hn, hd, ht, hs⟩ => ⟨hn, hd, ht, hs⟩⟩

namespace DemuxInv

/-- The running context's activations, taken apart. -/
theorem acts_cons (h : DemuxInv s) {a : Act} {as : List Act} (ha : s.acts = a :: as) :
    DemuxDiscipline s (a :: (as ++ s.idleActs)) := by
  rw [demuxInv_iff, ha] at h
  exact h

/-- What a body has still to issue and what it waits on do not matter. -/
theorem replace_body (h : DemuxInv s) {n : Nat} {rest rest' : List CmdWord} {w w' : Wait} {as : List Act}
    (ha : s.acts = .body n rest w :: as) : DemuxInv (s.setActs (.body n rest' w' :: as)) :=
  demuxInv_setActs.2 (DemuxDiscipline.cons_body.2 (DemuxDiscipline.cons_body.1 (h.acts_cons ha)))

/-- A frame that returns takes no activation with it. -/
theorem interruptReturn (h : DemuxInv s) (ha : s.acts = []) : DemuxInv s.interruptReturn := by
  cases hcs : s.cs with
  | nil => rw [State.interruptReturn, hcs]; exact h
  | cons f fs =>
    have hall : s.allActs = State.allActs { s with cs := fs, hist := s.hist ++ [.intReturn f.vec] } := by
      rw [State.acts, hcs] at ha
      simp only [State.allActs, hcs, List.flatMap_cons]
      rw [show f.acts = [] from ha, List.nil_append]
    rw [State.interruptReturn_cons s hcs]
    rw [demuxInv_iff_allActs, hall] at h
    exact demuxInv_iff_allActs.2 ⟨h.nodup, h.dact, h.table, h.snapshot⟩

theorem resume (h : DemuxInv s) : DemuxInv s.resume := by
  rcases s.resume_trichotomy with ⟨ha, hr⟩ | ⟨_, _, _, _, _, _, ha, hr⟩ | hr <;> rw [hr]
  · exact h.interruptReturn ha
  · exact h.replace_body ha
  · exact h

theorem setWait (h : DemuxInv s) (w : Wait) : DemuxInv (s.setWait w) :=
  demuxInv_setActs.2 (DemuxDiscipline.withTopWait_append.2 (demuxInv_iff.1 h))

theorem invoke (h : DemuxInv s) (n : Nat) : DemuxInv (s.invoke n) :=
  demuxInv_setActs.2 (DemuxDiscipline.cons_body.2 (demuxInv_iff.1 h))

theorem demuxPush (h : DemuxInv s) (w : Wait) {g : Nat} (hd : s.dactOf g = .idle) : DemuxInv (s.demuxPush w g) :=
  (demuxInv_setActs (s := (s.setWait w).setDact g .active)).2 ((demuxInv_iff.1 (h.setWait w)).open_pass hd)

theorem demuxFinish (h : DemuxInv s) {g : Nat} {snap : Word} {pos : Nat} {phase : Phase} {as : List Act}
    (ha : s.acts = .demux g snap pos phase :: as) : DemuxInv (s.demuxFinish g as) :=
  DemuxInv.resume ((demuxInv_setActs (s := s.setDact g .idle)).2 (h.acts_cons ha).close_pass)

theorem issuedFrom (h : DemuxInv s) (hs : IssuedFrom s s') : DemuxInv s' := by
  cases hs with
  | body _ _ _ _ _ _ ha => exact h.replace_body ha
  | _ => exact h

theorem setGt (h : DemuxInv s) {g i : Nat} {x : Slot} (hd : s.dactOf g ≠ .active)
    (hx : slotLegal (.group g) x = true) : DemuxInv (s.setGt g i x) :=
  demuxInv_iff_allActs.2 ((demuxInv_iff_allActs.1 h).setGt hd hx)

theorem exec (h : DemuxInv s) {i : Instr} (he : Machine.exec i s = .next t) : DemuxInv t := by
  cases exec_cases he with
  | slotSet _ _ _ T _ _ _ _ hx hb =>
    cases T with
    | raw => exact h
    | group g => exact h.setGt (by simpa [State.writeBlocked] using hb) hx
  | installed _ _ _ _ _ _ _ hx hd => exact h.setGt (by simp [hd]) hx
  | invoked _ _ _ k => exact (h.setWait _).invoke k
  | demuxRun _ _ _ _ _ _ hd => exact h.demuxPush _ hd
  | demuxed _ _ _ hd => exact h.demuxPush _ hd
  | returned _ _ _ as ha =>
    exact DemuxInv.resume (s := (s.setActs as).record _) (demuxInv_setActs.2 (DemuxDiscipline.cons_body.1 (h.acts_cons ha)))
  | vectorLevel => split <;> exact h
  | periphLevel => split <;> exact h
  | _ => exact h

theorem demuxStep (h : DemuxInv s) {g : Nat} {snap : Word} {pos : Nat} {phase : Phase} {as : List Act}
    (ha : s.acts = .demux g snap pos phase :: as) : DemuxInv (s.demuxStep g snap pos phase as) := by
  have hmoved (pos' : Nat) (phase' : Phase) : DemuxInv (s.setActs (.demux g snap pos' phase' :: as)) :=
    demuxInv_setActs.2 (h.acts_cons ha).move
  cases phase with
  | scan =>
    simp only [State.demuxStep, State.demuxScan]
    split
    · exact h.demuxFinish ha
    · split
      · exact (hmoved _ _).invoke _
      · exact hmoved _ _
      · exact hmoved _ _
  | called i =>
    simp only [State.demuxStep, State.demuxAfter]
    rw [State.clearServiced_frame]
    exact hmoved _ _

theorem deliver (h : DemuxInv s) (v : Nat) : DemuxInv (s.deliver v) := by
  have hpushed : DemuxInv ((s.consumeRequest v).pushFrame v) := by
    rw [State.consumeRequest_frame]; exact h
  unfold State.deliver
  cases s.rawSlot v with
  | null => exact hpushed.interruptReturn rfl
  | handler k => exact hpushed.invoke k
  | demux g =>
    rcases State.demuxStart_cases ((s.consumeRequest v).pushFrame v) .nothing g with ⟨-, hd⟩ | ⟨hidle, hd⟩ <;>
      rw [State.startWork, hd]
    · exact hpushed
    · exact hpushed.demuxPush _ hidle

end DemuxInv

/-- Settles O53: a pass is opened, moved and closed together with its `DACT` mark, and no table of a group is written while
the mark is active. -/
theorem stepKeepsDemuxDiscipline : Obligations.StepKeepsDemuxDiscipline := by
  intro s t hs h
  obtain ⟨-, -, is, d, hcase⟩ := step_cases h
  have hs : DemuxInv { s with inputs := is, turn := d } := hs
  cases hcase with
  | source e h => rw [h, State.sourceStep_frame]; exact hs
  | deliver v _ h => exact h ▸ hs.deliver v
  | engine g snap pos phase as ha h => exact h ▸ hs.demuxStep ha
  | command i s' hi h => exact (hs.issuedFrom hi).exec h
  | illegal w s' hi h => rw [h]; exact (hs.issuedFrom hi :)

end Sys2Proof.Machine
end

section
/-! What the words of QPUT and QGET decode to (30_encoding.md R113, R114), and what they say to the history (00_scope.md R19). -/

namespace Sys2Proof

/-- A word that is of the row its opcode names decodes to the command which that row builds (R113). -/
theorem decode_of_row {w : CmdWord} {r : OpRow} (hr : rowOf (opOf w) = some r) (hw : w &&& r.fmt.mask = r.pat) :
    decode w = .ok (r.build (unitOf w).toNat (idxOf w).toNat (valOf w)) := by
  simp [decode, hr, hw]

/-- A decoded command was built by the one row of the word's opcode. -/
theorem row_of_decode {w : CmdWord} {i : Instr} (h : decode w = .ok i) :
    ∃ r ∈ opcodeTable, r.op = opOf w ∧ i = r.build (unitOf w).toNat (idxOf w).toNat (valOf w) := by
  unfold decode at h
  split at h
  · cases h
  · next r hr =>
    split at h
    · cases h
    · exact ⟨r, List.mem_of_find?_eq_some hr, by simpa using List.find?_some hr, by simpa using h.symm⟩

/-- What a row of the opcode map builds is encoded under the row's opcode (R114). -/
theorem opOf_encode_build {r : OpRow} (hr : r ∈ opcodeTable) (u i : Nat) (v : Word) :
    opOf (encode (r.build u i v)) = r.op := by
  revert r
  simp [opcodeTable, opcodeTableLow, opcodeTableHigh, encode]

/-- The opcode of a word is that of the command it decodes to. -/
theorem opOf_encode_of_decode {w : CmdWord} {i : Instr} (h : decode w = .ok i) : opOf (encode i) = opOf w := by
  obtain ⟨r, hr, hop, rfl⟩ := row_of_decode h
  rw [opOf_encode_build hr, hop]

/-- A byte is the low byte of its zero-extension (R117, R145). -/
theorem lowByte_zeroExtend (b : Byte) : (b.zeroExtend 32).extractLsb' 0 8 = b := by
  apply BitVec.eq_of_getLsbD_eq
  intro j hj
  simp [hj]
  omega

theorem decode_encode_qput {q : Nat} (hq : q < 1024) (b : Byte) : decode (encode (.qput q b)) = .ok (.qput q b) := by
  obtain ⟨r, hr, hw, -⟩ := Laws.RowMatch.qput q b
  rw [decode_of_row hr hw]
  simp only [encode, opOf_packWord] at hr
  cases hr
  simp only [encode, unitOf_packWord, valOf_packWord, lowByte_zeroExtend, BitVec.toNat_ofNat, Nat.mod_eq_of_lt hq]

theorem decode_encode_qget {q : Nat} (hq : q < 1024) : decode (encode (.qget q)) = .ok (.qget q) := by
  obtain ⟨r, hr, hw, -⟩ := Laws.RowMatch.qget q
  rw [decode_of_row hr hw]
  simp only [encode, opOf_packWord] at hr
  cases hr
  simp only [encode, unitOf_packWord, BitVec.toNat_ofNat, Nat.mod_eq_of_lt hq]

/-- Only a QPUT's word decodes to a QPUT, whether or not the operands fit their fields. -/
theorem eq_qput_of_decode_encode {i : Instr} {q : Nat} {b : Byte} (h : decode (encode i) = .ok (.qput q b)) :
    ∃ q b, i = .qput q b := by
  have hop := opOf_encode_of_decode h
  cases i with
  | qput q b => exact ⟨q, b, rfl⟩
  | _ => simp [encode] at hop

/-- Only a QGET's word decodes to a QGET, whether or not the operand fits its field. -/
theorem eq_qget_of_decode_encode {i : Instr} {q : Nat} (h : decode (encode i) = .ok (.qget q)) : ∃ q, i = .qget q := by
  have hop := opOf_encode_of_decode h
  cases i with
  | qget q => exact ⟨q, rfl⟩
  | _ => simp [encode] at hop

end Sys2Proof

namespace Sys2Proof.Machine

variable {ctx : Ctx} {q q' : Nat} {v : Word}

/-- A completed QPUT puts its byte on its own queue. -/
theorem putOf_qput (hq : q < 1024) (b : Byte) :
    putOf q' (.cmd ctx (encode (.qput q b)) v) = if q = q' then some b else none := by
  simp [putOf, decode_encode_qput hq]

/-- A completed QGET gets the byte of its response from its own queue. -/
theorem gotOf_qget (hq : q < 1024) (b : Byte) :
    gotOf q' (.cmd ctx (encode (.qget q)) (b.zeroExtend 32)) = if q = q' then some b else none := by
  simp only [gotOf, decode_encode_qget hq, lowByte_zeroExtend]

/-- A response of any other command puts no byte. -/
theorem putOf_eq_none {i : Instr} (hi : ∀ q b, i ≠ .qput q b) : putOf q (.cmd ctx (encode i) v) = none := by
  simp only [putOf]
  split
  · next h =>
    obtain ⟨q, b, rfl⟩ := eq_qput_of_decode_encode h
    exact absurd rfl (hi q b)
  · rfl

/-- A response of any other command gets no byte. -/
theorem gotOf_eq_none {i : Instr} (hi : ∀ q, i ≠ .qget q) : gotOf q (.cmd ctx (encode i) v) = none := by
  simp only [gotOf]
  split
  · next h =>
    obtain ⟨q, rfl⟩ := eq_qget_of_decode_encode h
    exact absurd rfl (hi q)
  · rfl

end Sys2Proof.Machine
end

section
/-! What a step does to the queues: the two commands that write one, and the bytes that it holds from its puts to its gets
(20_memory.md R84, R90 to R92). -/

namespace Sys2Proof.Machine

variable {s s' t u : State}

/-! Every step but a QPUT and a QGET that complete leaves every queue alone (R92). -/

/-- `t` has the configuration, the queues' storage and cursors, and the history of puts and gets, of `u`. -/
structure SameQueues (u t : State) : Prop where
  cfg : t.cfg = u.cfg
  buf : t.buf = u.buf
  rd : t.rd = u.rd
  wr : t.wr = u.wr
  puts : ∀ q, t.hist.filterMap (putOf q) = u.hist.filterMap (putOf q)
  gets : ∀ q, t.hist.filterMap (gotOf q) = u.hist.filterMap (gotOf q)

namespace SameQueues

theorem refl (s : State) : SameQueues s s := ⟨rfl, rfl, rfl, rfl, fun _ => rfl, fun _ => rfl⟩

theorem trans (h : SameQueues s u) (h' : SameQueues u t) : SameQueues s t where
  cfg := h'.cfg.trans h.cfg
  buf := h'.buf.trans h.buf
  rd := h'.rd.trans h.rd
  wr := h'.wr.trans h.wr
  puts q := (h'.puts q).trans (h.puts q)
  gets q := (h'.gets q).trans (h.gets q)

theorem queue (h : SameQueues u t) (q : Nat) :
    t.rdOf q = u.rdOf q ∧ t.wrOf q = u.wrOf q ∧ ∀ k, t.bufByte? q k = u.bufByte? q k := by
  simp only [State.rdOf, State.wrOf, State.bufByte?, h.rd, h.wr, h.buf, implies_true, and_self]

/-- An event that is no completed QPUT or QGET. -/
theorem of_record (s : State) {e : Event} (hp : ∀ q, putOf q e = none) (hg : ∀ q, gotOf q e = none) :
    SameQueues s (s.record e) :=
  ⟨rfl, rfl, rfl, rfl, fun q => by simp [hp q], fun q => by simp [hg q]⟩

theorem of_respond (s : State) {i : Instr} (hp : ∀ q b, i ≠ .qput q b) (hg : ∀ q, i ≠ .qget q) (v : Word) :
    SameQueues s (s.respond i v) :=
  of_record s (fun _ => putOf_eq_none hp) (fun _ => gotOf_eq_none hg)

theorem of_raise (s : State) (f : FaultRec) : SameQueues s (s.raise f) :=
  { of_record s (e := .fault f) (fun _ => rfl) (fun _ => rfl) with }

theorem of_refuse (s : State) (r : RefuseReason) : SameQueues s (s.refuse r) :=
  { of_record s (e := .refuse r) (fun _ => rfl) (fun _ => rfl) with }

theorem of_setActs (s : State) (as : List Act) : SameQueues s (s.setActs as) := { refl s with }

theorem of_invoke (s : State) (h : Nat) : SameQueues s (s.invoke h) :=
  (of_setActs s _).trans (of_record _ (fun _ => rfl) (fun _ => rfl))

theorem of_interruptReturn (s : State) : SameQueues s s.interruptReturn := by
  cases h : s.cs with
  | nil => rw [State.interruptReturn, h]; exact refl s
  | cons f fs =>
    rw [State.interruptReturn_cons s h]
    exact { of_record s (e := .intReturn f.vec) (fun _ => rfl) (fun _ => rfl) with }

/-- A resumption responds to a RUNTASK or a GDEMUX, if at all. -/
theorem of_resume (s : State) : SameQueues s s.resume := by
  rcases s.resume_cases with ⟨-, h⟩ | ⟨_, _, _, _, _, -, h⟩ | ⟨_, _, _, _, -, h⟩ | ⟨_, _, _, -, h⟩ | ⟨_, _, _, _, _, -, h⟩ <;>
    rw [h]
  · exact of_interruptReturn s
  · exact (of_setActs s _).trans (of_respond _ (by simp) (by simp) _)
  · exact (of_setActs s _).trans (of_respond _ (by simp) (by simp) _)
  · exact refl s
  · exact refl s

theorem of_demuxPush (s : State) (w : Wait) (g : Nat) : SameQueues s (s.demuxPush w g) := { refl s with }

theorem of_startWork (s : State) (x : Slot) : SameQueues s (s.startWork x) := by
  cases x with
  | null => exact of_interruptReturn s
  | handler h => exact of_invoke s h
  | demux g =>
    rcases s.demuxStart_cases .nothing g with ⟨-, h⟩ | ⟨-, h⟩ <;> rw [State.startWork, h]
    · exact of_raise s _
    · exact of_demuxPush s _ g

theorem of_deliver (s : State) (v : Nat) : SameQueues s (s.deliver v) := by
  have hpushed : SameQueues s ((s.consumeRequest v).pushFrame v) := by
    rw [State.consumeRequest_frame]
    exact { of_record s (e := .deliver v (s.prioOf v)) (fun _ => rfl) (fun _ => rfl) with }
  exact hpushed.trans (of_startWork _ _)

theorem of_sourceStep (s : State) (e : SrcEvent) : SameQueues s (s.sourceStep e) := by
  rw [State.sourceStep_frame]
  exact { of_record s (e := .src e) (fun _ => rfl) (fun _ => rfl) with }

theorem of_demuxStep (s : State) (g : Nat) (snap : Word) (pos : Nat) (phase : Phase) (as : List Act) :
    SameQueues s (s.demuxStep g snap pos phase as) := by
  cases phase with
  | scan =>
    simp only [State.demuxStep, State.demuxScan]
    split
    · exact trans (u := (s.setActs as).setDact g .idle) { refl s with } (of_resume _)
    · split
      · exact (of_setActs s _).trans (of_invoke _ _)
      · exact of_setActs s _
      · exact of_setActs s _
  | called i =>
    simp only [State.demuxStep, State.demuxAfter]
    rw [State.clearServiced_frame]
    exact { refl s with }

theorem of_issuedFrom (h : IssuedFrom s s') : SameQueues s s' := by
  obtain ⟨m, c, a, rfl, -⟩ := h.exists_frame
  exact { refl s with }

/-- A command that is no QPUT and no QGET. -/
theorem of_exec {i : Instr} (h : exec i s = .next t) (hp : ∀ q b, i ≠ .qput q b) (hg : ∀ q, i ≠ .qget q) :
    SameQueues s t := by
  have responded := of_respond s hp hg 1#32
  cases exec_cases h with
  | raised _ f => exact of_raise s f
  | responded _ v => exact of_respond s hp hg v
  | held q => exact absurd rfl (hg q)
  | put q b => exact absurd rfl (hp q b)
  | got q => exact absurd rfl (hg q)
  | slotSet _ _ _ T => cases T <;> exact { responded with }
  | invoked _ _ _ k => exact (of_setActs s _).trans (of_invoke _ k)
  | demuxRun _ _ _ g => exact of_demuxPush s _ g
  | demuxed g => exact of_demuxPush s _ g
  | returned k _ _ as =>
    exact ((of_setActs s as).trans (of_record _ (fun _ => rfl) (fun _ => rfl))).trans (of_resume _)
  | vectorLevel => split <;> exact { responded with }
  | periphLevel => split <;> exact { responded with }
  | refused => exact of_refuse s _
  | installed => exact { responded with }
  | cleared => exact { responded with }

end SameQueues

/-- What a step does to the queues. A QPUT or a QGET that completes leaves its event in the history, issued in some context. -/
inductive QueueWrite (s t : State) : Prop where
  | nothing (h : SameQueues s t)
  | put (q : Nat) (c : QueueRow) (b : Byte) (ctx : Ctx) (hq : queueOf s.cfg q = some c) (hl : s.len c ≠ c.cap)
      (h : SameQueues ((s.queuePut c b).record (.cmd ctx (encode (.qput q b)) 0#32)) t)
  | got (q : Nat) (c : QueueRow) (ctx : Ctx) (hq : queueOf s.cfg q = some c) (hl : s.len c ≠ 0)
      (h : SameQueues ((s.queueAdvance c).record (.cmd ctx (encode (.qget q)) ((s.queueFront c).zeroExtend 32))) t)

theorem exec_queueWrite {i : Instr} (h : exec i s = .next t) : QueueWrite s t := by
  cases exec_cases h with
  | raised _ f => exact .nothing (.of_raise s f)
  | responded i v hp hg => exact .nothing (.of_respond s hp hg v)
  | held q => exact .nothing { SameQueues.refl s with }
  | put q b c hq _ hl => exact .put q c b s.ctx hq hl (.refl _)
  | got q c hq _ hl => exact .got q c s.ctx hq hl { SameQueues.refl _ with }
  | _ => exact .nothing (.of_exec h (by simp) (by simp))

/-- What a command writes, told of the state from which its word was taken. -/
theorem IssuedFrom.queueWrite (hs : IssuedFrom s s') (h : QueueWrite s' t) : QueueWrite s t := by
  obtain ⟨m, c, a, rfl, -⟩ := hs.exists_frame
  cases h with
  | nothing h => exact .nothing { h with }
  | put q c b ctx hq hl h => exact .put q c b ctx hq hl { h with }
  | got q c ctx hq hl h => exact .got q c ctx hq hl { h with }

theorem StepCase.queueWrite (h : StepCase s t) : QueueWrite s t := by
  cases h with
  | source e h => exact .nothing (h ▸ .of_sourceStep s e)
  | deliver v _ h => exact .nothing (h ▸ .of_deliver s v)
  | engine g snap pos phase as _ h => exact .nothing (h ▸ .of_demuxStep s g snap pos phase as)
  | command i s' hs h => exact hs.queueWrite (exec_queueWrite h)
  | illegal w s' hs h => exact .nothing (h ▸ (SameQueues.of_issuedFrom hs).trans (.of_raise s' _))

/-- The inversion of a step for the queues. -/
theorem step_queueWrite (h : step s = .next t) : cfgOk s.cfg = true ∧ QueueWrite s t := by
  obtain ⟨hcfg, -, is, d, hcase⟩ := step_cases h
  refine ⟨hcfg, ?_⟩
  cases hcase.queueWrite with
  | nothing h => exact .nothing { h with }
  | put q c b ctx hq hl h => exact .put q c b ctx hq hl { h with }
  | got q c ctx hq hl h => exact .got q c ctx hq hl { h with }

/-- Settles O22. -/
theorem queuesAreIndependent : Obligations.QueuesAreIndependent := by
  intro i s t q h hput hget
  cases exec_cases h with
  | raised _ f => exact (SameQueues.of_raise s f).queue q
  | responded i v hp hg => exact (SameQueues.of_respond s hp hg v).queue q
  | held q' => exact ⟨rfl, rfl, fun _ => rfl⟩
  | put q' b c hq =>
    have hne : c.id ≠ q := by rw [queueOf_id hq]; rintro rfl; exact hput b rfl
    exact ⟨rfl, (s.wrOf_queuePut c b q).trans (if_neg hne),
      fun k => (s.bufByte?_queuePut c b q k).trans (if_neg fun h => hne h.1)⟩
  | got q' c hq =>
    have hne : c.id ≠ q := by rw [queueOf_id hq]; rintro rfl; exact hget rfl
    exact ⟨(s.rdOf_queueAdvance c q).trans (if_neg hne), rfl, fun _ => rfl⟩
  | _ => exact (SameQueues.of_exec h (by simp) (by simp)).queue q

/-- Settles O21. -/
theorem putAndGetMoveLength : Obligations.PutAndGetMoveLength := by
  intro s c b hcap _ _
  refine ⟨s.len_queuePut c b, fun hl => ?_⟩
  rw [s.len_queueAdvance c hcap (by omega)]
  omega

/-! The storage between the cursors. -/

/-- What holds of every queue before a write to the queue `c` holds after it, if the write leaves the other queues alone. -/
theorem forall_queues_of_write {cfg : Cfg} {q : Nat} {c : QueueRow} {P P' : QueueRow → Prop} (hq : queueOf cfg q = some c)
    (h : ∀ q c, queueOf cfg q = some c → P c) (hc : P' c) (hother : ∀ c', c.id ≠ c'.id → P c' → P' c') :
    ∀ q c, queueOf cfg q = some c → P' c := by
  intro q' c' hq'
  by_cases hid : c.id = c'.id
  · obtain rfl : c = c' := by
      rw [← queueOf_id hq', ← hid, queueOf_id hq, hq] at hq'
      exact Option.some.inj hq'
    exact hc
  · exact hother c' hid (h q' c' hq')

/-- The storage index of the byte `k` places behind the read cursor. -/
def State.index (s : State) (c : QueueRow) (k : Nat) : Nat := (s.rdOf c.id + k) % c.cap

variable {c c' : QueueRow}

/-- The byte behind the last one held goes where the write cursor stands (R43). -/
theorem State.index_len (h : s.QueueBounds c) : s.index c (s.len c) = s.wrOf c.id % c.cap := by
  obtain ⟨hrd, hwr, -⟩ := h
  rw [State.index, s.len_eq c hrd hwr]
  split
  · rw [Nat.add_sub_cancel' (by assumption)]
  · rw [Nat.add_sub_cancel' (by omega), Nat.add_mul_mod_self_right]

/-- Two indices of the bytes of one queue never meet, so a QPUT below capacity overwrites none (R84). -/
theorem State.index_inj {k j : Nat} (hk : k < c.cap) (hj : j < c.cap) (h : s.index c k = s.index c j) : k = j :=
  Nat.ModEq.eq_of_lt_of_lt (Nat.ModEq.add_left_cancel' _ h) hk hj

/-- A QGET moves every byte one place nearer to the read cursor. -/
theorem State.index_queueAdvance (s : State) (c : QueueRow) (k : Nat) :
    (s.queueAdvance c).index c k = s.index c (k + 1) := by
  rw [State.index, State.index, State.rdOf_queueAdvance, if_pos rfl, Nat.add_mod, Nat.mod_mul_left_mod, ← Nat.add_mod,
    add_assoc, add_comm 1]

/-- What a queue's storage has where its bytes stand, oldest first: the index, and the byte if one was written. -/
def State.cells (s : State) (c : QueueRow) : List (Nat × Option Byte) :=
  (List.range (s.len c)).map fun k => (s.index c k, s.bufByte? c.id (s.index c k))

theorem State.contents_eq (s : State) (c : QueueRow) :
    s.contents c = (s.cells c).map fun p => p.2.getD (Config.unwrittenByte c.id p.1) := by
  simp only [State.cells, List.map_map]
  rfl

theorem writtenInv_iff : WrittenInv s ↔
    QueueInv s ∧ ∀ q c, queueOf s.cfg q = some c → ∀ p ∈ s.cells c, p.2.isSome = true := by
  refine and_congr_right fun _ => forall₂_congr fun q c => forall_congr' fun hq => ?_
  simp [State.cells, State.index, queueOf_id hq]

theorem SameQueues.cells (h : SameQueues u t) (c : QueueRow) : t.cells c = u.cells c := by
  simp only [State.cells, State.index, State.len, State.rdOf, State.wrOf, State.bufByte?, h.rd, h.wr, h.buf]

@[simp] theorem State.cells_record (s : State) (e : Event) (c : QueueRow) : (s.record e).cells c = s.cells c := rfl

/-- A QPUT below capacity writes one cell behind the last one, and no other that is held (R141). -/
theorem State.cells_queuePut (hb : s.QueueBounds c) (hl : s.len c ≠ c.cap) (b : Byte) :
    (s.queuePut c b).cells c = s.cells c ++ [(s.wrOf c.id % c.cap, some b)] := by
  have hlt : s.len c < c.cap := Nat.lt_of_le_of_ne hb.2.2 hl
  have hindex (k : Nat) : (s.queuePut c b).index c k = s.index c k := rfl
  simp only [State.cells, s.len_queuePut c b hlt, List.range_succ, List.map_append, hindex, State.bufByte?_queuePut,
    ← State.index_len hb]
  congr 1
  · refine List.map_congr_left fun k hk => ?_
    have hk : k < s.len c := List.mem_range.1 hk
    rw [if_neg]
    rintro ⟨-, h⟩
    have := State.index_inj hlt (by omega) h
    omega
  · simp

/-- A QGET takes the oldest cell away (R145). -/
theorem State.cells_queueAdvance (hcap : 1 ≤ c.cap) (hl : s.len c ≠ 0) :
    s.cells c = (s.rdOf c.id % c.cap, s.bufByte? c.id (s.rdOf c.id % c.cap)) :: (s.queueAdvance c).cells c := by
  have hlen : s.len c = (s.queueAdvance c).len c + 1 := by rw [s.len_queueAdvance c hcap hl]; omega
  have hbyte (i : Nat) : (s.queueAdvance c).bufByte? c.id i = s.bufByte? c.id i := rfl
  simp only [State.cells, hlen, List.range_succ_eq_map, List.map_cons, List.map_map, State.index_queueAdvance, hbyte]
  rfl

theorem State.cells_queuePut_of_ne (b : Byte) (hne : c.id ≠ c'.id) : (s.queuePut c b).cells c' = s.cells c' := by
  simp [State.cells, State.index, State.len, hne, show (s.queuePut c b).rdOf c'.id = s.rdOf c'.id from rfl]

theorem State.cells_queueAdvance_of_ne (hne : c.id ≠ c'.id) : (s.queueAdvance c).cells c' = s.cells c' := by
  simp [State.cells, State.index, State.len, hne, show (s.queueAdvance c).wrOf c'.id = s.wrOf c'.id from rfl,
    show ∀ i, (s.queueAdvance c).bufByte? c'.id i = s.bufByte? c'.id i from fun _ => rfl]

/-- Settles O47: a QPUT writes the cell it adds, and a QGET only takes one away. -/
theorem stepKeepsWrittenBytes : Obligations.StepKeepsWrittenBytes := by
  intro s t hs h
  rw [writtenInv_iff] at hs ⊢
  obtain ⟨hbounds, hwritten⟩ := hs
  obtain ⟨hcfg, hw⟩ := step_queueWrite h
  refine ⟨stepKeepsQueueBounds s t hbounds h, ?_⟩
  cases hw with
  | nothing h =>
    simp only [h.cfg, h.cells]
    exact hwritten
  | put q c b ctx hq hl h =>
    simp only [h.cfg, h.cells, State.cells_record]
    refine forall_queues_of_write (cfg := s.cfg) hq hwritten ?_ fun c' hne h' => ?_
    · rw [State.cells_queuePut (queueInv_iff.1 hbounds q c hq) hl b]
      exact List.forall_mem_append.2 ⟨hwritten q c hq, by simp⟩
    · rwa [State.cells_queuePut_of_ne b hne]
  | got q c ctx hq hl h =>
    simp only [h.cfg, h.cells, State.cells_record]
    refine forall_queues_of_write (cfg := s.cfg) hq hwritten ?_ fun c' hne h' => ?_
    · have hcells := hwritten q c hq
      rw [State.cells_queueAdvance (queueOf_cap hcfg hq).1 hl] at hcells
      exact (List.forall_mem_cons.1 hcells).2
    · rwa [State.cells_queueAdvance_of_ne hne]

/-! Bytes put and bytes got (R90). -/

/-- A listed queue has an id that fits the UNIT field where the configuration is well formed (R8, R111). -/
theorem queueOf_lt {cfg : Cfg} {q : Nat} (hcfg : cfgOk cfg = true) (hq : queueOf cfg q = some c) : q < 1024 := by
  obtain ⟨-, -, -, hqueues⟩ := tablesOk_of_cfgOk hcfg
  simp only [queuesOk, Bool.and_eq_true, List.all_eq_true, decide_eq_true_eq] at hqueues
  rw [← queueOf_id hq]
  exact (hqueues.2 c (List.mem_of_find?_eq_some hq)).1

/-- `FifoInv` for one queue. -/
def State.Fifo (s : State) (c : QueueRow) : Prop :=
  s.hist.filterMap (putOf c.id) = s.hist.filterMap (gotOf c.id) ++ s.contents c

theorem fifoInv_iff : FifoInv s ↔ QueueInv s ∧ ∀ q c, queueOf s.cfg q = some c → s.Fifo c :=
  and_congr_right fun _ => forall₂_congr fun q c => forall_congr' fun hq => by rw [State.Fifo, queueOf_id hq]

theorem SameQueues.fifo (h : SameQueues u t) (c : QueueRow) : t.Fifo c ↔ u.Fifo c := by
  simp only [State.Fifo, State.contents_eq, h.cells, h.puts, h.gets]

/-- A QPUT adds its byte behind the bytes held. -/
theorem State.Fifo.queuePut (h : s.Fifo c) (hid : c.id < 1024) (hb : s.QueueBounds c) (hl : s.len c ≠ c.cap) (b : Byte)
    (ctx : Ctx) : State.Fifo ((s.queuePut c b).record (.cmd ctx (encode (.qput c.id b)) 0#32)) c := by
  simp only [State.Fifo, State.contents_eq] at h ⊢
  simp [State.cells_queuePut hb hl, h, putOf_qput hid, gotOf_eq_none]

/-- A QGET moves the oldest byte from the bytes held to the bytes got. -/
theorem State.Fifo.queueAdvance (h : s.Fifo c) (hid : c.id < 1024) (hcap : 1 ≤ c.cap) (hl : s.len c ≠ 0) (ctx : Ctx) :
    State.Fifo ((s.queueAdvance c).record (.cmd ctx (encode (.qget c.id)) ((s.queueFront c).zeroExtend 32))) c := by
  simp only [State.Fifo, State.contents_eq, State.cells_queueAdvance hcap hl] at h ⊢
  simpa [putOf_eq_none, gotOf_qget hid, State.queueFront, State.bufRead] using h

theorem State.Fifo.queuePut_of_ne (h : s.Fifo c') (hid : c.id < 1024) (hne : c.id ≠ c'.id) (b : Byte) (ctx : Ctx) :
    State.Fifo ((s.queuePut c b).record (.cmd ctx (encode (.qput c.id b)) 0#32)) c' := by
  simp only [State.Fifo, State.contents_eq] at h ⊢
  simpa [State.cells_queuePut_of_ne b hne, putOf_qput hid, gotOf_eq_none, hne] using h

theorem State.Fifo.queueAdvance_of_ne (h : s.Fifo c') (hid : c.id < 1024) (hne : c.id ≠ c'.id) (ctx : Ctx) (b : Byte) :
    State.Fifo ((s.queueAdvance c).record (.cmd ctx (encode (.qget c.id)) (b.zeroExtend 32))) c' := by
  simp only [State.Fifo, State.contents_eq] at h ⊢
  simpa [State.cells_queueAdvance_of_ne hne, putOf_eq_none, gotOf_qget hid, hne] using h

/-- Settles O48. -/
theorem stepKeepsFifo : Obligations.StepKeepsFifo := by
  intro s t hs h
  rw [fifoInv_iff] at hs ⊢
  obtain ⟨hbounds, hfifo⟩ := hs
  obtain ⟨hcfg, hw⟩ := step_queueWrite h
  refine ⟨stepKeepsQueueBounds s t hbounds h, ?_⟩
  cases hw with
  | nothing h =>
    simp only [h.cfg, h.fifo]
    exact hfifo
  | put q c b ctx hq hl h =>
    simp only [h.cfg, h.fifo]
    obtain rfl := queueOf_id hq
    have hid := queueOf_lt hcfg hq
    exact forall_queues_of_write (cfg := s.cfg) hq hfifo
      ((hfifo _ c hq).queuePut hid (queueInv_iff.1 hbounds _ c hq) hl b ctx)
      fun c' hne h' => h'.queuePut_of_ne hid hne b ctx
  | got q c ctx hq hl h =>
    simp only [h.cfg, h.fifo]
    obtain rfl := queueOf_id hq
    have hid := queueOf_lt hcfg hq
    exact forall_queues_of_write (cfg := s.cfg) hq hfifo
      ((hfifo _ c hq).queueAdvance hid (queueOf_cap hcfg hq).1 hl ctx)
      fun c' hne h' => h'.queueAdvance_of_ne hid hne ctx _

end Sys2Proof.Machine
end

section
/-! Which command a step runs: a scheduled word, or the next word of the running program (20_memory.md R89). -/

namespace Sys2Proof.Machine

variable {s s' : State} {w : CmdWord} {i : Instr}

/-- A block that may run takes the step its schedule names. -/
theorem step_of_clean (hcfg : cfgOk s.cfg = true) (hclean : s.clean = true) : step s = scheduledStep s.inputs s := by
  obtain ⟨hf, hr⟩ := State.clean_iff.1 hclean
  simp [step, advance, hcfg, hf, hr]

theorem issueWord_of_decode (h : decode w = .ok i) (s : State) : issueWord w s = exec i s := by
  simp [issueWord, h]

/-- Settles O6. -/
theorem stepIssuesScheduledWord : Obligations.StepIssuesScheduledWord := by
  intro s w rest i hcfg hclean hin hready hdec
  have hentry : State.entryStep { s with inputs := rest } (.issue w) = some (exec i { s with inputs := rest }) := by
    rw [← issueWord_of_decode hdec]
    exact if_pos hready
  rw [step_of_clean hcfg hclean, hin, scheduledStep, hentry]

/-- A host program that is ready issues its next word. -/
theorem State.runningStep_of_hostReady (hready : s.hostReady = true) (hnext : s.nextWord = some (w, s')) :
    s.runningStep = some (issueWord w s') := by
  have hheld : s.heldOn = none := by
    unfold State.hostReady at hready
    split at hready
    · cases hready
    · assumption
  unfold State.runningStep
  simp only [hheld, hready, hnext, if_true]
  split
  · next ha => simp [State.hostReady, hheld, ha] at hready
  · rfl

/-- With nothing scheduled and nothing eligible, the running activation takes the step, if it has one. -/
theorem step_of_runningStep {r : Result} (hcfg : cfgOk s.cfg = true) (hclean : s.clean = true) (hin : s.inputs = [])
    (hsel : s.selected = none) (hrun : State.runningStep { s with turn := .delivery } = some r) : step s = r := by
  have hs : ({ s with inputs := [] } : State) = s := by rw [← hin]
  obtain ⟨_, hrun'⟩ : ∃ r, s.runningStep = some r := by
    rw [← Option.isSome_iff_exists, ← runningStep_schedule s s.inputs .delivery]
    exact Option.isSome_of_eq_some hrun
  have hown : s.ownMove = some (.run, .delivery) := by simp [State.ownMove, hsel, hrun']
  rw [step_of_clean hcfg hclean, hin, scheduledStep, hs, State.autonomousStep, hown]
  simp [State.entryStep, hrun]

/-- Settles O7. -/
theorem stepIssuesProgramWord : Obligations.StepIssuesProgramWord := by
  intro s w ws i hcfg hclean hin hsel hdec
  have issues {s' : State} (hready : State.hostReady { s with turn := .delivery } = true)
      (hnext : State.nextWord { s with turn := .delivery } = some (w, s')) : step s = exec i s' :=
    (step_of_runningStep hcfg hclean hin hsel (State.runningStep_of_hostReady hready hnext)).trans
      (issueWord_of_decode hdec s')
  refine ⟨fun hcs hmact hhold hmain => issues ?_ ?_, fun v l h as fs hcs => issues ?_ ?_⟩
  · simp [State.hostReady, State.heldOn, State.acts, hcs, hmact, hhold]
  · simp [State.nextWord, State.acts, hcs, hmact, hmain]
  · simp [State.hostReady, State.heldOn, State.acts, hcs]
  · simp [State.nextWord, State.acts, State.setActs, withTopActs, hcs]

end Sys2Proof.Machine
end

section
/-! The encoding (30_encoding.md R110 to R121): which words decode, and that decoding and encoding are inverse. -/

namespace Sys2Proof

variable {r : OpRow} {i : Instr}

/-! Decoding an encoded command (R111, R115, R116). -/

theorem toNat_ofNat_of_unitFits {u : Nat} (h : unitFits u = true) : (BitVec.ofNat 10 u).toNat = u := by
  rw [BitVec.toNat_ofNat]
  exact Nat.mod_eq_of_lt (of_decide_eq_true h)

theorem toNat_ofNat_of_idxFits {u : Nat} (h : idxFits u = true) : (BitVec.ofNat 8 u).toNat = u := by
  rw [BitVec.toNat_ofNat]
  exact Nat.mod_eq_of_lt (of_decide_eq_true h)

/-- The word of a command is one of the row its opcode names (R112 to R114). -/
theorem encode_matches_row : ∀ i : Instr, Laws.RowMatch.Statement i
  | .qput q b => Laws.RowMatch.qput q b
  | .qget q => Laws.RowMatch.qget q
  | .qlen q => Laws.RowMatch.qlen q
  | .qcap q => Laws.RowMatch.qcap q
  | .settask t i val => Laws.RowMatch.settask t i val
  | .runtask t i => Laws.RowMatch.runtask t i
  | .getmask t w => Laws.RowMatch.getmask t w
  | .tsize t => Laws.RowMatch.tsize t
  | .tret => Laws.RowMatch.tret
  | .setlvlv v p => Laws.RowMatch.setlvlv v p
  | .setlvlp pid p => Laws.RowMatch.setlvlp pid p
  | .rdlvl v => Laws.RowMatch.rdlvl v
  | .setdmac ch v => Laws.RowMatch.setdmac ch v
  | .instgt g i val => Laws.RowMatch.instgt g i val
  | .gdemux g => Laws.RowMatch.gdemux g
  | .rdgrp g => Laws.RowMatch.rdgrp g
  | .clrgrp g i => Laws.RowMatch.clrgrp g i
  | .rdgen g => Laws.RowMatch.rdgen g

/-- The row of a well-formed command's opcode rebuilds the command from the fields of its word (R115 to R118). -/
theorem build_encode (hi : i.wf = true) (hr : rowOf (opOf (encode i)) = some r) :
    r.build (unitOf (encode i)).toNat (idxOf (encode i)).toNat (valOf (encode i)) = i := by
  cases i
  all_goals
    simp only [encode, opOf_packWord] at hr
    cases hr
    simp only [Instr.wf, Bool.and_eq_true] at hi
    simp only [encode, unitOf_packWord, idxOf_packWord, valOf_packWord, lowByte_zeroExtend, toNat_ofNat_of_unitFits,
      toNat_ofNat_of_idxFits, hi]

/-- Settles O1. -/
theorem decodeOfEncode : Obligations.DecodeOfEncode := by
  intro i hi
  obtain ⟨r, hr, hmatch, -⟩ := encode_matches_row i
  rw [decode_of_row hr hmatch, build_encode hi hr]

/-- Settles O4. -/
theorem exampleWordsDecode : Obligations.ExampleWordsDecode := by
  unfold Obligations.ExampleWordsDecode
  decide

/-! What a mask and its match word say of a word's fields (R112). -/

/-- A value whose high part is zero is its low byte, zero-extended (R117). -/
theorem zeroExtend_lowByte {v : Word} (h : v.extractLsb' 8 24 = 0#24) : (v.extractLsb' 0 8).zeroExtend 32 = v := by
  apply BitVec.eq_of_getLsbD_eq
  intro j hj
  by_cases hlow : j < 8
  · simp [hj, hlow]
  · have hbit : (v.extractLsb' 8 24).getLsbD (j - 8) = false := by rw [h, BitVec.getLsbD_zero]
    rw [BitVec.getLsbD_extractLsb', show 8 + (j - 8) = j by omega] at hbit
    simpa [hlow, show j - 8 < 24 by omega] using hbit

/-- The mask of format QB asks of VAL that its high part be zero. -/
theorem and_high_eq_zero_iff (v : Word) : v &&& 0xFFFFFF00#32 = 0#32 ↔ v.extractLsb' 8 24 = 0#24 := by
  constructor
  · intro h
    have hhigh := congrArg (BitVec.extractLsb' 8 24) h
    rwa [BitVec.extractLsb'_and, show BitVec.extractLsb' 8 24 0xFFFFFF00#32 = BitVec.allOnes 24 by decide,
      BitVec.and_allOnes] at hhigh
  · intro h
    rw [← zeroExtend_lowByte h, Laws.RowMatch.byte_high]

end Sys2Proof

namespace Sys2Proof.Machine

variable {w : CmdWord} {r : OpRow} {i : Instr} {s : State}

/-- A word has the fixed bits of a format and an opcode exactly when it has that opcode and zero in `RSV` and in every
field that must be zero (R112). -/
theorem and_mask_eq_iff (f : Format) (op : BitVec 6) (w : CmdWord) :
    w &&& f.mask = packWord op 0#10 0#8 0#8 0#32 ↔ opOf w = op ∧ rsvOf w = 0#8 ∧ unusedNonzero f w = false := by
  have hop (x : BitVec 6) : x &&& 0x3F#6 = x := BitVec.and_allOnes
  have hunit (x : BitVec 10) : x &&& 0x3FF#10 = x := BitVec.and_allOnes
  have hbyte (x : BitVec 8) : x &&& 0xFF#8 = x := BitVec.and_allOnes
  have hval (x : Word) : x &&& 0xFFFFFFFF#32 = x := BitVec.and_allOnes
  have hfields : w &&& f.mask = packWord (opOf w) (unitOf w) (idxOf w) (rsvOf w) (valOf w) &&& f.mask := by
    rw [packWord_fields]
  rw [hfields]
  cases f with
  | N =>
    simp only [Laws.RowMatch.mask_N, packWord_and, packWord_inj, hop, hunit, hbyte, hval]
    simp [unusedNonzero, and_assoc, and_left_comm]
  | U =>
    simp only [Laws.RowMatch.mask_U, packWord_and, packWord_inj, hop, hbyte, hval, BitVec.and_zero]
    simp [unusedNonzero, and_left_comm]
  | UI =>
    simp only [Laws.RowMatch.mask_UI, packWord_and, packWord_inj, hop, hbyte, hval, BitVec.and_zero]
    simp [unusedNonzero]
  | UIV =>
    simp only [Laws.RowMatch.mask_UIV, packWord_and, packWord_inj, hop, hbyte, BitVec.and_zero]
    simp [unusedNonzero]
  | QB =>
    simp only [Laws.RowMatch.mask_QB, packWord_and, packWord_inj, hop, hbyte, BitVec.and_zero, and_high_eq_zero_iff]
    simp [unusedNonzero, and_left_comm]

/-- The rows of the opcode map name the format and the match word that R112 and R114 give their opcodes. -/
theorem row_fmt_pat (hr : r ∈ opcodeTable) : r.fmt = formatOf r.op ∧ r.pat = packWord r.op 0#10 0#8 0#8 0#32 := by
  revert r
  decide

/-- R121 lists exactly the opcodes that have no row in the map. -/
theorem rowOf_isNone (op : BitVec 6) : (rowOf op).isNone = unlistedOp op := by
  revert op
  decide

theorem mem_op_of_rowOf {op : BitVec 6} (h : rowOf op = some r) : r ∈ opcodeTable ∧ r.op = op :=
  ⟨List.mem_of_find?_eq_some h, by simpa using List.find?_some h⟩

/-- A word has the fixed bits of its opcode's row exactly when its reserved and its must-be-zero fields are zero (R112). -/
theorem and_mask_eq_pat_iff (hr : rowOf (opOf w) = some r) :
    w &&& r.fmt.mask = r.pat ↔ rsvOf w = 0#8 ∧ unusedNonzero r.fmt w = false := by
  obtain ⟨hmem, hop⟩ := mem_op_of_rowOf hr
  rw [(row_fmt_pat hmem).2, and_mask_eq_iff, hop]
  exact and_iff_right rfl

/-- Decoding fails by the opcode or by the fixed bits of its row, and else builds the row's command (R113). -/
theorem decode_eq_ok_iff : decode w = .ok i ↔ ∃ r, rowOf (opOf w) = some r ∧ w &&& r.fmt.mask = r.pat ∧
    r.build (unitOf w).toNat (idxOf w).toNat (valOf w) = i := by
  constructor
  · intro h
    unfold decode at h
    split at h
    · cases h
    · next r hr =>
      split at h
      · cases h
      · next hmatch => exact ⟨r, hr, not_not.1 hmatch, Except.ok.inj h⟩
  · rintro ⟨r, hr, hmatch, rfl⟩
    exact decode_of_row hr hmatch

/-- A word is legal exactly when it decodes (R113, R121). -/
theorem illegalWord_eq_false_iff : illegalWord w = false ↔ ∃ i, decode w = .ok i := by
  simp only [decode_eq_ok_iff, illegalWord, ← rowOf_isNone]
  cases hr : rowOf (opOf w) with
  | none => simp
  | some r =>
    obtain ⟨hmem, hop⟩ := mem_op_of_rowOf hr
    simp [and_mask_eq_pat_iff hr, ← hop, ← (row_fmt_pat hmem).1]

/-- What a row builds from a word's fields is encoded as that word, where the fields the row's format does not use are zero
(R112, R115 to R118): the encoder puts the same fields back, and QPUT's byte is then all of VAL. -/
theorem encode_build (hr : r ∈ opcodeTable) (u : BitVec 10) (i : BitVec 8) (v : Word) :
    unusedNonzero r.fmt (packWord r.op u i 0#8 v) = false →
      encode (r.build u.toNat i.toNat v) = packWord r.op u i 0#8 v := by
  revert r
  simp +contextual [opcodeTable, opcodeTableLow, opcodeTableHigh, encode, unusedNonzero, zeroExtend_lowByte]

theorem wf_build (hr : r ∈ opcodeTable) (u : BitVec 10) (i : BitVec 8) (v : Word) :
    (r.build u.toNat i.toNat v).wf = true := by
  have hunit : unitFits u.toNat = true := decide_eq_true u.isLt
  have hidx : idxFits i.toNat = true := decide_eq_true i.isLt
  revert r
  simp [opcodeTable, opcodeTableLow, opcodeTableHigh, Instr.wf, hunit, hidx]

/-- Settles O2. -/
theorem encodeOfDecode : Obligations.EncodeOfDecode := by
  intro w i h
  obtain ⟨r, hr, hmatch, rfl⟩ := decode_eq_ok_iff.1 h
  obtain ⟨hrsv, hunused⟩ := (and_mask_eq_pat_iff hr).1 hmatch
  obtain ⟨hmem, hop⟩ := mem_op_of_rowOf hr
  have hw : packWord r.op (unitOf w) (idxOf w) 0#8 (valOf w) = w := by rw [hop, ← hrsv, packWord_fields]
  refine ⟨?_, wf_build hmem ..⟩
  rw [encode_build hmem, hw]
  rw [hw, hunused]

/-! Issuing a word that does not decode (R113, R121, R271). -/

theorem State.raised_raise (s : State) (f : FaultRec) : s.Raised (s.raise f) f :=
  ⟨fun _ => List.mem_insert_iff, rfl⟩

theorem issueWord_of_error {e : Reject} (h : decode w = .error e) (s : State) :
    issueWord w s = .next (s.raise (.illegalCommand w)) := by
  simp [issueWord, h]

theorem illegalWord_iff : illegalWord w = true ↔ ∃ e, decode w = .error e := by
  rw [← Bool.not_eq_false, illegalWord_eq_false_iff]
  cases decode w <;> simp

/-- Settles O3. -/
theorem illegalWordsRaise : Obligations.IllegalWordsRaise := by
  intro w s
  refine ⟨illegalWord_iff, fun h => ?_⟩
  obtain ⟨e, he⟩ := illegalWord_iff.1 h
  exact ⟨_, issueWord_of_error he s, s.raised_raise _⟩

/-- The step on a scheduled word of a ready host program issues that word (R89). -/
theorem step_of_issue {rest : List Input} (hcfg : cfgOk s.cfg = true) (hclean : s.clean = true)
    (hin : s.inputs = .issue w :: rest) (hready : s.hostReady = true) : step s = issueWord w { s with inputs := rest } := by
  have hentry : State.entryStep { s with inputs := rest } (.issue w) = some (issueWord w { s with inputs := rest }) :=
    if_pos hready
  rw [step_of_clean hcfg hclean, hin, scheduledStep, hentry]

/-- Settles O8. -/
theorem stepRaisesOnIllegalWord : Obligations.StepRaisesOnIllegalWord := by
  intro s w rest e hcfg hclean hin hready hdec
  exact ⟨_, (step_of_issue hcfg hclean hin hready).trans (issueWord_of_error hdec _), State.raised_raise _ _⟩

/-! Handles (R118). -/

/-- The slot value a handle encodes, in terms of the number in VAL. -/
theorem decodeHandle_eq (c : Cfg) (val : Word) : decodeHandle c val =
    if val.toNat = 0 then some .null
    else if val.toNat < 2 ^ 31 then some (.handler val.toNat)
    else if val.toNat < 2 ^ 31 + 256 ∧ isGroup c (val.toNat - 2 ^ 31) = true then some (.demux (val.toNat - 2 ^ 31))
    else none := by
  have hlt : val.toNat < 2 ^ 32 := val.isLt
  have hzero : val = 0#32 ↔ val.toNat = 0 := by rw [← BitVec.toNat_inj]; rfl
  have htop : val.getLsbD 31 = false ↔ val.toNat < 2 ^ 31 := by
    rw [← BitVec.msb_eq_getLsbD_last val, BitVec.msb_eq_decide, decide_eq_false_iff_not, Nat.not_le]
  have hmid : val.extractLsb' 8 23 = 0#23 ↔ val.toNat / 256 % 2 ^ 23 = 0 := by
    rw [← BitVec.toNat_inj, BitVec.extractLsb'_toNat, Nat.shiftRight_eq_div_pow]; rfl
  have hhandler : (val.extractLsb' 0 31).toNat = val.toNat % 2 ^ 31 := by
    rw [BitVec.extractLsb'_toNat, Nat.shiftRight_zero]
  have hgroup : (val.extractLsb' 0 8).toNat = val.toNat % 256 := by
    rw [BitVec.extractLsb'_toNat, Nat.shiftRight_zero]
  simp only [decodeHandle, hzero, htop, hmid, hhandler, hgroup]
  split
  · rfl
  · split
    · next h => rw [Nat.mod_eq_of_lt h]
    · by_cases hg : val.toNat < 2 ^ 31 + 256
      · have hdiv : val.toNat / 256 % 2 ^ 23 = 0 := by omega
        have hmod : val.toNat % 256 = val.toNat - 2 ^ 31 := by omega
        simp only [hdiv, hmod, hg]
      · have hdiv : val.toNat / 256 % 2 ^ 23 ≠ 0 := by omega
        simp only [hdiv, hg, false_and, if_false]

/-- Settles O5. -/
theorem handleDecoding : Obligations.HandleDecoding := by
  intro c val
  rw [decodeHandle_eq]
  refine ⟨fun h => if_pos h, fun hne hlt => ?_, fun g hg h => ?_, fun h => ?_⟩
  · rw [if_neg hne, if_pos hlt]
  · have hsub : val.toNat - 2 ^ 31 = g := by omega
    rw [if_neg (by omega), if_neg (by omega), hsub]
    simp only [show val.toNat < 2 ^ 31 + 256 by omega, true_and]
  · rw [if_neg (by omega), if_neg (by omega), if_neg (by omega)]

end Sys2Proof.Machine
end

section
/-! The ring queue commands (40_ring_queue.md): what each answers (R140 to R152), the mainline's hold (R146), and the fill
level by the history (R155). -/

namespace Sys2Proof.Machine

variable {s : State} {i : Instr} {q : Nat} {c : QueueRow}

theorem exec_raised {f : FaultRec} (h : exec i s = .next (s.raise f)) : ∃ t, exec i s = .next t ∧ s.Raised t f :=
  ⟨_, h, s.raised_raise f⟩

/-- A command that names an unlisted queue raises `BadQueue`, whichever of the four it is (R140). -/
theorem exec_of_badQueue (hi : (∃ b, i = .qput q b) ∨ i = .qget q ∨ i = .qlen q ∨ i = .qcap q)
    (hq : queueOf s.cfg q = none) : ∃ t, exec i s = .next t ∧ s.Raised t (.badQueue q) := by
  refine exec_raised ?_
  obtain ⟨b, rfl⟩ | rfl | rfl | rfl := hi
  · simp [exec, execQput, hq]
  · simp [exec, execQget, hq]
  · simp [exec, execQlen, hq]
  · simp [exec, execQcap, hq]

section
variable (hq : queueOf s.cfg q = some c)
include hq

/-! QPUT on a listed queue (R141). -/

theorem exec_qput_of_notProducer (hctx : s.ctx ≠ c.prod) (b : Byte) :
    exec (.qput q b) s = .next (s.raise (.ownershipViolation q s.ctx)) := by
  simp [exec, execQput, hq, hctx]

theorem exec_qput_of_full (hctx : s.ctx = c.prod) (hlen : s.len c = c.cap) (b : Byte) :
    exec (.qput q b) s = .next (s.raise (.queueOverflow q)) := by
  simp [exec, execQput, hq, hctx, hlen]

theorem exec_qput_of_room (hctx : s.ctx = c.prod) (hlen : s.len c ≠ c.cap) (b : Byte) :
    exec (.qput q b) s = .next ((s.queuePut c b).respond (.qput q b) 0#32) := by
  simp [exec, execQput, hq, hctx, hlen]

/-! QGET on a listed queue (R145 to R147). -/

theorem exec_qget_of_notConsumer (hctx : s.ctx ≠ c.cons) :
    exec (.qget q) s = .next (s.raise (.ownershipViolation q s.ctx)) := by
  simp [exec, execQget, hq, hctx]

theorem exec_qget_of_empty_main (hctx : s.ctx = c.cons) (hlen : s.len c = 0) (hmain : s.ctx = .main) :
    exec (.qget q) s = .next (s.holdOn q) := by
  simp [exec, execQget, hq, ← hctx, hlen, hmain]

theorem exec_qget_of_empty_irq (hctx : s.ctx = c.cons) (hlen : s.len c = 0) (hirq : s.ctx ≠ .main) :
    exec (.qget q) s = .next (s.raise (.blockInInterrupt q s.ctx)) := by
  simp [exec, execQget, hq, ← hctx, hlen, hirq]

theorem exec_qget_of_nonempty (hctx : s.ctx = c.cons) (hlen : s.len c ≠ 0) :
    exec (.qget q) s =
      .next ((s.queueAdvance c).release.respond (.qget q) ((s.queueFront c).zeroExtend 32)) := by
  simp [exec, execQget, hq, hctx, hlen]

/-! QLEN and QCAP on a listed queue (R150, R152). -/

theorem exec_qlen : exec (.qlen q) s = .next (s.respond (.qlen q) (BitVec.ofNat 32 (s.len c))) := by
  simp [exec, execQlen, hq]

theorem exec_qcap : exec (.qcap q) s = .next (s.respond (.qcap q) (BitVec.ofNat 32 c.cap)) := by
  simp [exec, execQcap, hq]

end

/-- Settles O17. -/
theorem qputRule : Obligations.QputRule := by
  refine fun q b s => ⟨exec_of_badQueue (.inl ⟨b, rfl⟩), fun c hq => ⟨fun hctx => ?_,
    fun hctx hlen => ?_, fun hctx hlen => ?_⟩⟩
  · exact exec_raised (exec_qput_of_notProducer hq hctx b)
  · exact exec_raised (exec_qput_of_full hq hctx hlen b)
  · obtain rfl := queueOf_id hq
    refine ⟨_, exec_qput_of_room hq hctx hlen b, rfl, ?_, ?_, fun q' i hne => ?_, fun q' hne => ?_⟩
    · exact (s.bufByte?_queuePut c b _ _).trans (if_pos ⟨rfl, rfl⟩)
    · exact (s.wrOf_queuePut c b _).trans (if_pos rfl)
    · exact (s.bufByte?_queuePut c b q' i).trans (if_neg fun h => hne ⟨h.1.symm, h.2.symm⟩)
    · exact (s.wrOf_queuePut c b q').trans (if_neg hne.symm)

/-- Settles O18: the byte answered is the one the read cursor stands on. -/
theorem qgetRule : Obligations.QgetRule := by
  refine fun q s => ⟨exec_of_badQueue (.inr (.inl rfl)), fun c hq => ⟨fun hctx => ?_, fun hctx hlen hmain => ?_,
    fun hctx hlen hirq => ?_, fun hctx hlen => ?_⟩⟩
  · exact exec_raised (exec_qget_of_notConsumer hq hctx)
  · exact exec_qget_of_empty_main hq hctx hlen hmain
  · exact exec_raised (exec_qget_of_empty_irq hq hctx hlen hirq)
  · obtain rfl := queueOf_id hq
    refine ⟨_, s.queueFront c, exec_qget_of_nonempty hq hctx hlen, rfl, fun b' hb => ?_, ?_, fun q' hne => ?_⟩
    · simp [State.queueFront, State.bufRead, hb]
    · exact (s.rdOf_queueAdvance c _).trans (if_pos rfl)
    · exact (s.rdOf_queueAdvance c q').trans (if_neg hne.symm)

/-- Settles O19. -/
theorem qlenRule : Obligations.QlenRule := by
  refine fun q s => ⟨exec_of_badQueue (.inr (.inr (.inl rfl))), fun c hq => ⟨_, exec_qlen hq, ?_⟩⟩
  obtain rfl := queueOf_id hq
  rfl

/-- Settles O20. -/
theorem qcapRule : Obligations.QcapRule :=
  fun _ _ => ⟨exec_of_badQueue (.inr (.inr (.inr rfl))), fun _ hq => ⟨_, exec_qcap hq, rfl⟩⟩

/-! The mainline's hold (R146). -/

theorem State.heldOn_of_hold (hcs : s.cs = []) (hhold : s.hold = some q) : s.heldOn = some q := by
  simp [State.heldOn, hcs, hhold]

/-- A held QGET is the one step of the running activation, and it waits for a byte. -/
theorem State.runningStep_of_heldOn (hheld : s.heldOn = some q) (hq : queueOf s.cfg q = some c) :
    s.runningStep = if 0 < s.len c then some (exec (.qget q) s) else none := by
  simp [State.runningStep, hheld, State.holdLifted, hq]

/-- The step that a given schedule names does not depend on the one the state holds. -/
theorem scheduledStep_inputs (is is' : List Input) (s : State) :
    scheduledStep is { s with inputs := is' } = scheduledStep is s := by
  induction is with
  | nil => rfl
  | cons e rest ih => simp only [scheduledStep, ih]

/-- An entry that names no admitted step is passed over (log 2). -/
theorem step_of_entryStep_eq_none {e : Input} {rest : List Input} (hcfg : cfgOk s.cfg = true) (hclean : s.clean = true)
    (hin : s.inputs = e :: rest) (hentry : State.entryStep { s with inputs := rest } e = none) :
    step s = step { s with inputs := rest } := by
  rw [step_of_clean hcfg hclean, step_of_clean (s := { s with inputs := rest }) hcfg hclean, hin, scheduledStep, hentry]
  exact (scheduledStep_inputs rest rest s).symm

/-- Settles O16. -/
theorem mainlineHold : Obligations.MainlineHold := by
  intro s q c rest hcfg hclean hcs hhold hq hin
  have hheld := State.heldOn_of_hold hcs hhold
  have hentry : State.entryStep { s with inputs := rest } .run =
      if 0 < s.len c then some (exec (.qget q) { s with inputs := rest }) else none :=
    State.runningStep_of_heldOn hheld hq
  refine ⟨?_, fun hempty => ?_, fun hbyte => ?_⟩
  · simp [State.hostReady, hheld]
  · exact step_of_entryStep_eq_none hcfg hclean hin (hentry.trans (if_neg (by omega)))
  · rw [step_of_clean hcfg hclean, hin, scheduledStep, hentry, if_pos hbyte]

/-! The history (R155). -/

@[simp] theorem State.length_contents (s : State) (c : QueueRow) : (s.contents c).length = s.len c := by
  simp [State.contents]

/-- Settles O49: the bytes put are the bytes got and then the bytes held, one for each place between the cursors. -/
theorem lengthIsPutsLessGets : Obligations.LengthIsPutsLessGets := by
  rintro s q c ⟨-, hfifo⟩ hq
  rw [hfifo q c hq, List.length_append, State.length_contents]

end Sys2Proof.Machine
end

section
/-! Every step keeps each frame's activations a chain of calls while the block runs (41_dispatch_table.md R184, R186;
43_group_demux.md R248; 60_exceptions.md R289). -/

namespace Sys2Proof.Machine

variable {s s' t : State} {a b : Act} {as : List Act}

/-! Chains of calls. -/

/-- What called a body does not depend on the body's words or on what it waits on. -/
theorem calledFrom_body_congr {n n' : Nat} {rest rest' : List CmdWord} {w w' : Wait} :
    calledFrom (.body n rest w) as ↔ calledFrom (.body n' rest' w') as := by
  cases as with
  | nil => rfl
  | cons b bs => cases b <;> rfl

/-- What called a demux does not depend on how far its pass is. -/
theorem calledFrom_demux_congr {g : Nat} {snap : Word} {pos pos' : Nat} {phase phase' : Phase} :
    calledFrom (.demux g snap pos phase) as ↔ calledFrom (.demux g snap pos' phase') as := by
  cases as with
  | nil => rfl
  | cons b bs => cases b <;> rfl

/-- The caller was itself called by what stands below it. -/
theorem calledFrom_tail (h : calledFrom a (b :: as)) : calledFrom b as := by
  cases a with
  | body => cases b <;> exact h.2
  | demux =>
    cases b with
    | body => exact h.2
    | demux => exact h.elim

theorem calledFrom_of_stackShape (h : stackShape (a :: as)) : calledFrom a as := by
  cases a with
  | body => exact h.2
  | demux => exact h

/-- A body that waits on nothing has called nothing. -/
theorem not_calledFrom_running {n : Nat} {rest : List CmdWord} : ¬ calledFrom a (.body n rest .nothing :: as) := by
  cases a with
  | body => exact fun ⟨⟨_, _, hw⟩, _⟩ => nomatch hw
  | demux => exact fun h => h.1 rfl

/-- A body on top of its callers, waiting on nothing, is a chain of calls, whatever it waited on before. -/
theorem stackShape_body {n n' : Nat} {rest rest' : List CmdWord} {w : Wait} (h : calledFrom (.body n rest w) as) :
    stackShape (.body n' rest' .nothing :: as) :=
  ⟨rfl, calledFrom_body_congr.1 h⟩

/-- Every frame's activations are a chain of calls. -/
def CallChains (s : State) : Prop := ∀ f ∈ s.cs, stackShape f.acts

/-- The activations of every frame below the newest are a chain of calls. -/
def LowerChains (s : State) : Prop := ∀ f ∈ s.cs.tail, stackShape f.acts

theorem CallChains.lower (h : CallChains s) : LowerChains s := fun f hf => h f (List.mem_of_mem_tail hf)

theorem CallChains.acts (h : CallChains s) (hcs : s.cs ≠ []) : stackShape s.acts := by
  unfold CallChains State.acts at *
  cases hs : s.cs with
  | nil => exact absurd hs hcs
  | cons f fs => exact h f (hs ▸ List.mem_cons_self)

/-- The activation that runs in a frame was called by what stands below it. -/
theorem CallChains.called (h : CallChains s) (hcs : s.cs ≠ []) (ha : s.acts = a :: as) : calledFrom a as :=
  calledFrom_of_stackShape (ha ▸ h.acts hcs)

@[simp] theorem lowerChains_setActs : LowerChains (s.setActs as) ↔ LowerChains s := by
  unfold LowerChains State.setActs
  cases s.cs <;> rfl

namespace LowerChains

/-- The newest frame completes the chains below it. -/
theorem callChains (h : LowerChains s) (ha : stackShape s.acts) : CallChains s := by
  unfold LowerChains CallChains State.acts at *
  cases hcs : s.cs with
  | nil => exact nofun
  | cons f fs =>
    rw [hcs] at h ha
    exact List.forall_mem_cons.2 ⟨ha, h⟩

theorem setActs (h : LowerChains s) (ha : stackShape as) : CallChains (s.setActs as) :=
  (lowerChains_setActs.2 h).callChains ((s.acts_setActs as).symm ▸ ha)

theorem interruptReturn (h : LowerChains s) : CallChains s.interruptReturn := by
  unfold LowerChains CallChains State.interruptReturn at *
  cases hcs : s.cs with
  | nil => simp [hcs]
  | cons f fs => rwa [hcs] at h

/-- Once an activation has ended, what called it goes on (R184, R248), or the frame returns (R289). -/
theorem resume (h : LowerChains s) (hc : calledFrom a s.acts) : CallChains s.resume := by
  rcases s.resume_cases with
    ⟨-, hr⟩ | ⟨_, _, _, _, _, ha, hr⟩ | ⟨_, _, _, _, ha, hr⟩ | ⟨_, _, _, ha, -⟩ | ⟨_, _, _, _, _, ha, hr⟩
  · exact hr ▸ h.interruptReturn
  · rw [hr]
    exact h.setActs (stackShape_body (calledFrom_tail (ha ▸ hc)))
  · rw [hr]
    exact h.setActs (stackShape_body (calledFrom_tail (ha ▸ hc)))
  · exact absurd (ha ▸ hc) not_calledFrom_running
  · rw [hr]
    exact h.callChains (ha ▸ calledFrom_tail (ha ▸ hc))

theorem invoke (h : LowerChains s) {n : Nat} (hc : calledFrom (.body n (bodyOf s.cfg n) .nothing) s.acts) :
    CallChains (s.invoke n) :=
  h.setActs (as := .body n (bodyOf s.cfg n) .nothing :: s.acts) ⟨rfl, hc⟩

theorem demuxPush (h : LowerChains s) {w : Wait} {g : Nat}
    (hc : calledFrom (.demux g (s.snapshot g) 0 .scan) (withTopWait w s.acts)) : CallChains (s.demuxPush w g) := by
  rw [← s.acts_setWait w] at hc
  exact setActs (s := s.setWait w) (lowerChains_setActs.2 h) hc

end LowerChains

/-! The steps. -/

/-- A block that raises has stopped, and the claim is of one that runs (R271). -/
theorem State.not_clean_raise (f : FaultRec) : ¬ (s.raise f).clean = true := fun h => by
  have hf : f ∈ (s.raise f).faults := (s.mem_raise_faults f f).2 (.inl rfl)
  rw [(State.clean_iff.1 h).1] at hf
  cases hf

theorem State.not_clean_refuse (r : RefuseReason) : ¬ (s.refuse r).clean = true := by
  simp [State.clean, State.refuse]

/-- What may issue a command in an interrupt context is a body that waits on nothing (R186). -/
def BodyIssues (s : State) : Prop := s.ctx ≠ .main → ∃ n rest as, s.acts = .body n rest .nothing :: as

theorem bodyIssues_of_hostReady (h : s.hostReady = true) : BodyIssues s := fun hc => by
  unfold State.hostReady at h
  split at h
  · cases h
  · split at h
    · exact absurd (List.isEmpty_iff.1 h) (State.cs_ne_nil_of_ctx hc)
    · next n rest w as ha => exact ⟨n, rest, as, of_decide_eq_true h ▸ ha⟩
    · cases h

theorem State.ctx_of_heldOn {q : Nat} (h : s.heldOn = some q) : s.ctx = .main := by
  unfold State.heldOn at h
  unfold State.ctx
  cases hcs : s.cs with
  | nil => rfl
  | cons f fs => simp [hcs] at h

theorem IssuedFrom.bodyIssues (h : IssuedFrom s s') : BodyIssues s' := by
  cases h with
  | scheduled hr => exact bodyIssues_of_hostReady hr
  | held q hq => exact fun hc => absurd (State.ctx_of_heldOn hq) hc
  | mainline w ws hr => exact (bodyIssues_of_hostReady hr :)
  | body n w ws wait as hr ha =>
    intro hc
    rw [State.ctx_setActs] at hc
    obtain ⟨_, _, _, hb⟩ := bodyIssues_of_hostReady hr hc
    rw [ha] at hb
    cases hb
    exact ⟨n, ws, as, s.acts_setActs _⟩

namespace CallChains

theorem issuedFrom (h : CallChains s) (hm : MainlineInv s) (hs : IssuedFrom s s') : CallChains s' := by
  cases hs with
  | body n w ws wait as hr ha =>
    obtain ⟨rfl, hc⟩ : wait = .nothing ∧ _ := ha ▸ h.acts (hm.cs_ne_nil ha)
    exact h.lower.setActs (stackShape_body hc)
  | _ => exact h

/-- The caller of what a running body starts waits on the command that starts it. -/
theorem withTopWait_acts (h : CallChains s) (hb : BodyIssues s) (hc : s.ctx ≠ .main) (w : Wait) :
    ∃ n rest as, withTopWait w s.acts = .body n rest w :: as ∧ calledFrom (.body n rest w) as := by
  obtain ⟨n, rest, as, ha⟩ := hb hc
  exact ⟨n, rest, as, ha ▸ rfl, calledFrom_body_congr.1 (h.called (State.cs_ne_nil_of_ctx hc) ha)⟩

/-- RUNTASK and GDEMUX put what they start above the body that issues them, which waits; TRET ends the running body. -/
theorem exec (h : CallChains s) (hm : MainlineInv s) (hb : BodyIssues s) {i : Instr}
    (he : Machine.exec i s = .next t) (ht : t.clean = true) : CallChains t := by
  cases exec_cases he with
  | raised _ f => exact absurd ht (State.not_clean_raise f)
  | refused => exact absurd ht (State.not_clean_refuse _)
  | invoked n i _ k hc =>
    obtain ⟨_, _, _, ha, hcalled⟩ := h.withTopWait_acts hb hc (.runtask n i)
    refine LowerChains.invoke (lowerChains_setActs.2 h.lower) ?_
    rw [State.acts_setActs, ha]
    exact ⟨⟨n, i, rfl⟩, hcalled⟩
  | demuxRun n i _ g hc =>
    obtain ⟨_, _, _, ha, hcalled⟩ := h.withTopWait_acts hb hc (.runtask n i)
    exact h.lower.demuxPush (ha ▸ ⟨nofun, hcalled⟩)
  | demuxed g hc =>
    obtain ⟨_, _, _, ha, hcalled⟩ := h.withTopWait_acts hb hc (.gdemux g)
    exact h.lower.demuxPush (ha ▸ ⟨nofun, hcalled⟩)
  | returned n r w as ha =>
    refine LowerChains.resume (s := (s.setActs as).record _) (a := .body n r w) (lowerChains_setActs.2 h.lower) ?_
    exact (s.acts_setActs as).symm ▸ h.called (hm.cs_ne_nil ha) ha
  | slotSet _ _ _ T => cases T <;> exact h
  | vectorLevel => split <;> exact h
  | periphLevel => split <;> exact h
  | _ => exact h

/-- A pass calls a body from phase `Called`, and ends by handing on to what called it (R244, R247, R248). -/
theorem demuxStep (h : CallChains s) (hcs : s.cs ≠ []) {g : Nat} {snap : Word} {pos : Nat} {phase : Phase}
    (ha : s.acts = .demux g snap pos phase :: as) : CallChains (s.demuxStep g snap pos phase as) := by
  have hc := h.called hcs ha
  have hmoved (pos' : Nat) (phase' : Phase) : CallChains (s.setActs (.demux g snap pos' phase' :: as)) :=
    h.lower.setActs (calledFrom_demux_congr.1 hc)
  cases phase with
  | scan =>
    simp only [State.demuxStep, State.demuxScan]
    split
    · refine LowerChains.resume (s := (s.setActs as).setDact g .idle) (a := .demux g snap pos .scan)
        (lowerChains_setActs.2 h.lower) ?_
      exact (s.acts_setActs as).symm ▸ hc
    · next i _ =>
      split
      · refine (hmoved pos (.called i)).lower.invoke ?_
        rw [State.acts_setActs]
        exact ⟨⟨i, rfl⟩, calledFrom_demux_congr.1 hc⟩
      · exact hmoved _ _
      · exact hmoved _ _
  | called i =>
    simp only [State.demuxStep, State.demuxAfter]
    rw [State.clearServiced_frame]
    exact hmoved _ _

/-- A frame's work stands alone in it (R288). -/
theorem deliver (h : CallChains s) (v : Nat) (ht : (s.deliver v).clean = true) : CallChains (s.deliver v) := by
  have hpushed : LowerChains ((s.consumeRequest v).pushFrame v) := by
    rw [State.consumeRequest_frame]; exact h
  unfold State.deliver at *
  cases hslot : s.rawSlot v with
  | null => exact hpushed.interruptReturn
  | handler k => exact hpushed.invoke trivial
  | demux g =>
    rw [hslot, State.startWork] at ht
    rcases State.demuxStart_cases ((s.consumeRequest v).pushFrame v) .nothing g with ⟨-, hd⟩ | ⟨-, hd⟩
    · exact absurd (hd ▸ ht) (State.not_clean_raise _)
    · rw [State.startWork, hd]
      exact hpushed.demuxPush trivial

end CallChains

/-- Settles O54: what a step starts stands above what called it, and what it ends hands on to what called that. -/
theorem stepKeepsCallChains : Obligations.StepKeepsCallChains := by
  intro s t hs h ht
  obtain ⟨-, hclean, is, d, hcase⟩ := step_cases h
  obtain ⟨hmain, hchains⟩ := hs hclean
  refine ⟨stepKeepsMainlineEmpty s t hmain h, ?_⟩
  have hmain : MainlineInv { s with inputs := is, turn := d } := hmain
  have hchains : CallChains { s with inputs := is, turn := d } := hchains
  cases hcase with
  | source e h => rw [h, State.sourceStep_frame]; exact hchains
  | deliver v _ h => subst h; exact hchains.deliver v ht
  | engine g snap pos phase as ha h => exact h ▸ hchains.demuxStep (hmain.cs_ne_nil ha) ha
  | command i s' hi h => exact (hchains.issuedFrom hmain hi).exec (hmain.issuedFrom hi) hi.bodyIssues h ht
  | illegal w s' _ h => exact absurd (h ▸ ht) (State.not_clean_raise _)

end Sys2Proof.Machine
end

section
/-! What the dispatch table commands rest on: the tables that selectors name and their slots (30_encoding.md R119;
41_dispatch_table.md R170, R173), and the running context where its frame is given (10_state.md R44). -/

namespace Sys2Proof.Machine

variable {s : State} {t i : Nat} {T : Table}

/-! Tables and slots. -/

theorem tableOf_raw (c : Cfg) : tableOf c rawSel = some .raw := if_pos rfl

theorem tableOf_of_group {c : Cfg} {r : GroupRow} (ht : t < rawSel) (hr : groupOf c t = some r) :
    tableOf c t = some (.group t) := by
  rw [tableOf, if_neg (Nat.ne_of_lt ht), if_pos ⟨ht, by simp [isGroup, hr]⟩]

theorem tableOf_eq_none {c : Cfg} (hraw : t ≠ rawSel) (hnone : t < rawSel → groupOf c t = none) : tableOf c t = none := by
  rw [tableOf, if_neg hraw, if_neg]
  rintro ⟨ht, hg⟩
  simp [isGroup, hnone ht] at hg

@[simp] theorem State.slot_setSlot (s : State) (T T' : Table) (i j : Nat) (x : Slot) :
    (s.setSlot T i x).slot T' j = if T' = T ∧ j = i then x else s.slot T' j := by
  cases T with
  | raw =>
    cases T' with
    | raw => simp [State.setSlot, State.slot, eq_comm]
    | group g => simp [State.setSlot, State.slot, State.gtSlot]
  | group g =>
    cases T' with
    | raw => simp [State.setSlot, State.slot, State.rawSlot]
    | group g' => simp [State.setSlot, State.slot, eq_comm]

theorem State.setSlot_frame (s : State) (T : Table) (i : Nat) (x : Slot) :
    s.setSlot T i x = { s with raw := (s.setSlot T i x).raw, gt := (s.setSlot T i x).gt } := by
  cases T <;> rfl

theorem State.writeBlocked_iff : s.writeBlocked T i = true ↔ s.DispatchInProgress T i := by
  cases T with
  | raw => simp [State.writeBlocked, State.DispatchInProgress, State.frameOn]
  | group g => simp [State.writeBlocked, State.DispatchInProgress]

/-! The running context, where its frame is given. -/

section
variable {v : Nat} {l : BitVec 8} {as : List Act} {fs : List Frame} (hcs : s.cs = ⟨v, l, as⟩ :: fs)
include hcs

theorem State.ctx_of_cs : s.ctx = .irq v := by simp [State.ctx, hcs]

theorem State.acts_of_cs : s.acts = as := by simp [State.acts, hcs]

theorem State.setActs_of_cs (bs : List Act) : s.setActs bs = { s with cs := ⟨v, l, bs⟩ :: fs } := by
  simp [State.setActs, hcs, withTopActs]

/-- An invocation in a frame (R14). -/
theorem State.invoke_of_cs (h : Nat) : s.invoke h = { s with
    cs := ⟨v, l, .body h (bodyOf s.cfg h) .nothing :: as⟩ :: fs, hist := s.hist ++ [.invoke (.irq v) h] } := by
  rw [State.invoke, State.setActs_of_cs hcs, State.acts_of_cs hcs, State.ctx_of_cs hcs]
  rfl

/-- A demux start in a frame (R242). -/
theorem State.demuxPush_of_cs (w : Wait) (g : Nat) : s.demuxPush w g =
    State.setDact { s with cs := ⟨v, l, .demux g (s.snapshot g) 0 .scan :: withTopWait w as⟩ :: fs } g .active := by
  rw [State.demuxPush, State.acts_setWait, State.setWait, State.setActs_setActs, State.setActs_of_cs hcs,
    State.acts_of_cs hcs]

end

/-- A body that issues a command waits on it (R174). -/
theorem State.setWait_of_cs {v : Nat} {l : BitVec 8} {h : Nat} {r : List CmdWord} {w₀ : Wait} {as : List Act}
    {fs : List Frame} (hcs : s.cs = ⟨v, l, .body h r w₀ :: as⟩ :: fs) (w : Wait) :
    s.setWait w = { s with cs := ⟨v, l, .body h r w :: as⟩ :: fs } := by
  rw [State.setWait, State.acts_of_cs hcs, State.setActs_of_cs hcs, withTopWait]

/-! What is left once an activation has ended goes on as its top does (R184, R248, R289). -/

theorem State.resume_of_nil (h : s.acts = []) : s.resume = s.interruptReturn := by simp [State.resume, h]

theorem State.resume_of_runtask {n : Nat} {rest : List CmdWord} {as : List Act}
    (h : s.acts = .body n rest (.runtask t i) :: as) :
    s.resume = (s.setActs (.body n rest .nothing :: as)).respond (.runtask t i) 0#32 := by
  simp [State.resume, h]

theorem State.resume_of_demux {g : Nat} {snap : Word} {pos : Nat} {phase : Phase} {as : List Act}
    (h : s.acts = .demux g snap pos phase :: as) : s.resume = s := by
  simp [State.resume, h]

end Sys2Proof.Machine
end

section
/-! The dispatch table commands (41_dispatch_table.md): what each answers (R172 to R185). -/

namespace Sys2Proof.Machine

variable {s : State} {t i : Nat} {T : Table}

/-! SETTASK (R172, R173). -/

theorem exec_settask_of_fails {val : Word} (h : settaskFails s.cfg t i val) :
    exec (.settask t i val) s = .next (s.respond (.settask t i val) 0#32) := by
  simp only [exec, execSettask]
  split
  · rfl
  · next T hT =>
    split
    · rfl
    · next hi =>
      split
      · rfl
      · next x hx =>
        split
        · rfl
        · next hl => exact absurd (h T x hT hx (Bool.eq_true_of_not_eq_false hl)) hi

section
variable {val : Word} {x : Slot} (hT : tableOf s.cfg t = some T) (hi : i < tableSize s.cfg T)
  (hx : decodeHandle s.cfg val = some x) (hl : slotLegal T x = true)
include hT hi hx hl

theorem exec_settask_of_dispatch (hd : s.DispatchInProgress T i) :
    exec (.settask t i val) s = .next (s.raise (.tableWriteDuringDispatch t i)) := by
  simp [exec, execSettask, hT, Nat.not_le.2 hi, hx, hl, State.writeBlocked_iff.2 hd]

theorem exec_settask_of_legal (hd : ¬ s.DispatchInProgress T i) :
    exec (.settask t i val) s = .next ((s.setSlot T i x).respond (.settask t i val) 1#32) := by
  simp [exec, execSettask, hT, Nat.not_le.2 hi, hx, hl, mt State.writeBlocked_iff.1 hd]

end

/-- Settles O23. -/
theorem settaskRule : Obligations.SettaskRule := by
  refine fun t i val s => ⟨fun hfails => ⟨_, exec_settask_of_fails hfails, rfl⟩, fun T x hT hi hx hl => ⟨fun hd => ?_,
    fun hd => ⟨_, exec_settask_of_legal hT hi hx hl hd, ?_, fun T' j => s.slot_setSlot T T' i j x⟩⟩⟩
  · exact exec_raised (exec_settask_of_dispatch hT hi hx hl hd)
  · rw [State.setSlot_frame]
    rfl

/-! RUNTASK (R174 to R176). -/

theorem exec_runtask_of_main (hc : s.ctx = .main) :
    exec (.runtask t i) s = .next (s.raise (.dispatchInMainline (encode (.runtask t i)))) := by
  simp [exec, execRuntask, hc]

theorem exec_runtask_of_badIndex (hc : s.ctx ≠ .main) (h : ∀ T, tableOf s.cfg t = some T → tableSize s.cfg T ≤ i) :
    exec (.runtask t i) s = .next (s.raise (.runTaskBadIndex t i)) := by
  simp only [exec, execRuntask, if_neg hc]
  split
  · rfl
  · next T hT => rw [if_pos (h T hT)]

section
variable (hc : s.ctx ≠ .main) (hT : tableOf s.cfg t = some T) (hi : i < tableSize s.cfg T)
include hc hT hi

theorem exec_runtask_of_null (hs : s.slot T i = .null) :
    exec (.runtask t i) s = .next (s.respond (.runtask t i) 0#32) := by
  simp [exec, execRuntask, hc, hT, Nat.not_le.2 hi, hs]

theorem exec_runtask_of_handler {h : Nat} (hs : s.slot T i = .handler h) :
    exec (.runtask t i) s = .next ((s.setWait (.runtask t i)).invoke h) := by
  simp [exec, execRuntask, hc, hT, Nat.not_le.2 hi, hs]

theorem exec_runtask_of_demux_active {g : Nat} (hs : s.slot T i = .demux g) (hd : s.dactOf g = .active) :
    exec (.runtask t i) s = .next (s.raise (.demuxReentered g)) := by
  simp [exec, execRuntask, hc, hT, Nat.not_le.2 hi, hs, State.demuxStart, hd]

theorem exec_runtask_of_demux_idle {g : Nat} (hs : s.slot T i = .demux g) (hd : s.dactOf g = .idle) :
    exec (.runtask t i) s = .next (s.demuxPush (.runtask t i) g) := by
  simp [exec, execRuntask, hc, hT, Nat.not_le.2 hi, hs, State.demuxStart, hd]

end

/-- Settles O24. -/
theorem runtaskRule : Obligations.RuntaskRule := by
  refine fun t i s => ⟨fun hc => exec_raised (exec_runtask_of_main hc),
    fun hc hbad => exec_raised (exec_runtask_of_badIndex hc hbad), fun T hc hT hi => ⟨fun hs => ?_,
    fun v l h₀ r₀ w₀ as fs h hcs hs => ?_, fun v l h₀ r₀ w₀ as fs g hcs hs => ⟨fun hd => ?_, fun hd => ?_⟩⟩⟩
  · exact ⟨_, exec_runtask_of_null hc hT hi hs, rfl⟩
  · rw [exec_runtask_of_handler hc hT hi hs, State.setWait_of_cs hcs, State.invoke_of_cs rfl]
  · exact exec_raised (exec_runtask_of_demux_active hc hT hi hs hd)
  · refine ⟨_, exec_runtask_of_demux_idle hc hT hi hs hd, ?_, fun g' => ?_⟩
    · rw [State.demuxPush_of_cs hcs]
      rfl
    · rw [State.dactOf_demuxPush]
      exact if_congr eq_comm rfl rfl

/-! GETMASK and TSIZE (R180, R182). -/

theorem exec_getmask_of_none {w : Nat} (hT : tableOf s.cfg t = none) :
    exec (.getmask t w) s = .next (s.respond (.getmask t w) 0#32) := by
  simp [exec, execGetmask, hT]

theorem exec_getmask_of_table {w : Nat} (hT : tableOf s.cfg t = some T) :
    exec (.getmask t w) s = .next (s.respond (.getmask t w) (s.maskWord T w)) := by
  simp [exec, execGetmask, hT]

/-- Settles O25: the response is the mask word, whose bits are the occupied-slot bits. -/
theorem getmaskRule : Obligations.GetmaskRule := by
  refine fun t w s => ⟨fun hT => ⟨_, exec_getmask_of_none hT, rfl⟩,
    fun T hT => ⟨_, s.maskWord T w, exec_getmask_of_table hT, rfl, fun j hj => ?_⟩⟩
  rw [getLsbD_maskWord, State.maskBit]
  simp only [hj, decide_true, Bool.true_and, Bool.and_eq_true, decide_eq_true_eq]

theorem exec_tsize_of_none (hT : tableOf s.cfg t = none) : exec (.tsize t) s = .next (s.respond (.tsize t) 0#32) := by
  simp [exec, execTsize, hT]

theorem exec_tsize_of_table (hT : tableOf s.cfg t = some T) :
    exec (.tsize t) s = .next (s.respond (.tsize t) (BitVec.ofNat 32 (tableSize s.cfg T))) := by
  simp [exec, execTsize, hT]

/-- Settles O26. -/
theorem tsizeRule : Obligations.TsizeRule := by
  refine fun t s => ⟨?_, fun r ht hr => ?_, fun hraw hnone => ?_⟩
  · rintro rfl
    exact ⟨_, exec_tsize_of_table (tableOf_raw _), rfl⟩
  · have hsize := exec_tsize_of_table (tableOf_of_group ht hr)
    rw [tableSize, groupSize_of_groupOf hr] at hsize
    exact ⟨_, hsize, rfl⟩
  · exact ⟨_, exec_tsize_of_none (tableOf_eq_none hraw hnone), rfl⟩

/-! TRET (R184, R185). -/

/-- TRET takes the running body off its frame, and what is left resumes (R184). -/
theorem exec_tret_of_cs {v : Nat} {l : BitVec 8} {h : Nat} {r : List CmdWord} {w : Wait} {as : List Act}
    {fs : List Frame} (hcs : s.cs = ⟨v, l, .body h r w :: as⟩ :: fs) :
    exec .tret s = .next (State.resume { s with cs := ⟨v, l, as⟩ :: fs, hist := s.hist ++ [.ret (.irq v) h] }) := by
  simp only [exec, execTret, State.acts_of_cs hcs, State.setActs_of_cs hcs, State.ctx_of_cs hcs, State.record]

theorem exec_tret_of_noBody (ha : ∀ h r w as, s.acts ≠ .body h r w :: as) :
    exec .tret s = .next (s.raise (.strayReturn s.ctx)) := by
  cases hs : s.acts with
  | nil => simp [exec, execTret, hs]
  | cons a as =>
    cases a with
    | body h r w => exact absurd hs (ha h r w as)
    | demux => simp [exec, execTret, hs]

/-- Settles O27: the body is taken off its frame, and what then stands on top resumes. -/
theorem tretRule : Obligations.TretRule := by
  refine fun s => ⟨fun v l h r w fs hcs => ?_, fun v l h r w h' r' t i as fs hcs => ?_,
    fun v l h r w g snap pos phase as fs hcs => ?_, fun ha => exec_raised (exec_tret_of_noBody ha)⟩
  · rw [exec_tret_of_cs hcs, State.resume_of_nil (State.acts_of_cs rfl), State.interruptReturn_cons _ rfl]
    simp only [List.append_assoc, List.singleton_append]
  · rw [exec_tret_of_cs hcs, State.resume_of_runtask (State.acts_of_cs rfl), State.setActs_of_cs rfl, State.respond,
      State.ctx_of_cs rfl, State.record]
    simp only [List.append_assoc, List.singleton_append]
  · rw [exec_tret_of_cs hcs, State.resume_of_demux (State.acts_of_cs rfl)]

end Sys2Proof.Machine
end

section
/-! The vector level commands (42_icu_level.md): what each answers (R200 to R214). -/

namespace Sys2Proof.Machine

variable {s : State} {v pid p : Nat}

/-! SETLVLV and SETLVLP (R200, R205). They write alike: SETLVLV for the one vector it names. -/

/-- What a level command writes: the vectors `vs` are disabled, field `f` gets `p`, and for `p > 0` the vectors are enabled
again (R200, R205). -/
def State.setLevel (s : State) (vs : List Nat) (f p : Nat) : State :=
  if 0 < p then ((s.setIens vs false).setIpr f (BitVec.ofNat 8 p)).setIens vs true
  else (s.setIens vs false).setIpr f (BitVec.ofNat 8 p)

@[simp] theorem State.ienBit_setIpr (s : State) (f v : Nat) (x : BitVec 8) : (s.setIpr f x).ienBit v = s.ienBit v := rfl

theorem State.ienBit_setLevel (s : State) (vs : List Nat) (f p v : Nat) :
    (s.setLevel vs f p).ienBit v = if v ∈ vs then decide (0 < p) else s.ienBit v := by
  by_cases hp : 0 < p
  · by_cases hv : v ∈ vs <;> simp [State.setLevel, hp, hv]
  · simp [State.setLevel, hp]

theorem State.iprField_setLevel (s : State) (vs : List Nat) (f p f' : Nat) :
    (s.setLevel vs f p).iprField f' = if f' = f then BitVec.ofNat 8 p else s.iprField f' := by
  simp only [State.setLevel, apply_ite (State.iprField · f'), State.iprField_setIens, State.iprField_setIpr, ite_self,
    eq_comm (a := f)]

/-- A level command that responds writes its enable bits, its field and the history alone. -/
theorem State.respond_setLevel_frame (s : State) (vs : List Nat) (f p : Nat) (i : Instr) (x : Word) :
    (s.setLevel vs f p).respond i x = { s with
      ien := (s.setLevel vs f p).ien, ipr := (s.setLevel vs f p).ipr, hist := s.hist ++ [.cmd s.ctx (encode i) x] } := by
  unfold State.setLevel
  split <;> rfl

theorem exec_setlvlv_of_fails (h : lvecField s.cfg v = none ∨ s.cfg.prioMax < p) :
    exec (.setlvlv v p) s = .next (s.respond (.setlvlv v p) 0#32) := by
  simp only [exec, execSetlvlv]
  split
  · rfl
  · next f hf => rw [if_pos (h.resolve_left (by simp [hf]))]

theorem exec_setlvlv_of_legal {f : Nat} (hf : lvecField s.cfg v = some f) (hp : p ≤ s.cfg.prioMax) :
    exec (.setlvlv v p) s = .next ((s.setLevel [v] f p).respond (.setlvlv v p) 1#32) := by
  simp only [exec, execSetlvlv, hf, if_neg (Nat.not_lt.2 hp)]
  rfl

theorem exec_setlvlp_of_fails (h : periphOf s.cfg pid = none ∨ s.cfg.prioMax < p) :
    exec (.setlvlp pid p) s = .next (s.respond (.setlvlp pid p) 0#32) := by
  simp only [exec, execSetlvlp]
  split
  · rfl
  · next r hr => rw [if_pos (h.resolve_left (by simp [hr]))]

theorem exec_setlvlp_of_legal {r : PeriphRow} (hr : periphOf s.cfg pid = some r) (hp : p ≤ s.cfg.prioMax) :
    exec (.setlvlp pid p) s = .next ((s.setLevel r.env r.field p).respond (.setlvlp pid p) 1#32) := by
  simp only [exec, execSetlvlp, hr, if_neg (Nat.not_lt.2 hp)]
  rfl

/-- Settles O28. -/
theorem setlvlvRule : Obligations.SetlvlvRule := by
  refine fun v p s => ⟨fun hfails => ⟨_, exec_setlvlv_of_fails hfails, rfl⟩, fun f hf hp =>
    ⟨_, exec_setlvlv_of_legal hf hp, s.respond_setLevel_frame [v] f p _ _, fun v' => ?_, s.iprField_setLevel [v] f p⟩⟩
  exact (s.ienBit_setLevel [v] f p v').trans (if_congr List.mem_singleton rfl rfl)

/-- Settles O29. -/
theorem setlvlpRule : Obligations.SetlvlpRule :=
  fun _ p s => ⟨fun hfails => ⟨_, exec_setlvlp_of_fails hfails, rfl⟩, fun r hr hp =>
    ⟨_, exec_setlvlp_of_legal hr hp, s.respond_setLevel_frame r.env r.field p _ _, s.ienBit_setLevel r.env r.field p,
      s.iprField_setLevel r.env r.field p⟩⟩

/-! RDLVL (R210). -/

/-- The fields of the response are the parts it is concatenated from (R210). -/
theorem State.levelWord_fields (s : State) (v : Nat) :
    (s.levelWord v).extractLsb' 31 1 = 1#1 ∧ (s.levelWord v).extractLsb' 16 15 = 0#15 ∧
      (s.levelWord v).extractLsb' 8 8 = s.prioOf v ∧ (s.levelWord v).extractLsb' 2 6 = 0#6 ∧
      (s.levelWord v).getLsbD 1 = s.req v ∧ (s.levelWord v).getLsbD 0 = s.ienBit v := by
  unfold State.levelWord
  simp (disch := omega) only [BitVec.extractLsb'_append_eq_of_le, BitVec.extractLsb'_append_eq_of_add_le,
    BitVec.getLsbD_append, BitVec.getLsbD_ofBool]
  simp

theorem State.req_iff : s.req v = true ↔
    if isGroup s.cfg v then s.grpValue v &&& s.genValue v ≠ 0#32 else s.irBit v = true := by
  unfold State.req
  split
  · exact decide_eq_true_iff
  · rfl

theorem State.prioOf_of_field {f : Nat} (hf : fieldOf s.cfg v = some f) : s.prioOf v = s.iprField f := by
  simp [State.prioOf, hf]

theorem State.prioOf_of_noField (hf : fieldOf s.cfg v = none) : s.prioOf v = 0#8 := by simp [State.prioOf, hf]

theorem exec_rdlvl_of_invalid (hv : s.cfg.nv ≤ v) : exec (.rdlvl v) s = .next (s.respond (.rdlvl v) 0#32) := by
  simp only [exec, execRdlvl, if_pos hv]

theorem exec_rdlvl_of_valid (hv : v < s.cfg.nv) :
    exec (.rdlvl v) s = .next (s.respond (.rdlvl v) (s.levelWord v)) := by
  simp only [exec, execRdlvl, if_neg (Nat.not_le.2 hv)]

/-- Settles O30: the response is the level word, whose fields are the parts that make it up. -/
theorem rdlvlRule : Obligations.RdlvlRule := by
  refine fun v s => ⟨fun hv => ⟨_, exec_rdlvl_of_invalid hv, rfl⟩, fun hv => ?_⟩
  obtain ⟨hmark, hhigh, hprio, hlow, hreq, hen⟩ := s.levelWord_fields v
  refine ⟨_, s.levelWord v, exec_rdlvl_of_valid hv, rfl, hmark, hhigh, hlow, fun f hf => ?_, fun hf => ?_, ?_, hen⟩
  · rw [hprio, State.prioOf_of_field hf]
  · rw [hprio, State.prioOf_of_noField hf]
  · rw [hreq, State.req_iff]

/-! SETDMAC (R214). -/

theorem exec_setdmac (ch v : Nat) (s : State) : exec (.setdmac ch v) s = .next (s.refuse .unmodelledSetdmac) := rfl

/-- Settles O31: only a clean block steps, and none is clean once it has refused. -/
theorem setdmacRule : Obligations.SetdmacRule := by
  refine fun ch v s => ⟨_, exec_setdmac ch v s, rfl, fun u hu => ?_⟩
  obtain ⟨-, hclean, -⟩ := step_next hu
  exact State.not_clean_refuse _ hclean

end Sys2Proof.Machine
end

section
/-! What the group commands and the engine rest on: the bits of the group registers and of a snapshot (10_state.md R39, R40;
43_group_demux.md R242), and what an INSTGT installs (R230). -/

namespace Sys2Proof.Machine

variable {s : State} {g i : Nat} {r : GroupRow}

theorem isGroup_of_groupOf {c : Cfg} (hr : groupOf c g = some r) : isGroup c g = true := by simp [isGroup, hr]

/-! Bits of registers. -/

theorem getLsbD_and_lowMask (x : Word) (n j : Nat) : (x &&& lowMask n).getLsbD j = (decide (j < n) && x.getLsbD j) := by
  rw [BitVec.getLsbD_and, getLsbD_lowMask]
  by_cases hj : j < 32
  · simp [hj, Bool.and_comm]
  · simp [BitVec.getLsbD_of_ge x j (by omega)]

/-- A bit written in one register of a map of registers is the only bit that changes. -/
theorem getLsbD_get_set_setBit (m : List (Nat × Word)) (g i : Nat) (b : Bool) (g' : Nat) {j : Nat} (hj : j < 32) :
    (Sparse.get 0#32 (Sparse.set 0#32 m g (setBit (Sparse.get 0#32 m g) i b)) g').getLsbD j =
      if g' = g ∧ j = i then b else (Sparse.get 0#32 m g').getLsbD j := by
  rw [Sparse.get_set]
  by_cases hg : g' = g
  · subst hg
    rw [if_pos rfl, getLsbD_setBit]
    exact if_congr (by simp [hj, eq_comm]) rfl rfl
  · rw [if_neg (Ne.symm hg), if_neg fun h => hg h.1]

/-- The enable bits of a group, none from `N(g)` on (R39). -/
theorem State.getLsbD_genValue (s : State) (g j : Nat) :
    (s.genValue g).getLsbD j = (decide (j < groupSize s.cfg g) && (Sparse.get 0#32 s.gen g).getLsbD j) :=
  getLsbD_and_lowMask _ _ _

/-- The flags of a group: latches of an edge group, inputs of a level group, none from `N(g)` on (R40). -/
theorem State.getLsbD_grpValue (hr : groupOf s.cfg g = some r) (j : Nat) : (s.grpValue g).getLsbD j =
    (decide (j < r.n) && (Sparse.get 0#32 (if r.trig = .edge then s.grp else s.src) g).getLsbD j) := by
  simp only [State.grpValue, hr]
  cases r.trig with
  | edge => exact getLsbD_and_lowMask _ _ _
  | level => exact getLsbD_and_lowMask _ _ _

/-- The snapshot holds the set flags of the occupied slots (R242). -/
theorem State.getLsbD_snapshot (s : State) (g j : Nat) :
    (s.snapshot g).getLsbD j = ((s.grpValue g).getLsbD j && s.maskBit (.group g) j) := by
  rw [State.snapshot, BitVec.getLsbD_and, getLsbD_maskWord]
  by_cases hj : j < 32
  · simp [hj]
  · simp [BitVec.getLsbD_of_ge (s.grpValue g) j (by omega)]

theorem State.maskBit_group_iff (hr : groupOf s.cfg g = some r) {j : Nat} :
    s.maskBit (.group g) j = true ↔ j < r.n ∧ s.gtSlot g j ≠ .null := by
  rw [State.maskBit, Bool.and_eq_true, decide_eq_true_eq, decide_eq_true_eq, tableSize, groupSize_of_groupOf hr, State.slot]

theorem State.maskBit_of_null {T : Table} (h : s.slot T i = .null) : s.maskBit T i = false := by
  simp [State.maskBit, h]

theorem State.grpValue_setGrpBit_of_ne {g' : Nat} {b : Bool} (hg : g' ≠ g) :
    (s.setGrpBit g i b).grpValue g' = s.grpValue g' := by
  simp [State.grpValue, State.setGrpBit, hg.symm]

/-- The clear of a latch of an edge group clears that flag and no other (R247, R252). -/
theorem State.getLsbD_grpValue_setGrpBit_false (hr : groupOf s.cfg g = some r) (ht : r.trig = .edge) (i g' : Nat) {j : Nat}
    (hj : j < 32) : ((s.setGrpBit g i false).grpValue g').getLsbD j =
      if g' = g ∧ j = i then false else (s.grpValue g').getLsbD j := by
  by_cases hg : g' = g
  · subst hg
    have hbit := getLsbD_get_set_setBit s.grp g' i false g' hj
    rw [State.getLsbD_grpValue hr, State.getLsbD_grpValue (s := s.setGrpBit g' i false) hr, if_pos ht, if_pos ht,
      State.setGrpBit, hbit]
    by_cases hji : j = i <;> simp [hji]
  · rw [State.grpValue_setGrpBit_of_ne hg, if_neg fun h => hg h.1]

/-! What an INSTGT installs (R230). -/

/-- An INSTGT that its operands allow names a source of a group and a slot value that a group table may hold. -/
theorem exists_slot_of_not_instgtFails {c : Cfg} {val : Word} (h : ¬ instgtFails c g i val) :
    isGroup c g = true ∧ i < groupSize c g ∧ ∃ x, decodeHandle c val = some x ∧ slotLegal (.group g) x = true := by
  simp only [instgtFails, not_or, Bool.not_eq_false, Nat.not_le, not_exists] at h
  obtain ⟨hg, hi, hsome, hdemux⟩ := h
  obtain ⟨x, hx⟩ := Option.ne_none_iff_exists'.1 hsome
  refine ⟨hg, hi, x, hx, ?_⟩
  cases x with
  | null => rfl
  | handler => rfl
  | demux g' => exact absurd hx (hdemux g')

theorem State.gtSlot_installTask (s : State) (g i : Nat) (x : Slot) (g' j : Nat) :
    (s.installTask g i x).gtSlot g' j = if g' = g ∧ j = i then x else s.gtSlot g' j :=
  (s.gtSlot_setGt g i g' j x).trans (if_congr (and_congr eq_comm eq_comm) rfl rfl)

theorem State.rawSlot_installTask (s : State) (g i : Nat) (x : Slot) (v : Nat) :
    (s.installTask g i x).rawSlot v = if v = g then .demux g else s.rawSlot v :=
  (s.rawSlot_setRaw g v (.demux g)).trans (if_congr eq_comm rfl rfl)

theorem State.getLsbD_genValue_installTask (s : State) (g i : Nat) (x : Slot) (g' : Nat) {j : Nat}
    (hj : j < groupSize s.cfg g') (hj' : j < 32) : ((s.installTask g i x).genValue g').getLsbD j =
      if g' = g ∧ j = i then decide (x ≠ .null) else (s.genValue g').getLsbD j := by
  have hcfg : (s.installTask g i x).cfg = s.cfg := rfl
  have hbit := getLsbD_get_set_setBit s.gen g i (decide (x ≠ .null)) g' hj'
  rw [State.getLsbD_genValue, State.getLsbD_genValue, hcfg, decide_eq_true hj, Bool.true_and, Bool.true_and]
  exact hbit

/-- What is installed already is not changed by installing it again (R231). -/
theorem State.installTask_installTask (s : State) (g i : Nat) (x : Slot) :
    (s.installTask g i x).installTask g i x = s.installTask g i x := by
  simp [State.installTask, State.setGt, State.setRaw, State.setGenBit, Sparse.set_set_same, setBit_setBit]

end Sys2Proof.Machine
end

section
/-! The group commands (43_group_demux.md): what each answers (R230 to R256). -/

namespace Sys2Proof.Machine

variable {s : State} {g i : Nat} {val : Word} {x : Slot} {r : GroupRow}

/-! INSTGT (R230 to R232). -/

theorem exec_instgt_of_fails (h : instgtFails s.cfg g i val) :
    exec (.instgt g i val) s = .next (s.respond (.instgt g i val) 0#32) := by
  simp only [exec, execInstgt]
  obtain hg | hi | hx | ⟨g', hx⟩ := h
  · rw [if_pos hg]
  · rw [if_pos hi, ite_self]
  · rw [hx, ite_self, ite_self]
  · rw [hx]
    simp [slotLegal]

section
variable (hg : isGroup s.cfg g = true) (hi : i < groupSize s.cfg g) (hx : decodeHandle s.cfg val = some x)
  (hl : slotLegal (.group g) x = true)
include hg hi hx hl

theorem exec_instgt_of_active (hd : s.dactOf g = .active) :
    exec (.instgt g i val) s = .next (s.raise (.tableWriteDuringDispatch g i)) := by
  simp [exec, execInstgt, hg, Nat.not_le.2 hi, hx, hl, hd]

theorem exec_instgt_of_frameOn (hd : s.dactOf g = .idle) (hf : s.frameOn g = true) :
    exec (.instgt g i val) s = .next (s.raise (.tableWriteDuringDispatch rawSel g)) := by
  simp [exec, execInstgt, hg, Nat.not_le.2 hi, hx, hl, hd, hf]

theorem exec_instgt_of_free (hd : s.dactOf g = .idle) (hf : s.frameOn g = false) :
    exec (.instgt g i val) s = .next ((s.installTask g i x).respond (.instgt g i val) 1#32) := by
  simp [exec, execInstgt, hg, Nat.not_le.2 hi, hx, hl, hd, hf]

end

theorem State.frameOn_iff : s.frameOn g = true ↔ ∃ f ∈ s.cs, f.vec = g := by simp [State.frameOn]

theorem State.frameOn_eq_false_iff : s.frameOn g = false ↔ ∀ f ∈ s.cs, f.vec ≠ g := by simp [State.frameOn]

/-- Settles O32. -/
theorem instgtRule : Obligations.InstgtRule := by
  refine fun g i val s => ⟨fun hfails => ⟨_, exec_instgt_of_fails hfails, rfl⟩, fun hok hd => ?_, fun hok hd hf => ?_,
    fun x hok hx hd hf => ?_⟩
  · obtain ⟨hg, hi, x, hx, hl⟩ := exists_slot_of_not_instgtFails hok
    exact exec_raised (exec_instgt_of_active hg hi hx hl hd)
  · obtain ⟨hg, hi, x, hx, hl⟩ := exists_slot_of_not_instgtFails hok
    exact exec_raised (exec_instgt_of_frameOn hg hi hx hl hd (State.frameOn_iff.2 hf))
  · obtain ⟨hg, hi, x', hx', hl⟩ := exists_slot_of_not_instgtFails hok
    obtain rfl : x' = x := Option.some.inj (hx'.symm.trans hx)
    exact ⟨_, exec_instgt_of_free hg hi hx hl hd (State.frameOn_eq_false_iff.2 hf), rfl, s.gtSlot_installTask g i x',
      s.rawSlot_installTask g i x', fun g' _ hj hj' => s.getLsbD_genValue_installTask g i x' g' hj hj'⟩

/-- A fault that is raised again is only recorded again: `FAULTS` is a set (R47, R271). -/
theorem State.raise_raise (s : State) (f : FaultRec) :
    (s.raise f).raise f = { s.raise f with hist := (s.raise f).hist ++ [.fault f] } := by
  simp [State.raise]

theorem eq_of_exec {i : Instr} {t u : State} (h : exec i s = .next t) (h' : exec i s = .next u) : t = u :=
  Host.Outcome.next.inj (h.symm.trans h')

/-- Settles O33: no branch writes what the choice of the branch rests on, so the second command takes the first one's branch
and raises, or installs, what stands already. -/
theorem instgtIsIdempotent : Obligations.InstgtIsIdempotent := by
  intro g i val s t u hst _ htu
  by_cases hfails : instgtFails s.cfg g i val
  · obtain rfl := eq_of_exec hst (exec_instgt_of_fails hfails)
    obtain rfl := eq_of_exec htu (exec_instgt_of_fails hfails)
    rfl
  obtain ⟨hg, hi, x, hx, hl⟩ := exists_slot_of_not_instgtFails hfails
  cases hd : s.dactOf g with
  | active =>
    obtain rfl := eq_of_exec hst (exec_instgt_of_active hg hi hx hl hd)
    obtain rfl := eq_of_exec htu (exec_instgt_of_active hg hi hx hl hd)
    exact s.raise_raise _
  | idle =>
    cases hf : s.frameOn g with
    | true =>
      obtain rfl := eq_of_exec hst (exec_instgt_of_frameOn hg hi hx hl hd hf)
      obtain rfl := eq_of_exec htu (exec_instgt_of_frameOn hg hi hx hl hd hf)
      exact s.raise_raise _
    | false =>
      obtain rfl := eq_of_exec hst (exec_instgt_of_free hg hi hx hl hd hf)
      obtain rfl := eq_of_exec htu (exec_instgt_of_free hg hi hx hl hd hf)
      have hagain : ((s.installTask g i x).respond (.instgt g i val) 1#32).installTask g i x =
          (s.installTask g i x).respond (.instgt g i val) 1#32 :=
        congrArg (State.respond · (.instgt g i val) 1#32) (s.installTask_installTask g i x)
      rw [hagain]
      rfl

/-- Settles O41: the slot is empty, so its mask bit is 0 and a snapshot, which keeps only flags under the mask, cannot name
it. -/
theorem emptySlotNeverInvoked : Obligations.EmptySlotNeverInvoked := by
  intro g i s t hi hg hd hf ht
  have hx : decodeHandle s.cfg 0#32 = some .null := rfl
  rw [exec_instgt_of_free hg hi hx rfl hd hf] at ht
  cases ht
  have hmask : ((s.installTask g i .null).respond (.instgt g i 0#32) 1#32).maskBit (.group g) i = false :=
    State.maskBit_of_null ((s.gtSlot_installTask g i .null g i).trans (if_pos ⟨rfl, rfl⟩))
  refine ⟨hmask, fun flags => ⟨?_, ?_⟩⟩
  · rw [State.getLsbD_snapshot]
    exact (congrArg _ hmask).trans (Bool.and_false _)
  · rw [State.getLsbD_snapshot]
    exact (congrArg _ hmask).trans (Bool.and_false _)

/-! GDEMUX (R240, R242). -/

theorem exec_gdemux_of_main (hc : s.ctx = .main) :
    exec (.gdemux g) s = .next (s.raise (.dispatchInMainline (encode (.gdemux g)))) := by
  simp [exec, execGdemux, hc]

theorem exec_gdemux_of_noGroup (hc : s.ctx ≠ .main) (hg : groupOf s.cfg g = none) :
    exec (.gdemux g) s = .next (s.respond (.gdemux g) 0#32) := by
  simp [exec, execGdemux, hc, isGroup_eq_false.2 hg]

theorem exec_gdemux_of_group (hc : s.ctx ≠ .main) (hr : groupOf s.cfg g = some r) :
    exec (.gdemux g) s = .next (s.demuxStart (.gdemux g) g) := by
  simp [exec, execGdemux, hc, isGroup_of_groupOf hr]

/-- Settles O34. -/
theorem gdemuxRule : Obligations.GdemuxRule := by
  refine fun g s => ⟨fun hc => exec_raised (exec_gdemux_of_main hc), fun hc hg => ⟨_, exec_gdemux_of_noGroup hc hg, rfl⟩,
    fun r hc hr => ⟨fun hd => ?_, fun v l h₀ r₀ w₀ as fs hd hcs => ?_⟩⟩
  · refine exec_raised ?_
    rw [exec_gdemux_of_group hc hr, State.demuxStart, if_pos hd]
  · refine ⟨s.demuxPush (.gdemux g) g, s.snapshot g, ?_, ?_, fun g' => ?_, fun j => ?_⟩
    · rw [exec_gdemux_of_group hc hr, State.demuxStart, if_neg (by simp [hd])]
    · rw [State.demuxPush_of_cs hcs]
      rfl
    · rw [State.dactOf_demuxPush]
      exact if_congr eq_comm rfl rfl
    · rw [State.getLsbD_snapshot, Bool.and_eq_true, State.maskBit_group_iff hr]

/-! RDGRP and RDGEN (R250, R254). -/

theorem exec_rdgrp_of_noGroup (hg : groupOf s.cfg g = none) : exec (.rdgrp g) s = .next (s.respond (.rdgrp g) 0#32) := by
  simp [exec, execRdgrp, isGroup_eq_false.2 hg]

theorem exec_rdgrp_of_group (hr : groupOf s.cfg g = some r) :
    exec (.rdgrp g) s = .next (s.respond (.rdgrp g) (s.grpValue g)) := by
  simp [exec, execRdgrp, isGroup_of_groupOf hr]

/-- Settles O35. -/
theorem rdgrpRule : Obligations.RdgrpRule :=
  fun g s => ⟨fun hg => ⟨_, exec_rdgrp_of_noGroup hg, rfl⟩, fun _ hr =>
    ⟨_, s.grpValue g, exec_rdgrp_of_group hr, rfl, fun j _ => State.getLsbD_grpValue hr j⟩⟩

theorem exec_rdgen_of_noGroup (hg : groupOf s.cfg g = none) : exec (.rdgen g) s = .next (s.respond (.rdgen g) 0#32) := by
  simp [exec, execRdgen, isGroup_eq_false.2 hg]

theorem exec_rdgen_of_group (hr : groupOf s.cfg g = some r) :
    exec (.rdgen g) s = .next (s.respond (.rdgen g) (s.genValue g)) := by
  simp [exec, execRdgen, isGroup_of_groupOf hr]

/-- Settles O37. -/
theorem rdgenRule : Obligations.RdgenRule := by
  refine fun g s => ⟨fun hg => ⟨_, exec_rdgen_of_noGroup hg, rfl⟩, fun r hr =>
    ⟨_, s.genValue g, exec_rdgen_of_group hr, rfl, fun j _ => ?_⟩⟩
  rw [State.getLsbD_genValue, groupSize_of_groupOf hr]

/-! CLRGRP (R252). -/

theorem exec_clrgrp_of_fails (h : ∀ r, groupOf s.cfg g = some r → r.n ≤ i ∨ r.trig = .level) :
    exec (.clrgrp g i) s = .next (s.respond (.clrgrp g i) 0#32) := by
  simp only [exec, execClrgrp]
  split
  · rfl
  · next r hr =>
    obtain hi | ht := h r hr
    · rw [if_pos hi]
    · rw [if_pos ht, ite_self]

theorem exec_clrgrp_of_edge (hr : groupOf s.cfg g = some r) (hi : i < r.n) (ht : r.trig = .edge) :
    exec (.clrgrp g i) s = .next ((s.setGrpBit g i false).respond (.clrgrp g i) 1#32) := by
  simp [exec, execClrgrp, hr, Nat.not_le.2 hi, ht]

/-- Settles O36. -/
theorem clrgrpRule : Obligations.ClrgrpRule :=
  fun _ i _ => ⟨fun hfails => ⟨_, exec_clrgrp_of_fails hfails, rfl⟩, fun _ hr hi ht =>
    ⟨_, exec_clrgrp_of_edge hr hi ht, rfl, fun g' _ hj => State.getLsbD_grpValue_setGrpBit_false hr ht i g' hj⟩⟩

end Sys2Proof.Machine
end

section
/-! The engine (43_group_demux.md R241 to R248): what the scan, after-call and finish steps of a demux in a frame do. -/

namespace Sys2Proof.Machine

variable {s : State} {v g pos i : Nat} {l : BitVec 8} {snap : Word} {as : List Act} {fs : List Frame} {r : GroupRow}

/-- A scheduled step of the running activation, where that is a demux, is the engine's (R89, R241). -/
theorem step_of_engine {phase : Phase} {rest : List Input} (hcfg : cfgOk s.cfg = true) (hclean : s.clean = true)
    (hin : s.inputs = .run :: rest) (hcs : s.cs = ⟨v, l, .demux g snap pos phase :: as⟩ :: fs) :
    step s = .next (State.demuxStep { s with inputs := rest } g snap pos phase as) := by
  have hentry : State.entryStep { s with inputs := rest } .run =
      some (.next (State.demuxStep { s with inputs := rest } g snap pos phase as)) := by
    simp [State.entryStep, State.runningStep, State.heldOn, State.acts, hcs]
  rw [step_of_clean hcfg hclean, hin, scheduledStep, hentry]

/-! Scan (R244, R245). -/

theorem nextSource_eq_some {n : Nat} (hpos : pos ≤ i) (hi : i < n) (hbit : snap.getLsbD i = true)
    (hleast : ∀ j, pos ≤ j → j < i → snap.getLsbD j = false) : nextSource snap pos n = some i := by
  refine List.find?_range_eq_some.2 ⟨by simp [hpos, hbit], List.mem_range.2 hi, fun j hj => ?_⟩
  by_cases hpj : pos ≤ j
  · simp [hleast j hpj hj]
  · simp [hpj]

theorem nextSource_eq_none {n : Nat} (h : ∀ j, pos ≤ j → j < n → snap.getLsbD j = false) :
    nextSource snap pos n = none := by
  refine List.find?_range_eq_none.2 fun j hj => ?_
  by_cases hpj : pos ≤ j
  · simp [h j hpj hj]
  · simp [hpj]

/-- A scan that finds a source invokes its handler above the pass (R244). -/
theorem State.demuxStep_scan_of_handler {a : Act} {h : Nat} (hcs : s.cs = ⟨v, l, a :: as⟩ :: fs)
    (hnext : nextSource snap pos (groupSize s.cfg g) = some i) (hslot : s.gtSlot g i = .handler h) :
    s.demuxStep g snap pos .scan as = { s with
      cs := ⟨v, l, .body h (bodyOf s.cfg h) .nothing :: .demux g snap pos (.called i) :: as⟩ :: fs
      hist := s.hist ++ [.invoke (.irq v) h] } := by
  simp only [State.demuxStep, State.demuxScan, hnext, hslot]
  rw [State.setActs_of_cs hcs, State.invoke_of_cs rfl]

/-- Settles O38. -/
theorem scanInvokesLeastSource : Obligations.ScanInvokesLeastSource := by
  intro s v l g snap pos as fs rest i h hcfg hclean hin hcs hpos hi hbit hleast hslot
  have hscan := State.demuxStep_scan_of_handler (s := { s with inputs := rest }) hcs
    (nextSource_eq_some hpos hi hbit hleast) hslot
  rw [step_of_engine hcfg hclean hin hcs, hscan]

/-! After the call (R247). -/

theorem State.clearServiced_of_edge (hr : groupOf s.cfg g = some r) (ht : r.trig = .edge) :
    s.clearServiced g i = s.setGrpBit g i false := by
  simp [State.clearServiced, hr, ht]

theorem State.clearServiced_of_level (hr : groupOf s.cfg g = some r) (ht : r.trig = .level) :
    s.clearServiced g i = s := by
  simp [State.clearServiced, hr, ht]

theorem State.getLsbD_grpValue_clearServiced (hr : groupOf s.cfg g = some r) (i g' : Nat) {j : Nat} (hj : j < 32) :
    ((s.clearServiced g i).grpValue g').getLsbD j =
      if g' = g ∧ j = i ∧ r.trig = .edge then false else (s.grpValue g').getLsbD j := by
  cases ht : r.trig with
  | edge =>
    rw [State.clearServiced_of_edge hr ht, State.getLsbD_grpValue_setGrpBit_false hr ht i g' hj]
    simp
  | level =>
    rw [State.clearServiced_of_level hr ht]
    simp

/-- The flag is cleared after the call, and the scan goes on above the source (R247). -/
theorem State.demuxStep_called {a : Act} (hcs : s.cs = ⟨v, l, a :: as⟩ :: fs) :
    s.demuxStep g snap pos (.called i) as =
      { s.clearServiced g i with cs := ⟨v, l, .demux g snap (i + 1) .scan :: as⟩ :: fs } := by
  have hcs' : (s.clearServiced g i).cs = ⟨v, l, a :: as⟩ :: fs := by rw [State.clearServiced_frame, hcs]
  rw [State.demuxStep, State.demuxAfter, State.setActs_of_cs hcs']

/-- Settles O39. -/
theorem afterCallClearsEdgeFlag : Obligations.AfterCallClearsEdgeFlag := by
  intro s v l g snap pos i as fs rest r hcfg hclean hin hcs hr
  have hafter : step s = .next { State.clearServiced { s with inputs := rest } g i with
      cs := ⟨v, l, .demux g snap (i + 1) .scan :: as⟩ :: fs } :=
    (step_of_engine hcfg hclean hin hcs).trans (congrArg _ (State.demuxStep_called hcs))
  refine ⟨_, hafter, ?_, fun ht => ?_, fun g' j hj => ?_⟩
  · rw [State.clearServiced_frame]
  · have hkept := State.clearServiced_of_level (s := { s with inputs := rest }) (i := i) hr ht
    rw [hkept]
  · exact State.getLsbD_grpValue_clearServiced (s := { s with inputs := rest }) hr i g' hj

/-! Finish (R248). -/

/-- A scan that finds no source takes the pass off its frame, and what is left resumes (R244, R248). -/
theorem State.demuxStep_scan_of_none {a : Act} (hcs : s.cs = ⟨v, l, a :: as⟩ :: fs)
    (hnext : nextSource snap pos (groupSize s.cfg g) = none) :
    s.demuxStep g snap pos .scan as = (State.setDact { s with cs := ⟨v, l, as⟩ :: fs } g .idle).resume := by
  simp only [State.demuxStep, State.demuxScan, hnext]
  rw [State.demuxFinish, State.setActs_of_cs hcs]

theorem State.resume_of_gdemux {n g₀ : Nat} {rest : List CmdWord} (h : s.acts = .body n rest (.gdemux g₀) :: as) :
    s.resume = (s.setActs (.body n rest .nothing :: as)).respond (.gdemux g₀) 1#32 := by
  simp [State.resume, h]

/-- While a frame stands, a resumption writes the frames and the history alone. -/
theorem State.resume_frame_of_cs (hcs : s.cs = ⟨v, l, as⟩ :: fs) :
    s.resume = { s with cs := s.resume.cs, hist := s.resume.hist } := by
  obtain ⟨-, h⟩ | ⟨_, _, _, _, _, _, -, h⟩ | h := s.resume_trichotomy
  · rw [h, State.interruptReturn_frame]
  · rw [h, State.setActs_of_cs hcs]
    rfl
  · rw [h]

/-- Settles O40: the finished pass is off its frame, and what then stands on top resumes. -/
theorem finishResumesStarter : Obligations.FinishResumesStarter := by
  intro s v l g snap pos as fs rest hcfg hclean hin hcs hnone
  let u := State.setDact { s with inputs := rest, cs := ⟨v, l, as⟩ :: fs } g .idle
  have hfinish : step s = .next u.resume := (step_of_engine hcfg hclean hin hcs).trans
    (congrArg _ (State.demuxStep_scan_of_none hcs (nextSource_eq_none hnone)))
  have hcs' : u.cs = ⟨v, l, as⟩ :: fs := rfl
  have hframe := State.resume_frame_of_cs hcs'
  refine ⟨_, hfinish, ?_, fun g' => ?_, ?_, ?_, ?_⟩
  · rw [hframe]
    rfl
  · rw [hframe]
    exact (State.dactOf_setDact _ g g' .idle).trans (if_congr eq_comm rfl rfl)
  · rintro rfl
    rw [State.resume_of_nil (State.acts_of_cs hcs'), State.interruptReturn_cons _ hcs']
    exact ⟨rfl, rfl⟩
  · rintro h r g₀ as' rfl
    rw [State.resume_of_gdemux (State.acts_of_cs hcs'), State.setActs_of_cs hcs']
    exact ⟨rfl, rfl⟩
  · rintro h r t₀ i₀ as' rfl
    rw [State.resume_of_runtask (State.acts_of_cs hcs'), State.setActs_of_cs hcs']
    exact ⟨rfl, rfl⟩

end Sys2Proof.Machine
end

section
/-! Who is delivered (60_exceptions.md R283 to R286, R290): which vectors are eligible, which of them a delivery takes, and how
deep the context stack gets. -/

namespace Sys2Proof.Machine

variable {s : State} {v : Nat}

theorem State.req_iff_groupOf : s.req v = true ↔
    (groupOf s.cfg v ≠ none ∧ s.grpValue v &&& s.genValue v ≠ 0#32) ∨ (groupOf s.cfg v = none ∧ s.irBit v = true) := by
  rw [State.req_iff]
  cases h : groupOf s.cfg v <;> simp [isGroup, h]

/-- A vector with a priority field outranks the running level (R285). -/
theorem State.outranks_iff : (fieldOf s.cfg v).isSome = true ∧ s.curLvl < (s.prioOf v).toNat ↔
    ∃ f, fieldOf s.cfg v = some f ∧ s.curLvl < (s.iprField f).toNat := by
  cases h : fieldOf s.cfg v with
  | none => simp
  | some f => simp [State.prioOf_of_field h]

/-- Settles O12. -/
theorem eligibilityRule : Obligations.EligibilityRule := by
  intro s v
  simp only [State.eligible, Bool.and_eq_true, decide_eq_true_eq]
  rw [← State.outranks_iff, ← State.req_iff_groupOf, State.clean_iff]
  tauto

theorem State.selected_eligible (h : s.selected = some v) : s.eligible v = true := (selectBelow_some h).2.1

/-- A delivery step has a vector to take only while the block runs (R285). -/
theorem State.clean_of_selected (h : s.selected = some v) : s.clean = true := by
  obtain ⟨-, -, -, -, hclean⟩ := (eligibilityRule s v).1 (State.selected_eligible h)
  exact State.clean_iff.2 hclean

theorem State.lt_nv_of_eligible (h : s.eligible v = true) : v < s.cfg.nv := ((eligibilityRule s v).1 h).1

theorem State.selected_eq_none_iff : s.selected = none ↔ ∀ v, s.eligible v = false := by
  refine ⟨fun h v => ?_, fun h => Option.eq_none_iff_forall_ne_some.2 fun v hv => ?_⟩
  · exact Bool.eq_false_iff.2 fun he => Bool.eq_false_iff.1 (selectBelow_none h v (State.lt_nv_of_eligible he)) he
  · exact Bool.eq_false_iff.1 (h v) (State.selected_eligible hv)

/-- A delivery step takes `v` before `u`: `v` has the higher priority, or the lower number of two equals (R286). -/
def State.TakesBefore (s : State) (v u : Nat) : Prop :=
  (s.prioOf u).toNat < (s.prioOf v).toNat ∨ ((s.prioOf u).toNat = (s.prioOf v).toNat ∧ v < u)

theorem State.TakesBefore.asymm {u : Nat} (h : s.TakesBefore v u) : ¬ s.TakesBefore u v := by
  unfold State.TakesBefore at *
  omega

theorem State.selected_takesBefore (h : s.selected = some v) {u : Nat} (hu : s.eligible u = true) (hne : u ≠ v) :
    s.TakesBefore v u := by
  obtain ⟨-, -, hmax⟩ := selectBelow_some h
  rcases hmax u (State.lt_nv_of_eligible hu) hu with hlt | ⟨heq, hle⟩
  · exact .inl hlt
  · exact .inr ⟨congrArg _ heq, Nat.lt_of_le_of_ne hle hne.symm⟩

/-- Settles O13: the order of R286 is asymmetric, so no second vector comes before every other. -/
theorem selectionRule : Obligations.SelectionRule := by
  refine fun s => ⟨State.selected_eq_none_iff, fun v => ⟨fun h => ?_, fun ⟨hv, hfirst⟩ => ?_⟩⟩
  · exact ⟨State.selected_eligible h, fun u => State.selected_takesBefore h⟩
  · cases hsel : s.selected with
    | none => exact absurd hv (Bool.eq_false_iff.1 (State.selected_eq_none_iff.1 hsel v))
    | some b =>
      by_contra hne
      have hbv : b ≠ v := fun h => hne (congrArg some h)
      have hbefore : s.TakesBefore v b := hfirst b (State.selected_eligible hsel) hbv
      exact hbefore.asymm (State.selected_takesBefore hsel hv hbv.symm)

theorem NestedLevels.length_le {max : Nat} {ls : List Nat} (h : NestedLevels max ls) : ls.length ≤ max := by
  obtain ⟨hdecreasing, hrange⟩ := h
  have hnodup : ls.Nodup := hdecreasing.imp Nat.ne_of_gt
  have hsub : ls ⊆ List.range' 1 max := fun l hl => List.mem_range'_1.2 (by have := hrange l hl; omega)
  simpa using (hnodup.subperm hsub).length_le

/-- Settles O51: the levels of the frames are distinct numbers in `1..PRIO_MAX`. -/
theorem nestingBoundsDepth : Obligations.NestingBoundsDepth := by
  intro s hs
  obtain ⟨-, hnest⟩ := nestingInv_iff.1 hs
  rw [DepthBound, ← List.length_map fun f : Frame => f.lvl.toNat]
  exact hnest.length_le

end Sys2Proof.Machine
end

section
/-! Interrupt entry (60_exceptions.md R287, R288): what the acceptance of a vector does, by the slot that `RAW` holds for it. -/

namespace Sys2Proof.Machine

variable {s : State} {v g : Nat} {rest : List Input}

/-- A scheduled delivery takes the selected vector, if there is one (R89, R286). -/
theorem step_of_deliver (hcfg : cfgOk s.cfg = true) (hin : s.inputs = .deliver :: rest) (hv : s.selected = some v) :
    step s = .next (State.deliver { s with inputs := rest } v) := by
  have hentry : State.entryStep { s with inputs := rest } .deliver =
      some (.next (State.deliver { s with inputs := rest } v)) := by
    simp [State.entryStep, hv]
  rw [step_of_clean hcfg (State.clean_of_selected hv), hin, scheduledStep, hentry]

/-- Whatever work the slot names, acceptance consumes the latch (R287). -/
theorem State.irBit_deliver (s : State) (v u : Nat) :
    (s.deliver v).irBit u = if u = v ∧ groupOf s.cfg v = none then false else s.irBit u := by
  have hir : (s.deliver v).ir = (s.consumeRequest v).ir := by
    rcases ((s.consumeRequest v).pushFrame v).startWork_storage (s.rawSlot v) with h | ⟨g, h⟩ <;> exact h.ir
  have hbit : (s.deliver v).irBit u = (s.consumeRequest v).irBit u := congrArg (Sparse.get false · u) hir
  rw [hbit, State.irBit_consumeRequest]
  exact if_congr (by rw [isGroup_eq_false, and_comm, eq_comm (a := v)]) rfl rfl

theorem State.deliver_of_null (h : s.rawSlot v = .null) : s.deliver v = { s with
    ir := (s.consumeRequest v).ir, hist := s.hist ++ [.deliver v (s.prioOf v), .intReturn v] } := by
  rw [State.deliver, h, State.startWork, State.interruptReturn_cons _ (State.pushFrame_cs _ v), State.consumeRequest_frame]
  simp [State.pushFrame, State.prioOf, State.iprField]

theorem State.deliver_of_handler {h : Nat} (hs : s.rawSlot v = .handler h) : s.deliver v = { s with
    ir := (s.consumeRequest v).ir, cs := ⟨v, s.prioOf v, [.body h (bodyOf s.cfg h) .nothing]⟩ :: s.cs
    hist := s.hist ++ [.deliver v (s.prioOf v), .invoke (.irq v) h] } := by
  rw [State.deliver, hs, State.startWork, State.invoke_of_cs (State.pushFrame_cs _ v), State.consumeRequest_frame]
  simp [State.pushFrame, State.prioOf, State.iprField]

theorem State.deliver_of_demux_idle (hs : s.rawSlot v = .demux g) (hd : s.dactOf g = .idle) : s.deliver v = { s with
    ir := (s.consumeRequest v).ir, cs := ⟨v, s.prioOf v, [.demux g (s.snapshot g) 0 .scan]⟩ :: s.cs
    dact := (s.setDact g .active).dact, hist := s.hist ++ [.deliver v (s.prioOf v)] } := by
  have hd' : ((s.consumeRequest v).pushFrame v).dactOf g = .idle := by rwa [State.consumeRequest_frame]
  rw [State.deliver, hs, State.startWork, State.demuxStart, if_neg (by simp [hd']),
    State.demuxPush_of_cs (State.pushFrame_cs _ v), State.consumeRequest_frame]
  rfl

theorem State.deliver_of_demux_active (hs : s.rawSlot v = .demux g) (hd : s.dactOf g = .active) :
    s.deliver v = ((s.consumeRequest v).pushFrame v).raise (.demuxReentered g) := by
  have hd' : ((s.consumeRequest v).pushFrame v).dactOf g = .active := by rwa [State.consumeRequest_frame]
  rw [State.deliver, hs, State.startWork, State.demuxStart, if_pos hd']

/-- Unless it starts a demux that is active, acceptance writes a latch, the frames, `DACT` and the history alone. -/
theorem State.deliver_frame_of_idle (hidle : ∀ g, s.rawSlot v = .demux g → s.dactOf g = .idle) :
    s.deliver v = { s with
      ir := (s.deliver v).ir, cs := (s.deliver v).cs, dact := (s.deliver v).dact, hist := (s.deliver v).hist } := by
  cases hs : s.rawSlot v with
  | null => rw [State.deliver_of_null hs]
  | handler h => rw [State.deliver_of_handler hs]
  | demux g => rw [State.deliver_of_demux_idle hs (hidle g hs)]

/-- Acceptance marks active the demux it starts (R288). -/
theorem State.dactOf_deliver (hidle : ∀ g, s.rawSlot v = .demux g → s.dactOf g = .idle) (g : Nat) :
    (s.deliver v).dactOf g = if s.rawSlot v = .demux g then .active else s.dactOf g := by
  cases hs : s.rawSlot v with
  | null => rw [State.deliver_of_null hs]; simp [State.dactOf]
  | handler h => rw [State.deliver_of_handler hs]; simp [State.dactOf]
  | demux g' =>
    rw [State.deliver_of_demux_idle hs (hidle g' hs)]
    exact (State.dactOf_setDact s g' g .active).trans (if_congr (by rw [Slot.demux.injEq]) rfl rfl)

/-- Settles O14. -/
theorem acceptanceEntersFrame : Obligations.AcceptanceEntersFrame := by
  intro s v rest hcfg hin hv hidle
  let u : State := { s with inputs := rest }
  have hframe := State.deliver_frame_of_idle (s := u) hidle
  refine ⟨_, step_of_deliver hcfg hin hv, hframe, u.irBit_deliver v, State.dactOf_deliver (s := u) hidle,
    fun hs => ?_, fun h hs => ?_, fun g hs => ?_⟩
  · rw [State.deliver_of_null (s := u) hs]
    exact ⟨rfl, rfl⟩
  · rw [State.deliver_of_handler (s := u) hs]
    exact ⟨rfl, rfl⟩
  · rw [State.deliver_of_demux_idle (s := u) hs (hidle g hs)]
    exact ⟨rfl, rfl⟩

/-- Settles O15. -/
theorem acceptanceIntoActiveDemuxFaults : Obligations.AcceptanceIntoActiveDemuxFaults := by
  intro s v g rest hcfg hin hv hs hd
  obtain ⟨hnofault, -⟩ := State.clean_iff.1 (State.clean_of_selected hv)
  let u : State := { s with inputs := rest }
  have hdeliver : u.deliver v = _ := State.deliver_of_demux_active (s := u) hs hd
  have hfaults : (u.deliver v).faults = [.demuxReentered g] := by
    rw [hdeliver, State.consumeRequest_frame]
    simp [State.raise, State.pushFrame, u, hnofault]
  have hcfg' : cfgOk (u.deliver v).cfg = true := by rwa [State.deliver_frame]
  obtain ⟨-, hstopped, -⟩ := stoppedBlockTakesNoStep
  exact ⟨_, step_of_deliver hcfg hin hv, hfaults, hstopped _ _ _ hcfg' hfaults⟩

end Sys2Proof.Machine
end

section
/-! Source events (60_exceptions.md R280 to R284): what each sets. -/

namespace Sys2Proof.Machine

variable {s : State} {g i : Nat} {r : GroupRow} {e : SrcEvent} {rest : List Input}

theorem step_of_source (hcfg : cfgOk s.cfg = true) (hclean : s.clean = true) (hin : s.inputs = .source e :: rest) :
    step s = .next (State.sourceStep { s with inputs := rest } e) := by
  rw [step_of_clean hcfg hclean, hin, scheduledStep, State.entryStep]

/-- A write of bit `i < n` is seen through the mask of the bits below `n`. -/
theorem getLsbD_get_set_setBit_of_lt {n : Nat} (hi : i < n) (m : List (Nat × Word)) (g : Nat) (b : Bool) (j : Nat) :
    (decide (j < n) && (Sparse.get 0#32 (Sparse.set 0#32 m g (setBit (Sparse.get 0#32 m g) i b)) g).getLsbD j) =
      if i = j ∧ j < 32 then b else decide (j < n) && (Sparse.get 0#32 m g).getLsbD j := by
  rw [Sparse.get_set, if_pos rfl, getLsbD_setBit]
  split
  · next h => simp [← h.1, hi]
  · rfl

theorem State.getLsbD_grpValue_setGrpBit (hr : groupOf s.cfg g = some r) (ht : r.trig = .edge) (hi : i < r.n) (b : Bool)
    (j : Nat) : ((s.setGrpBit g i b).grpValue g).getLsbD j = if i = j ∧ j < 32 then b else (s.grpValue g).getLsbD j := by
  rw [State.getLsbD_grpValue hr, State.getLsbD_grpValue (s := s.setGrpBit g i b) hr, if_pos ht, if_pos ht]
  exact getLsbD_get_set_setBit_of_lt hi s.grp g b j

theorem State.getLsbD_grpValue_setSrcBit (hr : groupOf s.cfg g = some r) (ht : r.trig = .level) (hi : i < r.n) (b : Bool)
    (j : Nat) : ((s.setSrcBit g i b).grpValue g).getLsbD j = if i = j ∧ j < 32 then b else (s.grpValue g).getLsbD j := by
  rw [State.getLsbD_grpValue hr, State.getLsbD_grpValue (s := s.setSrcBit g i b) hr, ht]
  exact getLsbD_get_set_setBit_of_lt hi s.src g b j

theorem State.grpValue_setSrcBit_of_ne {g' : Nat} {b : Bool} (hg : g' ≠ g) :
    (s.setSrcBit g i b).grpValue g' = s.grpValue g' := by
  simp [State.grpValue, State.setSrcBit, hg.symm]

/-! The effect of a group's source event is one bit, or none (R280). -/

theorem State.srcEffect_edge_cases (s : State) (g i : Nat) :
    s.srcEffect (.edge g i) = s ∨ s.srcEffect (.edge g i) = s.setGrpBit g i true := by
  simp only [State.srcEffect]
  split
  · split
    · exact .inr rfl
    · exact .inl rfl
  · exact .inl rfl

theorem State.srcEffect_level_cases (s : State) (g i : Nat) (b : Bool) :
    s.srcEffect (.level g i b) = s ∨ s.srcEffect (.level g i b) = s.setSrcBit g i b := by
  simp only [State.srcEffect]
  split
  · split
    · exact .inr rfl
    · exact .inl rfl
  · exact .inl rfl

/-- An EDGE of another group leaves the flags of `g` (R281). -/
theorem State.grpValue_edge_of_ne {g' : Nat} (hg : g ≠ g') : (s.srcEffect (.edge g' i)).grpValue g = s.grpValue g := by
  rcases s.srcEffect_edge_cases g' i with h | h <;> rw [h]
  exact State.grpValue_setGrpBit_of_ne hg

/-- A LEVEL of another group leaves the flags of `g` (R282). -/
theorem State.grpValue_level_of_ne {g' : Nat} {b : Bool} (hg : g ≠ g') :
    (s.srcEffect (.level g' i b)).grpValue g = s.grpValue g := by
  rcases s.srcEffect_level_cases g' i b with h | h <;> rw [h]
  exact State.grpValue_setSrcBit_of_ne hg

/-- EDGE sets the flag of its source, if it is one of an edge group (R281). -/
theorem State.getLsbD_grpValue_edge (hr : groupOf s.cfg g = some r) (g' i j : Nat) :
    ((s.srcEffect (.edge g' i)).grpValue g).getLsbD j = true ↔
      (g' = g ∧ i = j ∧ r.trig = .edge ∧ i < r.n ∧ j < 32) ∨ (s.grpValue g).getLsbD j = true := by
  by_cases hg : g' = g
  · subst hg
    simp only [State.srcEffect, hr]
    split
    · next h =>
      rw [State.getLsbD_grpValue_setGrpBit hr h.1 h.2]
      split
      · next hij => exact ⟨fun _ => .inl ⟨trivial, hij.1, h.1, h.2, hij.2⟩, fun _ => rfl⟩
      · next hij => tauto
    · next h => tauto
  · rw [State.grpValue_edge_of_ne (Ne.symm hg)]
    simp [hg]

/-- LEVEL sets the input of its source, if it is one of a level group (R282). -/
theorem State.getLsbD_grpValue_level (hr : groupOf s.cfg g = some r) (g' i : Nat) (b : Bool) (j : Nat) :
    ((s.srcEffect (.level g' i b)).grpValue g).getLsbD j = true ↔
      if g' = g ∧ i = j ∧ r.trig = .level ∧ i < r.n ∧ j < 32 then b = true else (s.grpValue g).getLsbD j = true := by
  by_cases hg : g' = g
  · subst hg
    simp only [State.srcEffect, hr]
    split
    · next h =>
      rw [State.getLsbD_grpValue_setSrcBit hr h.1 h.2]
      simp only [h, true_and]
      split <;> rfl
    · next h => rw [if_neg (by tauto)]
  · rw [State.grpValue_level_of_ne (Ne.symm hg), if_neg fun h => hg h.1]

theorem State.grpValue_vreq (s : State) (g v : Nat) : (s.srcEffect (.vreq v)).grpValue g = s.grpValue g := by
  simp only [State.srcEffect]
  split <;> rfl

/-- Only a VREQ of a non-group vector sets a latch, and only its own (R284). -/
theorem State.irBit_srcEffect (s : State) (e : SrcEvent) (v : Nat) : (s.srcEffect e).irBit v = true ↔
    s.irBit v = true ∨ (e = .vreq v ∧ v < s.cfg.nv ∧ groupOf s.cfg v = none) := by
  cases e with
  | edge g i =>
    have hkept : (s.srcEffect (.edge g i)).irBit v = s.irBit v := by
      rcases s.srcEffect_edge_cases g i with h | h <;> rw [h]
      rfl
    simp [hkept]
  | level g i b =>
    have hkept : (s.srcEffect (.level g i b)).irBit v = s.irBit v := by
      rcases s.srcEffect_level_cases g i b with h | h <;> rw [h]
      rfl
    simp [hkept]
  | vreq v' =>
    simp only [State.srcEffect, isGroup_eq_false, SrcEvent.vreq.injEq]
    split
    · next h =>
      rw [State.irBit_setIr]
      split
      · next hv => simp [← hv, h]
      · next hv => simp [hv]
    · next h => exact ⟨.inl, fun hor => hor.resolve_right fun ⟨hv, hlegal⟩ => h (hv ▸ hlegal)⟩

/-- Settles O11. -/
theorem sourceEventEffects : Obligations.SourceEventEffects := by
  intro s e rest hcfg hclean hin
  let u : State := { s with inputs := rest }
  refine ⟨_, step_of_source hcfg hclean hin, u.sourceStep_frame e, fun g r j hr => ?_, u.irBit_srcEffect e⟩
  cases e with
  | edge g' i => exact State.getLsbD_grpValue_edge (s := u) hr g' i j
  | level g' i b => exact State.getLsbD_grpValue_level (s := u) hr g' i b j
  | vreq v => exact iff_of_eq (congrArg (·.getLsbD j = true) (State.grpValue_vreq u g v))

end Sys2Proof.Machine
end

section
/-! The block right after reset (70_reset_and_hazards.md R320, R321): what each element reads, that every invariant holds, and
that no request stands. -/

namespace Sys2Proof.Machine

variable {s : State} (c : Cfg)

/-! What each element reads (R320). -/

@[simp] theorem State.ienBit_resetOf (v : Nat) : (State.resetOf c).ienBit v = false := rfl

@[simp] theorem State.irBit_resetOf (v : Nat) : (State.resetOf c).irBit v = false := rfl

@[simp] theorem State.rawSlot_resetOf (v : Nat) : (State.resetOf c).rawSlot v = .null := rfl

@[simp] theorem State.iprField_resetOf (f : Nat) : (State.resetOf c).iprField f = 0#8 := rfl

@[simp] theorem State.dactOf_resetOf (g : Nat) : (State.resetOf c).dactOf g = .idle := rfl

@[simp] theorem State.gtSlot_resetOf (g i : Nat) : (State.resetOf c).gtSlot g i = .null := rfl

@[simp] theorem State.rdOf_resetOf (q : Nat) : (State.resetOf c).rdOf q = 0 := rfl

@[simp] theorem State.wrOf_resetOf (q : Nat) : (State.resetOf c).wrOf q = 0 := rfl

@[simp] theorem State.allActs_resetOf : (State.resetOf c).allActs = [] := rfl

/-- With no enable bit listed, every group enable reads 0 (R39). -/
theorem State.genValue_of_gen_nil (h : s.gen = []) (g : Nat) : s.genValue g = 0#32 := by
  simp [State.genValue, h]

@[simp] theorem State.genValue_resetOf (g : Nat) : (State.resetOf c).genValue g = 0#32 :=
  State.genValue_of_gen_nil rfl g

/-- The latches and the inputs alike: both are 0 at reset (log 4 for the inputs). -/
@[simp] theorem State.grpValue_resetOf (g : Nat) : (State.resetOf c).grpValue g = 0#32 := by
  simp only [State.grpValue, State.resetOf, Sparse.get_nil, BitVec.zero_and]
  split
  · rfl
  · split <;> rfl

/-- A queue whose cursors coincide is empty (R43). -/
theorem State.len_eq_zero_of_cursors_eq {q : QueueRow} (h : s.wrOf q.id = s.rdOf q.id) : s.len q = 0 := by
  simp [State.len, h]

@[simp] theorem State.len_resetOf (q : QueueRow) : (State.resetOf c).len q = 0 :=
  State.len_eq_zero_of_cursors_eq rfl

/-- Settles O42. -/
theorem resetValues : Obligations.ResetValues := fun c =>
  ⟨fun v => ⟨State.ienBit_resetOf c v, State.irBit_resetOf c v, State.rawSlot_resetOf c v⟩, State.iprField_resetOf c,
    fun g => ⟨State.genValue_resetOf c g, State.dactOf_resetOf c g, State.gtSlot_resetOf c g⟩,
    fun g _ _ _ => State.grpValue_resetOf c g, fun q => ⟨State.rdOf_resetOf c q, State.wrOf_resetOf c q⟩,
    State.len_resetOf c, rfl, rfl, rfl, rfl, rfl, rfl, rfl⟩

/-! The invariants. -/

theorem canonicalForm_resetOf : CanonicalForm (State.resetOf c) where
  ien := rfl
  ipr := rfl
  ir := rfl
  raw := rfl
  gt := rfl
  gen := rfl
  grp := rfl
  src := rfl
  buf := rfl
  rd := rfl
  wr := rfl
  dact := rfl

/-- Cursors at 0 are in range because a listed queue has room for a byte (R8, R42). -/
theorem queueInv_resetOf {c : Cfg} (hc : cfgOk c = true) : QueueInv (State.resetOf c) := by
  intro q r hq
  have hcap : 1 ≤ r.cap := (queueOf_cap hc hq).1
  simp only [State.rdOf_resetOf, State.wrOf_resetOf, State.len_resetOf]
  omega

/-- No byte is held, so none is unwritten (R84). -/
theorem writtenInv_resetOf {c : Cfg} (hc : cfgOk c = true) : WrittenInv (State.resetOf c) := by
  refine ⟨queueInv_resetOf hc, fun q r _ k hk => ?_⟩
  rw [State.len_resetOf] at hk
  exact absurd hk (Nat.not_lt_zero k)

@[simp] theorem State.contents_resetOf (q : QueueRow) : (State.resetOf c).contents q = [] := by
  simp [State.contents]

/-- None put, none got, none held (R90). -/
theorem fifoInv_resetOf {c : Cfg} (hc : cfgOk c = true) : FifoInv (State.resetOf c) :=
  ⟨queueInv_resetOf hc, fun _ r _ => (State.contents_resetOf c r).symm⟩

/-- Priorities are 0 and no frame stands (R33, R290). -/
theorem nestingInv_resetOf : NestingInv (State.resetOf c) :=
  nestingInv_iff.2 ⟨fun _ => Nat.zero_le _, List.Pairwise.nil, nofun⟩

/-- Demuxes are idle, no activation stands and the group tables are empty (R46, R37, R244). -/
theorem demuxDiscipline_resetOf : DemuxDiscipline (State.resetOf c) (State.resetOf c).allActs where
  nodup := List.nodup_nil
  dact _ := ⟨nofun, nofun⟩
  table _ _ _ := nofun
  snapshot _ _ _ _ := nofun

theorem callChains_resetOf : CallChains (State.resetOf c) := nofun

theorem groupBits_resetOf : GroupBits (State.resetOf c) where
  gen _ _ h := by simp [State.resetOf] at h
  grp _ _ h := by simp [State.resetOf] at h
  src _ _ h := by simp [State.resetOf] at h

/-- Settles O43: level inputs 0 at reset are the model's choice (log 4), which the group bits use. -/
theorem resetMeetsInvariants : Obligations.ResetMeetsInvariants := fun c hc =>
  ⟨canonicalForm_iff.1 (canonicalForm_resetOf c), queueInv_resetOf hc, writtenInv_resetOf hc, fifoInv_resetOf hc,
    nestingInv_resetOf c, rfl, demuxInv_iff_allActs.2 (demuxDiscipline_resetOf c),
    fun _ => ⟨rfl, callChains_resetOf c⟩, groupBits_iff.1 (groupBits_resetOf c)⟩

/-! No request (R321). -/

/-- A vector that is not enabled is not eligible (R285). -/
theorem State.not_eligible_of_ienBit {v : Nat} (h : s.ienBit v = false) : s.eligible v = false := by
  simp [State.eligible, h]

/-- A group with no source enabled does not request, whatever its flags read (R283). -/
theorem State.not_greq_of_genValue {g : Nat} (h : s.genValue g = 0#32) : s.greq g = false := by
  simp [State.greq, h]

/-- Settles O44: it is the enables that reset clears (R320), and they decide, not the flags. -/
theorem nothingEligibleAtReset : Obligations.NothingEligibleAtReset := fun _ _ _ v =>
  ⟨State.not_eligible_of_ienBit rfl, State.not_greq_of_genValue (State.genValue_of_gen_nil rfl v)⟩

end Sys2Proof.Machine
end
